-- ==== Sys2Proof/Word.lean ====
section
/-! DEFINITION. The word and byte types of the block (00_scope.md R8, R10): every value is unsigned. -/

namespace Sys2Proof

/-- `u32` of R10: a host bus word, a hash, an offset, a length, a code. -/
abbrev Word := BitVec 32

/-- `u8` of R10: a source-buffer byte, a SIZE entry. -/
abbrev Byte := BitVec 8

end Sys2Proof
end

