-- ==== Sys2Proof/Config.lean ====
section
/-! DEFINITION. What an implementation fixes (00_scope.md R8) and the free values the spec leaves open
(93_implementation_defined.md). Every free value is opaque: no proof can see what it is. -/

namespace Sys2Proof

/-- SRC_VISIBILITY of 20_memory.md R90: on a coherent platform a host write to the source buffer is visible to the source
port at once; otherwise it is visible once the host has published it. -/
inductive SrcVisibility where
  | coherent
  | explicit
  deriving DecidableEq, Repr

/-- The OPEN parameters of R8. They are constants of the machine: no step changes them (log 5). -/
structure Params where
  /-- HT_MAX_LOGLEN, 1..32 -/
  maxLoglen : Nat
  /-- BASE, the bus address of the block, a multiple of 16 KiB -/
  base : Nat
  srcVisibility : SrcVisibility
  deriving DecidableEq, Repr

/-- HT_MIN_LEN of R8. -/
def Config.minLen : Nat := 4
/-- MAX_SYMS of R8. -/
def Config.maxSyms : Nat := 1024
/-- GEN_MAX_LEN of R8. -/
def Config.genMaxLen : Nat := 32
/-- The size of the register block, 16 KiB (10_state.md R23). -/
def Config.blockBytes : Nat := 0x4000

/-- HT_RESET_LOGLEN of R8. -/
def Params.resetLoglen (P : Params) : Nat := min 4 P.maxLoglen

/-- DESIGN CHOICE (log 5), unsafe for a claim about the run from reset: the parameters of `State.reset`. HT_MAX_LOGLEN = 32
is the test vectors' (95_test_vectors.md); the parameters of any other state are whatever the state holds. -/
def Params.default : Params := { maxLoglen := 32, base := 0, srcVisibility := .coherent }

/-- FREE VALUE (log 3): the reset contents of SYM entry `i` in the era after the `era`-th reset (R271, S3). -/
opaque Config.resetSym (era i : Nat) : Word
/-- FREE VALUE (log 3): the reset contents of SIZE entry `i` (R271, S3). -/
opaque Config.resetSize (era i : Nat) : Byte
/-- FREE VALUE (log 3): the reset contents of CODE entry `i` (R271, S3). -/
opaque Config.resetCode (era i : Nat) : Word
/-- FREE VALUE (log 8): what the `draw`-th read of a busy unit's register returns (20_memory.md R83 (c), S1). -/
opaque Config.busyRead (draw : Nat) : Word
/-- FREE VALUE (log 4): the byte at offset `off` of the source buffer before the host writes it. The buffer is ordinary memory
(R60, 20_memory.md R77), so it is one byte, the same at every read. -/
opaque Config.initialByte (off : Nat) : Byte
/-- FREE VALUE (log 4): what one read returns of a source byte that the host has written and not made visible, or writes while the
command runs (R80 (a), R283, S4, U6): the read of byte `k` of the stored copy (`stored`) or of the candidate, at the `visit`-th slot of the probe of the command that
drew `draw`. -/
opaque Config.anySourceByte (draw visit k : Nat) (stored : Bool) : Byte

end Sys2Proof
end

