-- ==== Sys2Proof/Syntax.lean ====
section
/-! DEFINITION. The commands of 30_encoding.md R103, one constructor per row of spec/opcode_table.json. A command
carries no operand (R101). -/

namespace Sys2Proof

/-- The two units of the block (00_scope.md R2, R16). -/
inductive UnitId where
  | ht
  | pc
  deriving DecidableEq, Repr

/-- The opcode map of R103. -/
inductive Instr where
  | htInit
  | htGet
  | htCount
  | htRdslot
  | pcSort
  | pcGencodes
  | pcLimit
  | pcClrflt
  deriving DecidableEq, Repr

/-- The unit a command belongs to: the column 'valid at' of R103. -/
def Instr.unit : Instr → UnitId
  | .htInit => .ht
  | .htGet => .ht
  | .htCount => .ht
  | .htRdslot => .ht
  | .pcSort => .pc
  | .pcGencodes => .pc
  | .pcLimit => .pc
  | .pcClrflt => .pc

end Sys2Proof
end

