-- ==== Sys2Proof/WellFormed.lean ====
section
/-! DEFINITION. Well-formedness: a command at a command register (30_encoding.md R104), and the parameters (00_scope.md R8). -/

namespace Sys2Proof

/-- R104: an opcode is valid only at the command register of its own unit. A command has no other field to check (R101). -/
def Instr.wellFormedAt (u : UnitId) (i : Instr) : Bool := i.unit = u

/-- R8: HT_MAX_LOGLEN is 1..32 and BASE is a multiple of 16 KiB. -/
def Params.wellFormed (P : Params) : Bool :=
  1 ≤ P.maxLoglen && P.maxLoglen ≤ 32 && P.base % Config.blockBytes = 0

end Sys2Proof
end

