-- ==== Sys2Proof/Decode.lean ====
section
/-! DEFINITION. Decoding a command word and its bytes (30_encoding.md R100-R108), the encoder, and the decoder the host asks
about a row of the opcode table. -/

namespace Sys2Proof

/-- Why a word or a byte string is no command of the unit it is offered to (R106). -/
inductive IllegalWord where
  /-- not the four bytes of one `CMD32` word (R100) -/
  | wrongLength
  /-- a RSVD bit is set (R100) -/
  | reservedBits
  /-- the opcode belongs to the other unit (R104) -/
  | otherUnit
  /-- no command has the opcode (R106) -/
  | unassigned
  deriving DecidableEq, Repr

/-- The result of decoding: total, and every rejection has a name. -/
inductive Decoded where
  | legal (i : Instr)
  | illegal (why : IllegalWord)
  deriving DecidableEq, Repr

/-- OPCODE, bits [7:0] (R100). -/
def opcodeField (w : Word) : BitVec 8 := w.extractLsb' 0 8

/-- RSVD, bits [31:8] (R100). -/
def reservedField (w : Word) : BitVec 24 := w.extractLsb' 8 24

/-- The opcodes of the other unit's commands (R104). -/
def otherUnitOpcode (u : UnitId) (op : BitVec 8) : Bool :=
  match u with
  | .ht => op = 0x11#8 || op = 0x12#8 || op = 0x13#8 || op = 0x14#8
  | .pc => op = 0x01#8 || op = 0x02#8 || op = 0x03#8 || op = 0x04#8

/-- `decode(unit, w)` of R105. -/
def decode (u : UnitId) (w : Word) : Decoded :=
  if reservedField w ≠ 0 then .illegal .reservedBits
  else if u = .ht ∧ opcodeField w = 0x01#8 then .legal .htInit
  else if u = .ht ∧ opcodeField w = 0x02#8 then .legal .htGet
  else if u = .ht ∧ opcodeField w = 0x03#8 then .legal .htCount
  else if u = .ht ∧ opcodeField w = 0x04#8 then .legal .htRdslot
  else if u = .pc ∧ opcodeField w = 0x11#8 then .legal .pcSort
  else if u = .pc ∧ opcodeField w = 0x12#8 then .legal .pcGencodes
  else if u = .pc ∧ opcodeField w = 0x13#8 then .legal .pcLimit
  else if u = .pc ∧ opcodeField w = 0x14#8 then .legal .pcClrflt
  else if otherUnitOpcode u (opcodeField w) then .illegal .otherUnit
  else .illegal .unassigned

/-- The word whose bytes, from the lowest address up, are given (20_memory.md R70: little-endian). -/
def wordOfBytes : List Byte → Option Word
  | [b0, b1, b2, b3] => some (b3 ++ b2 ++ b1 ++ b0)
  | _ => none

/-- The bytes of a word from the lowest address up (R70). -/
def bytesOfWord (w : Word) : List Byte :=
  [w.extractLsb' 0 8, w.extractLsb' 8 8, w.extractLsb' 16 8, w.extractLsb' 24 8]

/-- Decoding the bytes of a command, total on any bytes (R100: a command has no other length). -/
def decodeBytes (u : UnitId) (bs : List Byte) : Decoded :=
  match wordOfBytes bs with
  | some w => decode u w
  | none => .illegal .wrongLength

/-- The opcode of a command (R103). -/
def Instr.opcode : Instr → BitVec 8
  | .htInit => 0x01#8
  | .htGet => 0x02#8
  | .htCount => 0x03#8
  | .htRdslot => 0x04#8
  | .pcSort => 0x11#8
  | .pcGencodes => 0x12#8
  | .pcLimit => 0x13#8
  | .pcClrflt => 0x14#8

/-- The full word of a command (R103): OPCODE in bits [7:0], RSVD 0. -/
def encode (i : Instr) : Word := 0#24 ++ i.opcode

/-- The command's bytes from the lowest address up (R111). -/
def encodeBytes (i : Instr) : List Byte := bytesOfWord (encode i)

theorem decode_htInit_word : decode .ht 0x00000001#32 = .legal .htInit := by decide
theorem decode_htGet_word : decode .ht 0x00000002#32 = .legal .htGet := by decide
theorem decode_htCount_word : decode .ht 0x00000003#32 = .legal .htCount := by decide
theorem decode_htRdslot_word : decode .ht 0x00000004#32 = .legal .htRdslot := by decide
theorem decode_pcSort_word : decode .pc 0x00000011#32 = .legal .pcSort := by decide
theorem decode_pcGencodes_word : decode .pc 0x00000012#32 = .legal .pcGencodes := by decide
theorem decode_pcLimit_word : decode .pc 0x00000013#32 = .legal .pcLimit := by decide
theorem decode_pcClrflt_word : decode .pc 0x00000014#32 = .legal .pcClrflt := by decide

/-- The one word that an opcode-table row of `nbits` bits with the value `w` stands for; there is none for a row longer than
a `CMD32` or a value that does not fit the row. -/
def tableWord (nbits w : Nat) : Option Word :=
  if nbits ≤ 32 ∧ w < 2 ^ nbits then some (BitVec.ofNat 32 w) else none

/-- The unit whose command register takes the word: the HT unit unless only the PC unit knows the opcode (R103, R104). -/
def unitOfWord (w : Word) : UnitId :=
  match decode .pc w with
  | .legal _ => .pc
  | .illegal _ => .ht

/-- The command the decoder reads from the bytes of a row of spec/opcode_table.json, offered to the register of the row. -/
def decodeTableWord (nbits w : Nat) : Option Instr :=
  match tableWord nbits w with
  | none => none
  | some v =>
    match decodeBytes (unitOfWord v) (bytesOfWord v) with
    | .legal i => some i
    | .illegal _ => none

end Sys2Proof
end

