-- ==== Sys2Proof/Machine/State.lean ====
section
/-! DEFINITION. The state: the record of 10_state.md R20 (two units), the host's source buffer (R60), the parameters (R8) and the
model's own fields (the schedule of the agents' moves, the host's last bus response, the counters of free values); its
reset values (R59). -/

namespace Sys2Proof.Machine

/-- A slot of the slot store (R43). -/
structure Slot where
  hash : Word
  offset : Word
  len : Word
  deriving DecidableEq, Repr

/-- The fault codes of 60_exceptions.md R233 that a unit raises. -/
inductive FaultCode where
  | illegalCmd
  | lenTooShort
  | candRange
  | zeroHash
  | capacity
  | configRange
  | slotRange
  | numsymsRange
  deriving DecidableEq, Repr

/-- What the HT engine is doing (R27, R57): BUSY is 1 when it is not idle. -/
inductive HtTask where
  | idle
  /-- the reset clear of the slot store (70_reset_and_hazards.md R272) -/
  | clearing
  /-- the accepted command, as its word, not yet performed -/
  | running (w : Word)
  deriving DecidableEq, Repr

/-- The HT unit of R20. The slot store is the list of (index, slot) of the slots that are not `{0, 0, 0}`, indexes rising (log 7). -/
structure HtUnit where
  loglen : Nat
  slots : List (Nat × Slot)
  keycount : Word
  initLoglen : BitVec 6
  zhPolicy : Bool
  srcLen : Word
  hash : Word
  candOff : Word
  len : Word
  resOff : Word
  resCount : Word
  existed : Bool
  slotIdx : Word
  slotHash : Word
  slotOff : Word
  slotLen : Word
  task : HtTask
  faulted : Bool
  faultCode : BitVec 4
  deriving DecidableEq, Repr

/-- The PC unit of R20. Each memory is the list of (index, entry) of the entries written since reset, indexes rising; an entry
that is not listed still holds its reset contents, a free value (log 3). -/
structure PcUnit where
  numsyms : Word
  maxlen : Word
  result : Word
  /-- the accepted command, as its word, not yet performed; BUSY is 1 when there is one (R48) -/
  task : Option Word
  faulted : Bool
  faultCode : BitVec 4
  sym : List (Nat × Word)
  size : List (Nat × Byte)
  code : List (Nat × Word)
  deriving DecidableEq, Repr

/-- The source buffer, host memory (R60). A byte the host has not written is the free value
`Config.initialByte` (log 4). -/
structure Source where
  /-- the written bytes that the source read port sees (R76) -/
  visible : List Host.Cell
  /-- bytes the host wrote and has not yet made visible to the port (R90, R283) -/
  pending : List Host.Cell
  /-- offsets the host wrote while the HT command in progress was running (R80 (a)) -/
  raced : List Nat
  deriving DecidableEq, Repr

/-- The width of a host access (20_memory.md R73). -/
inductive AccessWidth where
  | w8
  | w16
  | w32
  | w64
  deriving DecidableEq, Repr

/-- When an accepted command, or the reset clear, is performed: in the step that starts it, or by a later move of the engine,
the unit being BUSY in between (R27, R88 (2), R272; log 2). -/
inductive Timing where
  | now
  | later
  deriving DecidableEq, Repr

/-- A move of one of the agents of 00_scope.md R16. There is one host (60_exceptions.md R242, R244): no move names a master or a
privilege. -/
inductive Event where
  /-- the host reads a bus address -/
  | read (width : AccessWidth) (addr : Nat)
  /-- the host writes a bus address; `timing` matters for a command register only -/
  | write (width : AccessWidth) (addr : Nat) (v : Word) (timing : Timing)
  /-- the host writes one byte of the source buffer in its own memory (R60, H4) -/
  | srcWrite (off : Word) (b : Byte)
  /-- the host makes the bytes it wrote at the offsets `lo ≤ off < hi` visible to the source port (R90, R283 (2); DESIGN CHOICE,
  log 12: the spec leaves open how much one publication covers) -/
  | publish (lo hi : Nat)
  /-- a unit's engine performs the command it accepted, or ends the reset clear -/
  | engine (u : UnitId)
  /-- reset is asserted and released (R270); `timing` says when the reset clear ends (R272) -/
  | reset (timing : Timing)
  deriving DecidableEq, Repr

/-- What the host's last bus access got back. -/
inductive BusResponse where
  | none
  /-- a write was taken or discarded: the host cannot tell (20_memory.md R83 (a)) -/
  | done
  /-- a read returned this word -/
  | data (v : Word)
  /-- a bus error: the write had no effect, the read returned no value (R73-R75) -/
  | error
  deriving DecidableEq, Repr

/-- The whole state. -/
structure State where
  params : Params
  ht : HtUnit
  pc : PcUnit
  src : Source
  schedule : List Event
  response : BusResponse
  freeCount : Nat
  era : Nat
  deriving DecidableEq, Repr

/-- Why a step stops. -/
inductive Fault where
  /-- raised by a host access below BASE, which is no access to the block at all (log 5). Safe: such an access exists on no
  platform's route to the block. -/
  | notRouted
  /-- raised by HT.GET when a probe finds no empty slot in 2^loglen visits: the pseudocode of R139 would not end. R153 shows that
  no run reaches this. Safe: it stops (log 9). -/
  | probeStuck
  deriving DecidableEq, Repr

/-- Why an instruction has no meaning. -/
inductive Refusal where
  /-- an instruction without a meaning in `exec`; no arm raises it. Safe: it stops. -/
  | notModelled (mnemonic : String)
  deriving DecidableEq, Repr

/-- The HT unit after the reset clear (R59, R273). -/
def HtUnit.reset (P : Params) : HtUnit where
  loglen := P.resetLoglen
  slots := []
  keycount := 0
  initLoglen := BitVec.ofNat 6 P.resetLoglen
  zhPolicy := false
  srcLen := 0
  hash := 0
  candOff := 0
  len := 0
  resOff := 0
  resCount := 0
  existed := false
  slotIdx := 0
  slotHash := 0
  slotOff := 0
  slotLen := 0
  task := .idle
  faulted := false
  faultCode := 0

/-- The PC unit after reset (R59): no memory entry has been written since (R271). -/
def PcUnit.reset : PcUnit where
  numsyms := 0
  maxlen := 0
  result := 0
  task := none
  faulted := false
  faultCode := 0
  sym := []
  size := []
  code := []

/-- The machine after reset with the parameters `P`, nothing yet done by the host. -/
def State.resetWith (P : Params) : State where
  params := P
  ht := HtUnit.reset P
  pc := PcUnit.reset
  src := { visible := [], pending := [], raced := [] }
  schedule := []
  response := .none
  freeCount := 0
  era := 0

/-- The machine right after reset (R59, R270), with the parameters of log 5. -/
def State.reset : State := State.resetWith Params.default

end Sys2Proof.Machine
end

