-- ==== Sys2Proof/Machine/Ops.lean ====
section
/-! DEFINITION. The named operations every command is written over: sparse arrays, the slot store, source reads, the PC
memories, raising and clearing a fault (60_exceptions.md R232, R236), and command acceptance (R240). -/

namespace Sys2Proof.Machine

/-- What a step answers. -/
abbrev StepResult := Host.Outcome State Fault Refusal

/-! ### Sparse arrays: lists of (index, value), indexes strictly rising -/

/-- The value listed at index `k`. -/
def Sparse.find {α : Type} : List (Nat × α) → Nat → Option α
  | [], _ => none
  | (j, v) :: m, k => if j = k then some v else Sparse.find m k

/-- The array with `v` listed at index `k`. -/
def Sparse.insert {α : Type} : List (Nat × α) → Nat → α → List (Nat × α)
  | [], k, v => [(k, v)]
  | (j, w) :: m, k, v =>
    if k < j then (k, v) :: (j, w) :: m
    else if k = j then (k, v) :: m
    else (j, w) :: Sparse.insert m k v

/-- The array with nothing listed at index `k`. -/
def Sparse.erase {α : Type} : List (Nat × α) → Nat → List (Nat × α)
  | [], _ => []
  | (j, w) :: m, k => if j = k then Sparse.erase m k else (j, w) :: Sparse.erase m k

/-- The array with each listed pair written, in order. -/
def Sparse.insertAll {α : Type} (m : List (Nat × α)) : List (Nat × α) → List (Nat × α)
  | [] => m
  | (k, v) :: kvs => Sparse.insertAll (Sparse.insert m k v) kvs

/-- The canonical form: indexes strictly rising. -/
abbrev Sparse.sorted {α : Type} (m : List (Nat × α)) : Prop := m.Pairwise fun a b => a.1 < b.1

/-- Every index is below `n`. -/
abbrev Sparse.below {α : Type} (n : Nat) (m : List (Nat × α)) : Prop := ∀ e ∈ m, e.1 < n

/-- The canonical form of a source memory: offsets strictly rising and 32 bits wide (20_memory.md R71 (2), R81). What is not
listed has not been written: it is the free value `Config.initialByte`, which no listed byte can be compared with. -/
abbrev Memory.wf (m : List Host.Cell) : Prop := Sparse.sorted m ∧ Sparse.below (2 ^ 32) m

/-! ### The slot store (10_state.md R43) -/

/-- `{hash: 0, offset: 0, len: 0}`, what a slot that is not listed holds (R130, R147, R272). -/
def Slot.zero : Slot := { hash := 0, offset := 0, len := 0 }

/-- `Slot[p]` of 00_scope.md R11. -/
def slotAt (slots : List (Nat × Slot)) (p : Nat) : Slot := (Sparse.find slots p).getD Slot.zero

/-- `Slot[p] <- v` of R11; a slot that becomes all zero is no longer listed. -/
def putSlot (slots : List (Nat × Slot)) (p : Nat) (v : Slot) : List (Nat × Slot) :=
  if v = Slot.zero then Sparse.erase slots p else Sparse.insert slots p v

/-- The canonical form of the slot store of a table of `2 ^ L` slots. -/
abbrev Slots.wf (L : Nat) (slots : List (Nat × Slot)) : Prop :=
  Sparse.sorted slots ∧ Sparse.below (2 ^ L) slots ∧ ∀ e ∈ slots, e.2 ≠ Slot.zero

/-- The number of occupied slots, those whose hash is not 0 (R43). -/
def occupied (slots : List (Nat × Slot)) : Nat := slots.countP fun e => e.2.hash != 0

/-- The most entries a table of `2 ^ L` slots holds without a resize, `mask - (mask >> 2)` (40_hash_table.md R146). -/
def threshold (L : Nat) : Nat := (2 ^ L - 1) - (2 ^ L - 1) / 4

/-! ### The source buffer (10_state.md R60, 20_memory.md R76-R81) -/

/-- The byte the source port sees at an offset: the last one made visible, or the byte that stood there before the host wrote
any (R60, R77). -/
def Source.seen (src : Source) (off : Nat) : Byte := (Sparse.find src.visible off).getD (Config.initialByte off)

/-- The byte the source port is bound to return at an offset: the one it sees, unless a newer one waits to be published or one is
written while the command runs (R80, R283). -/
def Source.settled (src : Source) (off : Nat) : Option Byte :=
  if off ∈ src.raced ∨ (Sparse.find src.pending off).isSome then none else some (src.seen off)

/-- `MemRead(SRC, off, 1)` of R76, as byte `k` of the stored copy or of the candidate at a visit of a probe; a byte that is not
settled is any value, anew at each read (R80 (a), R283, S4, U6; log 4). -/
def Source.byte (src : Source) (draw visit k : Nat) (stored : Bool) (off : Nat) : Byte :=
  (src.settled off).getD (Config.anySourceByte draw visit k stored)

/-- The host writes a byte of its memory (R60, R80, R283): visible at once on a coherent platform, else waiting to be
published; any value for the HT command in progress, if there is one (R80 (a)). -/
def Source.hostWrite (src : Source) (vis : SrcVisibility) (htRunning : Bool) (off : Nat) (b : Byte) : Source where
  visible := match vis with
    | .coherent => Sparse.insert src.visible off b
    | .explicit => src.visible
  pending := match vis with
    | .coherent => src.pending
    | .explicit => Sparse.insert src.pending off b
  raced := if htRunning then off :: src.raced else src.raced

/-- The waiting bytes at the offsets `lo ≤ off < hi`. -/
def Source.covered (src : Source) (lo hi : Nat) : List Host.Cell :=
  src.pending.filter fun c => decide (lo ≤ c.1) && decide (c.1 < hi)

/-- The host makes the bytes it wrote at the offsets `lo ≤ off < hi` visible (R90, R283 (2)); they change under the HT command in
progress, if there is one. DESIGN CHOICE (log 12), safe: R90 leaves open how much one publication covers; here it is any range of
offsets, so the waiting bytes become visible in any portions. -/
def Source.publish (src : Source) (htRunning : Bool) (lo hi : Nat) : Source where
  visible := Sparse.insertAll src.visible (src.covered lo hi)
  pending := src.pending.filter fun c => !(decide (lo ≤ c.1) && decide (c.1 < hi))
  raced := if htRunning then (src.covered lo hi).map (·.1) ++ src.raced else src.raced

/-- The HT command in progress has ended: a later command reads the new bytes (R80 (b)). -/
def Source.settle (src : Source) : Source := { src with raced := [] }

/-! ### The PC memories (10_state.md R53-R55) -/

/-- `MemRead(SYM, i, 4)`; an entry not written since reset holds its reset contents (R59, R271). -/
def State.symAt (s : State) (i : Nat) : Word := (Sparse.find s.pc.sym i).getD (Config.resetSym s.era i)

/-- `MemRead(SIZE, i, 1)`. -/
def State.sizeAt (s : State) (i : Nat) : Byte := (Sparse.find s.pc.size i).getD (Config.resetSize s.era i)

/-- `MemRead(CODE, i, 4)`. -/
def State.codeAt (s : State) (i : Nat) : Word := (Sparse.find s.pc.code i).getD (Config.resetCode s.era i)

/-! ### Faults (60_exceptions.md) -/

/-- FAULT_CODE of R233. -/
def FaultCode.bits : FaultCode → BitVec 4
  | .illegalCmd => 0x1#4
  | .lenTooShort => 0x2#4
  | .candRange => 0x3#4
  | .zeroHash => 0x4#4
  | .capacity => 0x5#4
  | .configRange => 0x6#4
  | .slotRange => 0x7#4
  | .numsymsRange => 0x8#4

/-- `raise Fault(code)` of R232: FAULTED and FAULT_CODE are set and BUSY falls; nothing else is written. It is the
one way a command reports a fault (R242). -/
def State.raise (s : State) (u : UnitId) (c : FaultCode) : State :=
  match u with
  | .ht => { s with ht := { s.ht with faulted := true, faultCode := c.bits, task := .idle } }
  | .pc => { s with pc := { s.pc with faulted := true, faultCode := c.bits, task := none } }

/-- The return from a fault (R236): FAULTED and FAULT_CODE become 0. -/
def State.clearFault (s : State) (u : UnitId) : State :=
  match u with
  | .ht => { s with ht := { s.ht with faulted := false, faultCode := 0 } }
  | .pc => { s with pc := { s.pc with faulted := false, faultCode := 0 } }

/-! ### Command acceptance (60_exceptions.md R240) -/

/-- HT_STATUS.BUSY (10_state.md R27). -/
def HtUnit.busy (h : HtUnit) : Bool := h.task != .idle

/-- PC_STATUS.BUSY (R48). -/
def PcUnit.busy (p : PcUnit) : Bool := p.task.isSome

/-- `U_STATUS.BUSY`. -/
def State.busy (s : State) : UnitId → Bool
  | .ht => s.ht.busy
  | .pc => s.pc.busy

/-- `U_STATUS.FAULTED`. -/
def State.faulted (s : State) : UnitId → Bool
  | .ht => s.ht.faulted
  | .pc => s.pc.faulted

/-- The units' recovery commands (R240): HT.INIT and PC.CLRFLT. -/
def isRecovery : Instr → Bool
  | .htInit => true
  | .htGet => false
  | .htCount => false
  | .htRdslot => false
  | .pcSort => false
  | .pcGencodes => false
  | .pcLimit => false
  | .pcClrflt => true

/-- Whether a command offered to its unit is accepted (R240): the unit is not busy, and not faulted unless the command
recovers it. -/
def State.admits (s : State) (i : Instr) : Bool :=
  !s.busy i.unit && (!s.faulted i.unit || isRecovery i)

/-- A command offered to its unit: performed if the unit admits it, else discarded with every piece of state unchanged (R240). -/
def State.perform (s : State) (i : Instr) (body : State → StepResult) : StepResult :=
  if s.admits i then body s else .next s

/-- An illegal word offered to a unit (R106, R240): it faults ILLEGAL_CMD, unless the unit is busy or faulted. -/
def State.offerIllegal (s : State) (u : UnitId) : State :=
  if s.busy u || s.faulted u then s else s.raise u .illegalCmd

/-- `finish(r)` of 41_prefix_code.md R182. -/
def State.finish (s : State) (r : Word) : State := { s with pc := { s.pc with result := r } }

end Sys2Proof.Machine
end

