-- ==== Sys2Proof/Machine/Flags.lean ====
section
/-! DEFINITION. The status bits and the words the host reads them in (10_state.md R26, R48, R56), and the other registers whose
fields are packed into one word (R30, R31, R38, R42, R52). -/

namespace Sys2Proof.Machine

/-- HT_STATUS (R26): BUSY bit 0, FAULTED bit 1, EXISTED bit 2, FAULT_CODE bits [11:8]. -/
def HtUnit.statusWord (h : HtUnit) : Word :=
  0#20 ++ h.faultCode ++ 0#5 ++ BitVec.ofBool h.existed ++ BitVec.ofBool h.faulted ++ BitVec.ofBool h.busy

/-- PC_STATUS (R48): BUSY bit 0, FAULTED bit 1, FAULT_CODE bits [11:8]. -/
def PcUnit.statusWord (p : PcUnit) : Word :=
  0#20 ++ p.faultCode ++ 0#6 ++ BitVec.ofBool p.faulted ++ BitVec.ofBool p.busy

/-- HT_CONFIG (R30, R31): INIT_LOGLEN bits [5:0], ZH_POLICY bit 8. -/
def HtUnit.configWord (h : HtUnit) : Word :=
  0#23 ++ BitVec.ofBool h.zhPolicy ++ 0#2 ++ h.initLoglen

/-- A host write of HT_CONFIG stores its two fields (R24, R30, R31). -/
def HtUnit.writeConfig (h : HtUnit) (v : Word) : HtUnit :=
  { h with initLoglen := v.extractLsb' 0 6, zhPolicy := v.getLsbD 8 }

/-- HT_GEOM (R38): LOGLEN bits [5:0], HSHIFT bits [13:8]. -/
def HtUnit.geomWord (h : HtUnit) : Word :=
  0#18 ++ BitVec.ofNat 6 (32 - h.loglen) ++ 0#2 ++ BitVec.ofNat 6 h.loglen

/-- HT_PARAM (R42): MAX_LOGLEN bits [5:0], MIN_LEN bits [15:8]. -/
def htParamWord (P : Params) : Word :=
  0#16 ++ BitVec.ofNat 8 Config.minLen ++ 0#2 ++ BitVec.ofNat 6 P.maxLoglen

/-- PC_PARAM (R52): GEN_MAX_LEN bits [5:0], MAX_SYMS bits [26:16]. -/
def pcParamWord : Word :=
  0#5 ++ BitVec.ofNat 11 Config.maxSyms ++ 0#10 ++ BitVec.ofNat 6 Config.genMaxLen

/-- EXISTED as HT.GET writes it, with its other result (40_hash_table.md R151). -/
def HtUnit.writeGetResult (h : HtUnit) (existed : Bool) (off : Word) : HtUnit :=
  { h with existed := existed, resOff := off }

end Sys2Proof.Machine
end

