-- ==== Sys2Proof/Machine/Operands.lean ====
section
/-! DEFINITION. The operands of the commands (30_encoding.md R102): every operand is the current value of an argument
register or of a memory, unsigned, at its full width. -/

namespace Sys2Proof.Machine

/-- HT.INIT's operand: INIT_LOGLEN, zero-extended (40_hash_table.md R130). -/
def HtUnit.initOperand (h : HtUnit) : Nat := h.initLoglen.toNat

/-- HT.GET's candidate as the entry its probe places (R135): hash, offset and length. -/
def HtUnit.candidate (h : HtUnit) : Slot := { hash := h.hash, offset := h.candOff, len := h.len }

/-- HT.GET's check R136 (a) fails: the candidate is shorter than HT_MIN_LEN. -/
def HtUnit.lenTooShort (h : HtUnit) : Bool := h.len.toNat < Config.minLen

/-- HT.GET's check R136 (b) fails, on unbounded numbers (20_memory.md R81). -/
def HtUnit.candOutOfRange (h : HtUnit) : Bool := h.srcLen.toNat < h.candOff.toNat + h.len.toNat

/-- HT.GET's check R137 fails: a zero hash under ZH_POLICY 0. -/
def HtUnit.zeroHashRefused (h : HtUnit) : Bool := h.hash = 0 && !h.zhPolicy

/-- HT.RDSLOT's operand: HT_SLOT_IDX (R158). -/
def HtUnit.slotOperand (h : HtUnit) : Nat := h.slotIdx.toNat

/-- `N` of 41_prefix_code.md: PC_NUMSYMS as a full 32-bit value. -/
def PcUnit.symbolCount (p : PcUnit) : Nat := p.numsyms.toNat

/-- `M` of 41_prefix_code.md: PC_MAXLEN as a full 32-bit value. -/
def PcUnit.maxCodeSize (p : PcUnit) : Nat := p.maxlen.toNat

/-- `R` of R185: SYM[0..N-1]. -/
def State.symOperands (s : State) (N : Nat) : List Word := (List.range N).map s.symAt

/-- `U` of R191 and R200, each used symbol as (length, index), indexes rising: the symbols below `N` whose length is not 0
(R190). -/
def State.usedSymbols (s : State) (N : Nat) : List (Nat × Nat) :=
  ((List.range N).map fun i => ((s.sizeAt i).toNat, i)).filter fun x => x.1 != 0

end Sys2Proof.Machine
end

