-- ==== Sys2Proof/Machine/HashTable.lean ====
section
/-! DEFINITION. The HT unit's shared procedures and commands (40_hash_table.md). -/

namespace Sys2Proof.Machine

/-- `home(h) = h >> hshift` with `hshift = 32 - L` (R138). -/
def homeSlot (L : Nat) (hash : Word) : Nat := (hash >>> (32 - L)).toNat

/-- The displacement of an occupant of slot `p`, `(p - home) & mask` (R141; 90_conflicts.md C1 rejects the source's formula). -/
def displacement (L p : Nat) (hash : Word) : Nat := (p + 2 ^ L - homeSlot L hash) % 2 ^ L

/-- `(p + 1) & mask` (R139). -/
def nextSlot (L p : Nat) : Nat := (p + 1) % 2 ^ L

/-- `Match(o, c, n)` (R142): false if the stored copy would run past HT_SRC_LEN, else whether the `n` bytes are equal. -/
def State.bytesMatch (s : State) (draw visit : Nat) (o c n : Word) : Bool :=
  if s.ht.srcLen.toNat < o.toNat + n.toNat then false
  else (List.range n.toNat).all fun k =>
    s.src.byte draw visit k true (o.toNat + k) == s.src.byte draw visit k false (c.toNat + k)

/-- What a probe that ends leaves and returns (R139). -/
structure Probed where
  slots : List (Nat × Slot)
  existed : Bool
  offset : Word
  deriving DecidableEq, Repr

/-- The loop of `Probe` (R139-R145) with the temporaries of R140. `hit visit t` says whether the candidate matches the occupant
`t`. `fuel` bounds the visits; R153: a probe visits at most `2 ^ L` slots. -/
def probeLoop (L : Nat) (hit : Nat → Slot → Bool) (e : Slot) :
    (fuel visit : Nat) → (slots : List (Nat × Slot)) → (p dist : Nat) → (cur : Slot) → (cand : Bool) → Option Probed
  | 0, _, _, _, _, _, _ => none
  | fuel + 1, visit, slots, p, dist, cur, cand =>
    let t := slotAt slots p
    if t.hash = 0 then some { slots := putSlot slots p cur, existed := false, offset := e.offset }
    else if cand && t.hash == e.hash && hit visit t then some { slots := slots, existed := true, offset := t.offset }
    else if displacement L p t.hash < dist then
      probeLoop L hit e fuel (visit + 1) (putSlot slots p cur) (nextSlot L p) (displacement L p t.hash + 1) t false
    else probeLoop L hit e fuel (visit + 1) slots (nextSlot L p) (dist + 1) cur cand

/-- `Probe(e, cand)` (R139). -/
def probe (L : Nat) (hit : Nat → Slot → Bool) (slots : List (Nat × Slot)) (e : Slot) (cand : Bool) : Option Probed :=
  probeLoop L hit e (2 ^ L) 0 slots (homeSlot L e.hash) 0 e cand

/-- `Place(e)` (R149): no comparison, the result ignored. -/
def place (L : Nat) (slots : List (Nat × Slot)) (e : Slot) : Option (List (Nat × Slot)) :=
  (probe L (fun _ _ => false) slots e false).map (·.slots)

/-- The second loop of `Resize` (R147): the entries of the old table with a hash that is not 0, in the order listed, are placed. -/
def reinsert (L : Nat) : (old slots : List (Nat × Slot)) → Option (List (Nat × Slot))
  | [], slots => some slots
  | (_, e) :: old, slots =>
    if e.hash = 0 then reinsert L old slots
    else (place L slots e).bind fun slots' => reinsert L old slots'

/-- `Resize` (R147) of a table of `2 ^ L` slots: the slots of the table of `2 ^ (L + 1)`. The old slots are listed in ascending index
order (D14). -/
def resize (L : Nat) (slots : List (Nat × Slot)) : Option (List (Nat × Slot)) := reinsert (L + 1) slots []

/-- The probe of HT.GET (R135, R139). -/
def State.probeCandidate (s : State) : Option Probed :=
  probe s.ht.loglen (fun visit t => s.bytesMatch s.freeCount visit t.offset s.ht.candOff s.ht.len) s.ht.slots s.ht.candidate true

/-- The keycount step of HT.GET after an insertion (R146-R148). -/
def State.countInsertion (s : State) : StepResult :=
  let s' := { s with ht := { s.ht with keycount := s.ht.keycount + 1 } }
  if threshold s.ht.loglen < s'.ht.keycount.toNat then
    if s.ht.loglen = s.params.maxLoglen then .next (s'.raise .ht .capacity)
    else
      match resize s.ht.loglen s.ht.slots with
      | none => .fault .probeStuck
      | some slots => .next { s' with ht := { s'.ht with loglen := s.ht.loglen + 1, slots := slots } }
  else .next s'

/-- HT.GET after its probe (R151, R146): the results are written, then an insertion is counted. The free values drawn by the
probe are used up (log 8). -/
def State.finishGet (s : State) (r : Probed) : StepResult :=
  let s' := { s with
    ht := { s.ht.writeGetResult r.existed r.offset with slots := r.slots }
    freeCount := s.freeCount + 1 }
  if r.existed then .next s' else s'.countInsertion

/-- The empty table HT.INIT makes (R130, R133). -/
def HtUnit.initTable (h : HtUnit) (L : Nat) : HtUnit :=
  { h with
    loglen := L, slots := [], keycount := 0, existed := false, resOff := 0, resCount := 0,
    slotHash := 0, slotOff := 0, slotLen := 0 }

/-- HT.INIT (R130, R131, R133, R134). -/
def execHtInit (s : State) : StepResult :=
  s.perform .htInit fun s =>
    if s.ht.initOperand < 1 ∨ s.params.maxLoglen < s.ht.initOperand then .next (s.raise .ht .configRange)
    else .next (State.clearFault { s with ht := s.ht.initTable s.ht.initOperand } .ht)

/-- HT.GET (R135-R154), its checks in the order of 60_exceptions.md R238. -/
def execHtGet (s : State) : StepResult :=
  s.perform .htGet fun s =>
    if s.ht.lenTooShort then .next (s.raise .ht .lenTooShort)
    else if s.ht.candOutOfRange then .next (s.raise .ht .candRange)
    else if s.ht.zeroHashRefused then .next (s.raise .ht .zeroHash)
    else
      match s.probeCandidate with
      | none => .fault .probeStuck
      | some r => s.finishGet r

/-- HT.COUNT (R155): the number of slots whose hash is not 0. -/
def execHtCount (s : State) : StepResult :=
  s.perform .htCount fun s =>
    .next { s with ht := { s.ht with resCount := BitVec.ofNat 32 (occupied s.ht.slots) } }

/-- HT.RDSLOT (R158, R159). -/
def execHtRdslot (s : State) : StepResult :=
  s.perform .htRdslot fun s =>
    if 2 ^ s.ht.loglen ≤ s.ht.slotOperand then .next (s.raise .ht .slotRange)
    else
      let t := slotAt s.ht.slots s.ht.slotOperand
      .next { s with ht := { s.ht with slotHash := t.hash, slotOff := t.offset, slotLen := t.len } }

end Sys2Proof.Machine
end

