-- ==== Sys2Proof/Machine/PrefixCode.lean ====
section
/-! DEFINITION. The PC unit's shared procedures and commands (41_prefix_code.md). -/

namespace Sys2Proof.Machine

/-- A list sorted by `le`, by insertion. -/
def insertBy {α : Type} (le : α → α → Bool) (x : α) : List α → List α
  | [] => [x]
  | y :: ys => if le x y then x :: y :: ys else y :: insertBy le x ys

/-- The list sorted into non-decreasing order of `le`. -/
def sortBy {α : Type} (le : α → α → Bool) : List α → List α
  | [] => []
  | x :: xs => insertBy le x (sortBy le xs)

/-- `freq` of a symbol frequency record, bits [31:16] (10_state.md R53). -/
def freqField (r : Word) : BitVec 16 := r.extractLsb' 16 16

/-- `sym` of a symbol frequency record, bits [15:0] (R53). -/
def symField (r : Word) : BitVec 16 := r.extractLsb' 0 16

/-- The order of the sort key of R186: `freq` first, then `sym`, both ascending. -/
def recordLe (a b : Word) : Bool :=
  (freqField a).toNat < (freqField b).toNat
    || (freqField a).toNat = (freqField b).toNat && (symField a).toNat ≤ (symField b).toNat

/-- The canonical order of R193 and R207 on used symbols as (length, index): length first, then index. -/
def symbolLe (a b : Nat × Nat) : Bool := a.1 < b.1 || a.1 = b.1 && a.2 ≤ b.2

/-- `sum 2^(B - l)`, the Kraft sum in units of `2^-B` (00_scope.md R13). -/
def kraft (B : Nat) (lens : List Nat) : Nat := (lens.map fun l => 2 ^ (B - l)).sum

/-- The loop of R194 over the used symbols in canonical order: the code of each, as (index, code). -/
def assignCodes : (code prev : Nat) → List (Nat × Nat) → List (Nat × Nat)
  | _, _, [] => []
  | code, prev, (len, i) :: rest =>
    (i, code <<< (len - prev)) :: assignCodes (code <<< (len - prev) + 1) len rest

/-- The codes of R191, as (index, code), from the used symbols. -/
def canonicalCodes (used : List (Nat × Nat)) : List (Nat × Nat) := assignCodes 0 0 (sortBy symbolLe used)

/-- `h[L]` for L in 0..M (R204): the used symbols whose length, clamped to M, is L. `h[0]` is 0 and is not used. -/
def clampedHistogram (M : Nat) (lens : List Nat) : List Nat :=
  (List.range (M + 1)).map fun L => lens.countP fun l => min l M = L

/-- `total` of R200: the Kraft sum of a histogram in units of `2^-M`. -/
def histogramTotal (M : Nat) (h : List Nat) : Nat :=
  ((List.range M).map fun k => h.getD (k + 1) 0 * 2 ^ (M - (k + 1))).sum

/-- The largest L in 1..j with `h[L] > 0` (R205). -/
def longestUsed (h : List Nat) : Nat → Option Nat
  | 0 => none
  | j + 1 => if 0 < h.getD (j + 1) 0 then some (j + 1) else longestUsed h j

/-- One step of the loop of R205; none is a guard of R206. -/
def rebalanceStep (M : Nat) (h : List Nat) : Option (List Nat) :=
  if h.getD M 0 = 0 then none
  else
    let h' := h.set M (h.getD M 0 - 1)
    (longestUsed h' (M - 1)).map fun j =>
      let h'' := h'.set j (h'.getD j 0 - 1)
      h''.set (j + 1) (h''.getD (j + 1) 0 + 2)

/-- The loop of R205 while `total ≠ 2^M`; each step lowers `total` by 1, so `total - 2^M` steps suffice. None is a guard of R206. -/
def rebalance (M : Nat) : (fuel total : Nat) → (h : List Nat) → Option (List Nat)
  | 0, total, h => if total = 2 ^ M then some h else none
  | fuel + 1, total, h =>
    if total = 2 ^ M then some h
    else (rebalanceStep M h).bind fun h' => rebalance M fuel (total - 1) h'

/-- `newlen` of R200: the lengths of a histogram in ascending order. -/
def histogramLengths (M : Nat) (h : List Nat) : List Nat :=
  (List.range M).flatMap fun k => List.replicate (h.getD (k + 1) 0) (k + 1)

/-- The new lengths of the used symbols, as (index, length) (R200-R207); none is `finish(0)`. -/
def limitLengths (M : Nat) (used : List (Nat × Nat)) : Option (List (Nat × Nat)) :=
  let lens := used.map (·.1)
  if M < 1 ∨ Config.genMaxLen < M then none
  else if kraft 255 lens ≠ 2 ^ 255 then none
  else if 2 ^ M < used.length then none
  else
    let h := clampedHistogram M lens
    let total := histogramTotal M h
    (rebalance M (total - 2 ^ M) total h).map fun h' =>
      ((sortBy symbolLe used).map (·.2)).zip (histogramLengths M h')

/-- The check every computing command begins with (R181). -/
def State.withSymbolCount (s : State) (body : Nat → StepResult) : StepResult :=
  if Config.maxSyms < s.pc.symbolCount then .next (s.raise .pc .numsymsRange) else body s.pc.symbolCount

/-- PC.SORT (R185-R187). -/
def execPcSort (s : State) : StepResult :=
  s.perform .pcSort fun s => s.withSymbolCount fun N =>
    let sorted := sortBy recordLe (s.symOperands N)
    let s' := { s with pc := { s.pc with sym := Sparse.insertAll s.pc.sym ((List.range N).zip sorted) } }
    .next (s'.finish 1)

/-- PC.GENCODES (R190-R197): its failures are those of R192, in order. -/
def execPcGencodes (s : State) : StepResult :=
  s.perform .pcGencodes fun s => s.withSymbolCount fun N =>
    let used := s.usedSymbols N
    let lens := used.map (·.1)
    if lens.any fun l => Config.genMaxLen < l then .next (s.finish 0)
    else if 2 ^ Config.genMaxLen < kraft Config.genMaxLen lens then .next (s.finish 0)
    else
      let codes := canonicalCodes used
      let out := (List.range N).map fun i => (i, BitVec.ofNat 32 ((Sparse.find codes i).getD 0))
      let s' := { s with pc := { s.pc with code := Sparse.insertAll s.pc.code out } }
      .next (s'.finish 1)

/-- PC.LIMIT (R200-R209). -/
def execPcLimit (s : State) : StepResult :=
  s.perform .pcLimit fun s => s.withSymbolCount fun N =>
    match limitLengths s.pc.maxCodeSize (s.usedSymbols N) with
    | none => .next (s.finish 0)
    | some news =>
      let out := news.map fun x => (x.1, BitVec.ofNat 8 x.2)
      let s' := { s with pc := { s.pc with size := Sparse.insertAll s.pc.size out } }
      .next (s'.finish 1)

/-- PC.CLRFLT (R210). -/
def execPcClrflt (s : State) : StepResult :=
  s.perform .pcClrflt fun s => .next (s.clearFault .pc)

end Sys2Proof.Machine
end

