-- ==== Sys2Proof/Machine/Dispatch.lean ====
section
/-! DEFINITION. The meaning of each command: the command, as its word is written to its unit's command register
(60_exceptions.md R240). -/

namespace Sys2Proof.Machine

def exec (i : Instr) (s : State) : Host.Outcome State Fault Refusal :=
  match i with
  | .htInit => Sys2Proof.Machine.execHtInit s
  | .htGet => Sys2Proof.Machine.execHtGet s
  | .htCount => Sys2Proof.Machine.execHtCount s
  | .htRdslot => Sys2Proof.Machine.execHtRdslot s
  | .pcSort => Sys2Proof.Machine.execPcSort s
  | .pcGencodes => Sys2Proof.Machine.execPcGencodes s
  | .pcLimit => Sys2Proof.Machine.execPcLimit s
  | .pcClrflt => Sys2Proof.Machine.execPcClrflt s

end Sys2Proof.Machine
end

