-- ==== Sys2Proof/Machine/Registers.lean ====
section
/-! DEFINITION. The register map of 10_state.md R23: which register or window entry stands at an offset, what a host read of it
returns and what a host write of it stores (R24, 20_memory.md R72). -/

namespace Sys2Proof.Machine

/-- The registers of R23. -/
inductive Reg where
  | htCmd
  | htStatus
  | htConfig
  | htSrcLen
  | htHash
  | htCandOff
  | htLen
  | htResOff
  | htResCount
  | htGeom
  | htKeycount
  | htSlotIdx
  | htSlotHash
  | htSlotOff
  | htSlotLen
  | htParam
  | pcCmd
  | pcStatus
  | pcNumsyms
  | pcMaxlen
  | pcResult
  | pcParam
  deriving DecidableEq, Repr

/-- What stands at a mapped offset: a register or an entry of a window. -/
inductive Place where
  | reg (r : Reg)
  | sym (i : Nat)
  | size (i : Nat)
  | code (i : Nat)
  deriving DecidableEq, Repr

/-- The register rows of the table of R23. -/
def regOffsets : List (Nat × Reg) :=
  [(0x000, .htCmd), (0x004, .htStatus), (0x008, .htConfig), (0x00C, .htSrcLen), (0x010, .htHash), (0x014, .htCandOff),
   (0x018, .htLen), (0x01C, .htResOff), (0x020, .htResCount), (0x024, .htGeom), (0x028, .htKeycount),
   (0x02C, .htSlotIdx), (0x030, .htSlotHash), (0x034, .htSlotOff), (0x038, .htSlotLen), (0x03C, .htParam),
   (0x100, .pcCmd), (0x104, .pcStatus), (0x108, .pcNumsyms), (0x10C, .pcMaxlen), (0x110, .pcResult), (0x114, .pcParam)]

/-- What stands at an aligned offset; none where R23 says unmapped, and at or above 0x4000 (20_memory.md R75). -/
def placeAt (off : Nat) : Option Place :=
  match Sparse.find regOffsets off with
  | some r => some (.reg r)
  | none =>
    if off < 0x1000 then none
    else if off < 0x2000 then some (.sym ((off - 0x1000) / 4))
    else if off < 0x3000 then some (.size ((off - 0x2000) / 4))
    else if off < 0x4000 then some (.code ((off - 0x3000) / 4))
    else none

/-- The column 'unit' of R23. -/
def Reg.unit : Reg → UnitId
  | .htCmd | .htStatus | .htConfig | .htSrcLen | .htHash | .htCandOff | .htLen | .htResOff | .htResCount | .htGeom
  | .htKeycount | .htSlotIdx | .htSlotHash | .htSlotOff | .htSlotLen | .htParam => .ht
  | .pcCmd | .pcStatus | .pcNumsyms | .pcMaxlen | .pcResult | .pcParam => .pc

def Place.unit : Place → UnitId
  | .reg r => r.unit
  | .sym _ | .size _ | .code _ => .pc

/-- The two STATUS registers, whose reads are true while the unit is busy (20_memory.md R83 (b)). -/
def Place.isStatus : Place → Bool
  | .reg .htStatus | .reg .pcStatus => true
  | _ => false

/-- The command register at a place, named by its unit (R25, R47). -/
def Place.commandOf : Place → Option UnitId
  | .reg .htCmd => some .ht
  | .reg .pcCmd => some .pc
  | _ => none

/-- The value a register has for a host read (R24-R52). -/
def State.readReg (s : State) : Reg → Word
  | .htCmd => 0
  | .htStatus => s.ht.statusWord
  | .htConfig => s.ht.configWord
  | .htSrcLen => s.ht.srcLen
  | .htHash => s.ht.hash
  | .htCandOff => s.ht.candOff
  | .htLen => s.ht.len
  | .htResOff => s.ht.resOff
  | .htResCount => s.ht.resCount
  | .htGeom => s.ht.geomWord
  | .htKeycount => s.ht.keycount
  | .htSlotIdx => s.ht.slotIdx
  | .htSlotHash => s.ht.slotHash
  | .htSlotOff => s.ht.slotOff
  | .htSlotLen => s.ht.slotLen
  | .htParam => htParamWord s.params
  | .pcCmd => 0
  | .pcStatus => s.pc.statusWord
  | .pcNumsyms => s.pc.numsyms
  | .pcMaxlen => s.pc.maxlen
  | .pcResult => s.pc.result
  | .pcParam => pcParamWord

/-- The value a place has for a host read; a SIZE entry's bits [31:8] read as 0 (R54). -/
def State.readPlace (s : State) : Place → Word
  | .reg r => s.readReg r
  | .sym i => s.symAt i
  | .size i => (s.sizeAt i).setWidth 32
  | .code i => s.codeAt i

/-- A host write of a register that is no command register: RW registers store, RO registers discard (R24). -/
def State.writeReg (s : State) (v : Word) : Reg → State
  | .htConfig => { s with ht := s.ht.writeConfig v }
  | .htSrcLen => { s with ht := { s.ht with srcLen := v } }
  | .htHash => { s with ht := { s.ht with hash := v } }
  | .htCandOff => { s with ht := { s.ht with candOff := v } }
  | .htLen => { s with ht := { s.ht with len := v } }
  | .htSlotIdx => { s with ht := { s.ht with slotIdx := v } }
  | .pcNumsyms => { s with pc := { s.pc with numsyms := v } }
  | .pcMaxlen => { s with pc := { s.pc with maxlen := v } }
  | .htCmd | .htStatus | .htResOff | .htResCount | .htGeom | .htKeycount | .htSlotHash | .htSlotOff | .htSlotLen
  | .htParam | .pcCmd | .pcStatus | .pcResult | .pcParam => s

/-- A host write of a place that is no command register; of a SIZE word, bits [7:0] are stored (R54, R72). -/
def State.writePlace (s : State) (v : Word) : Place → State
  | .reg r => s.writeReg v r
  | .sym i => { s with pc := { s.pc with sym := Sparse.insert s.pc.sym i v } }
  | .size i => { s with pc := { s.pc with size := Sparse.insert s.pc.size i (v.extractLsb' 0 8) } }
  | .code i => { s with pc := { s.pc with code := Sparse.insert s.pc.code i v } }

end Sys2Proof.Machine
end

