-- ==== Sys2Proof/Machine/Bus.lean ====
section
/-! DEFINITION. The moves of the agents: host bus accesses (20_memory.md R72-R75, R83), commands offered to a unit
(60_exceptions.md R240), the engines, the host's source buffer (R60, R90), and reset (70_reset_and_hazards.md R270-R273). -/

namespace Sys2Proof.Machine

/-- What a host access reaches. -/
inductive Located where
  | place (p : Place)
  /-- nothing: the access gets a bus error -/
  | busError
  /-- nothing of the block: the address is below BASE -/
  | elsewhere
  deriving DecidableEq, Repr

/-- R73-R75: only an aligned 32-bit access to a mapped offset reaches a register or an entry. DESIGN CHOICE (log 14): R75 leaves to the
platform which offsets at or above 0x4000 it routes to the block; here it routes every one, so each gets the bus error. -/
def locate (P : Params) (width : AccessWidth) (addr : Nat) : Located :=
  if addr < P.base then .elsewhere
  else if width ≠ .w32 then .busError
  else if (addr - P.base) % 4 ≠ 0 then .busError
  else
    match placeAt (addr - P.base) with
    | some p => .place p
    | none => .busError

/-- The offset of a unit's command register (R23). -/
def cmdOffset : UnitId → Nat
  | .ht => 0x000
  | .pc => 0x100

/-- An accepted command that its engine performs later: BUSY rises (10_state.md R27). -/
def State.start (s : State) (u : UnitId) (w : Word) : State :=
  match u with
  | .ht => { s with ht := { s.ht with task := .running w } }
  | .pc => { s with pc := { s.pc with task := some w } }

/-- A word written to a unit's command register (R240), performed at once or, if the unit admits it, later (log 2). -/
def State.offer (s : State) (u : UnitId) (w : Word) (timing : Timing) : StepResult :=
  match decode u w with
  | .illegal _ => .next (s.offerIllegal u)
  | .legal i =>
    match timing with
    | .now => exec i s
    | .later => .next (if s.admits i then s.start u w else s)

/-- An access that gets a bus error (R73-R75): no effect, no value, and the host goes on with the error response. -/
def State.busError (s : State) : State := { s with response := .error }

/-- `HostRead(off)` (R72). A read of a busy unit's register other than STATUS returns any value (R83 (c)). -/
def State.hostRead (s : State) (width : AccessWidth) (addr : Nat) : StepResult :=
  match locate s.params width addr with
  | .elsewhere => .fault .notRouted
  | .busError => .next s.busError
  | .place p =>
    if s.busy p.unit && !p.isStatus then
      .next { s with response := .data (Config.busyRead s.freeCount), freeCount := s.freeCount + 1 }
    else .next { s with response := .data (s.readPlace p) }

/-- `HostWrite(off, v)` (R72). A write to a busy unit is discarded without an error (R83 (a)). -/
def State.hostWrite (s : State) (width : AccessWidth) (addr : Nat) (v : Word) (timing : Timing) : StepResult :=
  match locate s.params width addr with
  | .elsewhere => .fault .notRouted
  | .busError => .next s.busError
  | .place p =>
    match p.commandOf with
    | some u => State.offer { s with response := .done } u v timing
    | none =>
      if s.busy p.unit then .next { s with response := .done }
      else .next (State.writePlace { s with response := .done } v p)

/-- Whether an HT command is in progress, so that a source byte written now races it (R80 (a)). -/
def HtUnit.running (h : HtUnit) : Bool :=
  match h.task with
  | .running _ => true
  | .idle | .clearing => false

/-- The HT engine: it performs the accepted command and is then idle, or ends the reset clear (R27, R272). -/
def State.htEngine (s : State) : StepResult :=
  match s.ht.task with
  | .idle => .next s
  | .clearing => .next { s with ht := { s.ht with task := .idle } }
  | .running w =>
    match State.offer { s with ht := { s.ht with task := .idle } } .ht w .now with
    | .next t => .next { t with src := t.src.settle }
    | .fault f => .fault f
    | .refused r => .refused r

/-- The PC engine: it performs the accepted command and is then idle (R48). -/
def State.pcEngine (s : State) : StepResult :=
  match s.pc.task with
  | none => .next s
  | some w => State.offer { s with pc := { s.pc with task := none } } .pc w .now

/-- Reset (R270): both units take their reset values, the command in progress is abandoned, the PC memories hold new unspecified
values (R271), host memory keeps its bytes. With `later` the reset clear is still running (R272). -/
def State.doReset (s : State) (timing : Timing) : State :=
  { s with
    ht := { HtUnit.reset s.params with
      task := match timing with
        | .now => .idle
        | .later => .clearing }
    pc := PcUnit.reset
    src := s.src.settle
    era := s.era + 1 }

/-- One move of one agent. -/
def State.move (s : State) : Event → StepResult
  | .read width addr => s.hostRead width addr
  | .write width addr v timing => s.hostWrite width addr v timing
  | .srcWrite off b =>
    .next { s with src := s.src.hostWrite s.params.srcVisibility s.ht.running off.toNat b }
  | .publish lo hi => .next { s with src := s.src.publish s.ht.running lo hi }
  | .engine .ht => s.htEngine
  | .engine .pc => s.pcEngine
  | .reset timing => .next (s.doReset timing)

/-- With no move scheduled, a busy engine ends its command or clear (every duration is finite, 70_reset_and_hazards.md R290), the HT
engine first (R251: the order does not matter); idle units keep all of their state (60_exceptions.md R249). -/
def State.drain (s : State) : StepResult :=
  if s.ht.busy then s.htEngine else s.pcEngine

/-- The host write that offers the word of an opcode-table row to its unit's command register (R111). A row that is no 32-bit word
has no such write: it stands as an access of another width, which gets a bus error (R73, R100). -/
def rowMove (P : Params) (nbits w : Nat) : Event :=
  match tableWord nbits w with
  | some v => .write .w32 (P.base + cmdOffset (unitOfWord v)) v .now
  | none => .write .w64 P.base 0 .now

end Sys2Proof.Machine
end

