-- ==== Sys2Proof/Machine/Step.lean ====
section
/-! DEFINITION. One step: the next move of the schedule (00_scope.md R15: a run is a sequence of host accesses interleaved with the
command transitions of the two units). -/

namespace Sys2Proof.Machine

/-- The next move of the schedule is made; with none left the engines finish and the block then waits. -/
def step (s : State) : Host.Outcome State Fault Refusal :=
  match s.schedule with
  | [] => s.drain
  | e :: rest => State.move { s with schedule := rest } e

/-- The state with the host about to write the word of an opcode-table row to its unit's command register (log 1). -/
def State.withFetchWord (s : State) (nbits w : Nat) : State :=
  { s with schedule := rowMove s.params nbits w :: s.schedule }

end Sys2Proof.Machine
end

