-- ==== Sys2Proof/Safety.lean ====
section
/-! DEFINITION. What claims are stated in: the invariant of the state (10_state.md R44, R45, R28, R51), the ordering of the slot
store (R46), and the host's duties (60_exceptions.md R250). -/

namespace Sys2Proof.Machine

/-- A result with its next state changed by `f`. -/
def mapNext (f : State → State) : StepResult → StepResult
  | .next t => .next (f t)
  | .fault r => .fault r
  | .refused r => .refused r

/-- The HT unit in any state a run reaches. -/
structure HtUnit.Inv (P : Params) (h : HtUnit) : Prop where
  /-- R9, R20: `loglen` is in 1..HT_MAX_LOGLEN -/
  loglen_pos : 1 ≤ h.loglen
  loglen_le : h.loglen ≤ P.maxLoglen
  /-- the slot store is canonical: indexes rising and below the capacity, no all-zero slot listed -/
  slots_wf : Slots.wf h.loglen h.slots
  /-- 40_hash_table.md R153: at most `keycount` slots are occupied, whatever ZH_POLICY was -/
  occupied_le : occupied h.slots ≤ h.keycount.toNat
  /-- R45: an unfaulted unit's keycount is at most 3/4 of the capacity -/
  keycount_le : h.faulted = false → h.keycount.toNat ≤ threshold h.loglen
  /-- R28: FAULT_CODE is 0 when FAULTED is 0; R233: else it is the code of an HT fault -/
  code_of_unfaulted : h.faulted = false → h.faultCode = 0
  code_of_faulted : h.faulted = true → 1 ≤ h.faultCode.toNat ∧ h.faultCode.toNat ≤ 7
  /-- R240: only a legal command that the unit admitted is in progress -/
  task_legal : ∀ w, h.task = .running w → ∃ i, decode .ht w = .legal i ∧ (h.faulted = true → isRecovery i = true)

/-- The PC unit in any state a run reaches. -/
structure PcUnit.Inv (p : PcUnit) : Prop where
  /-- R51: PC_RESULT is 0 or 1 -/
  result_bit : p.result = 0 ∨ p.result = 1
  /-- R53-R55: the memories are canonical and have 1024 entries -/
  sym_wf : Sparse.sorted p.sym ∧ Sparse.below Config.maxSyms p.sym
  size_wf : Sparse.sorted p.size ∧ Sparse.below Config.maxSyms p.size
  code_wf : Sparse.sorted p.code ∧ Sparse.below Config.maxSyms p.code
  /-- R48, R233 -/
  code_of_unfaulted : p.faulted = false → p.faultCode = 0
  code_of_faulted : p.faulted = true → p.faultCode = 1#4 ∨ p.faultCode = 8#4
  task_legal : ∀ w, p.task = some w → ∃ i, decode .pc w = .legal i ∧ (p.faulted = true → isRecovery i = true)

/-- The invariant that every step keeps. -/
structure State.Inv (s : State) : Prop where
  params_wf : s.params.wellFormed = true
  ht_inv : s.ht.Inv s.params
  pc_inv : s.pc.Inv
  visible_wf : Memory.wf s.src.visible
  pending_wf : Memory.wf s.src.pending
  /-- 20_memory.md R80 (a): a source byte is raced only while an HT command is in progress -/
  raced_running : s.ht.running = false → s.src.raced = []

/-- The slot at index `i` is occupied (10_state.md R43). -/
def occupiedAt (slots : List (Nat × Slot)) (i : Nat) : Prop := (slotAt slots i).hash ≠ 0

/-- The robin-hood ordering of a table of `2 ^ L` slots: on the way from an occupant's home slot to the occupant every slot is
occupied (10_state.md R46 (c)), and by an entry at least as far from its own home as the way has come (40_hash_table.md R144). -/
def robinHood (L : Nat) (slots : List (Nat × Slot)) : Prop :=
  ∀ i < 2 ^ L, occupiedAt slots i →
    ∀ k ≤ displacement L i (slotAt slots i).hash,
      occupiedAt slots ((homeSlot L (slotAt slots i).hash + k) % 2 ^ L) ∧
      k ≤ displacement L ((homeSlot L (slotAt slots i).hash + k) % 2 ^ L)
            (slotAt slots ((homeSlot L (slotAt slots i).hash + k) % 2 ^ L)).hash

/-- The slot store as it is when no zero hash has been inserted (R46 (a) and (c), with R144). -/
structure HtUnit.Ordered (h : HtUnit) : Prop where
  robin_hood : robinHood h.loglen h.slots
  count_exact : occupied h.slots = h.keycount.toNat

/-- The entry `e` is stored in the table (R43). -/
def HtUnit.stores (h : HtUnit) (e : Slot) : Prop := ∃ i < 2 ^ h.loglen, slotAt h.slots i = e

/-- How many slots hold exactly the entry `e`. -/
def HtUnit.copies (h : HtUnit) (e : Slot) : Nat := (List.range (2 ^ h.loglen)).countP fun i => slotAt h.slots i = e

/-- The contract of HT.GET is met (40_hash_table.md R136, R137). -/
structure HtUnit.GetAllowed (h : HtUnit) : Prop where
  long_enough : 4 ≤ h.len.toNat
  in_range : h.candOff.toNat + h.len.toNat ≤ h.srcLen.toNat
  hash_ok : h.hash ≠ 0 ∨ h.zhPolicy = true

/-- A unit that is idle and not faulted: it admits every command of its own (60_exceptions.md R240). -/
structure State.Ready (s : State) (u : UnitId) : Prop where
  not_busy : s.busy u = false
  not_faulted : s.faulted u = false

/-- The stored copy at offset `o` has the candidate's bytes, all of them settled, within HT_SRC_LEN (40_hash_table.md R142). -/
def State.storedCopy (s : State) (o : Word) : Prop :=
  o.toNat + s.ht.len.toNat ≤ s.ht.srcLen.toNat ∧
    ∀ k < s.ht.len.toNat, ∃ b, s.src.settled (o.toNat + k) = some b ∧ s.src.settled (s.ht.candOff.toNat + k) = some b

/-- The length of symbol `i`, as a number (41_prefix_code.md R190). -/
def State.lengthOf (s : State) (i : Nat) : Nat := (s.sizeAt i).toNat

/-- Symbol `i` is used by a command over `N` symbols (R190). -/
def State.used (s : State) (N i : Nat) : Prop := i < N ∧ s.lengthOf i ≠ 0

/-- Symbol `i` comes before symbol `j` in canonical order (R193). -/
def State.comesBefore (s : State) (i j : Nat) : Prop :=
  s.lengthOf i < s.lengthOf j ∨ s.lengthOf i = s.lengthOf j ∧ i < j

/-- The lengths of the used symbols, with multiplicity. -/
def State.usedLengths (s : State) (N : Nat) : List Nat := (s.usedSymbols N).map (·.1)

/-- The lengths are a table PC.GENCODES can code (R192): none above 32, and not over-subscribed. -/
structure State.Codable (s : State) (N : Nat) : Prop where
  short_enough : ∀ i < N, s.lengthOf i ≤ 32
  kraft_le : kraft 32 (s.usedLengths N) ≤ 2 ^ 32

/-- The lengths are a table PC.LIMIT can limit to `M` bits (R201-R203): complete, of at most `2 ^ M` symbols. -/
structure State.Limitable (s : State) (N M : Nat) : Prop where
  limit_pos : 1 ≤ M
  limit_le : M ≤ 32
  complete : kraft 255 (s.usedLengths N) = 2 ^ 255
  few_enough : (s.usedLengths N).length ≤ 2 ^ M

/-- Every source byte the HT unit may read has one value: the host made it visible and does not write it while a command runs
(60_exceptions.md R250 H6, H7). -/
def State.sourceSettled (s : State) : Prop := ∀ off < s.ht.srcLen.toNat, (s.src.settled off).isSome = true

/-! ### The host's duties (R250), which a claim may take as premises -/

/-- The HT command that a host write offers and the unit accepts, whether it is performed at once or later (R240). -/
def State.acceptsHt (s : State) : Event → Option Instr
  | .write .w32 addr v _ =>
    if addr = s.params.base + cmdOffset .ht then
      match decode .ht v with
      | .legal i => if s.admits i then some i else none
      | .illegal _ => none
    else none
  | _ => none

/-- The watermark of R79, carried over one move: the largest HT_SRC_LEN of an HT command since the last HT.INIT. HT.INIT starts it
anew at 0: it reads no HT_SRC_LEN (30_encoding.md R102) and the block keeps no offset alive after it (70_reset_and_hazards.md R275).
DEDUCED (log 13): an HT.INIT that faults starts nothing anew, since its table stays (40_hash_table.md R131); a reset starts it anew as
HT.INIT does (R273, R275); a command counts from the write that offers it, and until it has ended no write changes HT_SRC_LEN. -/
def State.usedAfter (s : State) (used : Nat) (e : Event) : Nat :=
  match e with
  | .reset _ => 0
  | .read _ _ | .srcWrite _ _ | .publish _ _ | .engine _ => used
  | .write _ _ _ _ =>
    match s.acceptsHt e with
    | some .htInit => if 1 ≤ s.ht.initOperand ∧ s.ht.initOperand ≤ s.params.maxLoglen then 0 else used
    | some .htGet | some .htCount | some .htRdslot => max used s.ht.srcLen.toNat
    | some .pcSort | some .pcGencodes | some .pcLimit | some .pcClrflt | none => used

/-- The accepted command that an HT task holds. -/
def HtTask.command : HtTask → Option Instr
  | .idle | .clearing => none
  | .running w =>
    match decode .ht w with
    | .legal i => some i
    | .illegal _ => none

/-- The HT command that the next step performs: one that the host's write performs at once, or the accepted one that the engine ends
by its move or with no move scheduled. -/
def State.performsHt (s : State) : Option Instr :=
  match s.schedule with
  | [] => s.ht.task.command
  | .engine .ht :: _ => s.ht.task.command
  | .write width addr v .now :: _ => s.acceptsHt (.write width addr v .now)
  | .write _ _ _ .later :: _ | .read _ _ :: _ | .srcWrite _ _ :: _ | .publish _ _ :: _ | .engine .pc :: _ | .reset _ :: _ => none

/-- H5: the host polls BUSY to 0 before it writes to a unit. -/
def State.keepsH5 (s : State) : Event → Prop
  | .write width addr _ _ => ∀ p, locate s.params width addr = .place p → s.busy p.unit = false
  | _ => True

/-- H6: what the host wrote below HT_SRC_LEN is visible before it writes HT.GET. What it appends at or above HT_SRC_LEN (H4), before or
after that write, HT.GET does not read (R76; DEDUCED, log 13). -/
def State.keepsH6 (s : State) (e : Event) : Prop :=
  s.acceptsHt e = some .htGet → ∀ c ∈ s.src.pending, s.ht.srcLen.toNat ≤ c.1

/-- The bound of the liberty H4: the host appends source bytes at or above HT_SRC_LEN. -/
def State.keepsH4 (s : State) : Event → Prop
  | .srcWrite off _ => s.ht.srcLen.toNat ≤ off.toNat
  | _ => True

/-- H7: the host writes no source byte below the watermark `used`, any HT_SRC_LEN value used since the last HT.INIT. -/
def State.keepsH7 (used : Nat) : Event → Prop
  | .srcWrite off _ => used ≤ off.toNat
  | _ => True

/-- H9: when it writes HT.GET, the host gives a hash that is not 0, or has chosen REPLICATE. -/
def State.keepsH9 (s : State) (e : Event) : Prop :=
  s.acceptsHt e = some .htGet → s.ht.hash ≠ 0 ∨ s.ht.zhPolicy = true

/-- A move of a host that keeps within H4 and keeps the duties H5, H6, H7 and H9; H8 (one master) holds of every schedule and H10 binds the use of the
results. -/
def State.keepsDuties (s : State) (used : Nat) (e : Event) : Prop :=
  s.keepsH4 e ∧ s.keepsH5 e ∧ s.keepsH6 e ∧ State.keepsH7 used e ∧ s.keepsH9 e

end Sys2Proof.Machine
end

