-- ==== Sys2Proof/Certificates/Slice0/Obligations.lean ====
section
/-! DEFINITION. The statements about the block for the provers, from the numbered rules of spec/. -/

open Sys2Proof Sys2Proof.Machine

/-! ### Encoding (30_encoding.md) -/

/-- R103, R104, R105: a word is a command of a unit exactly if it is that command's full word and the command is the unit's. -/
def Obligations.DecodeReadsExactlyTheCommandWords : Prop :=
  ∀ (u : UnitId) (w : Word) (i : Instr), decode u w = .legal i ↔ i.unit = u ∧ w = encode i

/-- R100, R111: four little-endian bytes are a command exactly if they are that command's bytes. -/
def Obligations.DecodeOfBytesInvertsEncode : Prop :=
  ∀ (u : UnitId) (bs : List Byte) (i : Instr), decodeBytes u bs = .legal i ↔ i.unit = u ∧ bs = encodeBytes i

/-- R103 word by word, an illegal word of each kind of R106, and the bytes of R111. -/
def Obligations.WordsDecodeAsTheOpcodeMapSays : Prop :=
  decode .ht 0x00000001#32 = .legal .htInit ∧ decode .ht 0x00000002#32 = .legal .htGet ∧
  decode .ht 0x00000003#32 = .legal .htCount ∧ decode .ht 0x00000004#32 = .legal .htRdslot ∧
  decode .pc 0x00000011#32 = .legal .pcSort ∧ decode .pc 0x00000012#32 = .legal .pcGencodes ∧
  decode .pc 0x00000013#32 = .legal .pcLimit ∧ decode .pc 0x00000014#32 = .legal .pcClrflt ∧
  decode .ht 0x00000000#32 = .illegal .unassigned ∧ decode .ht 0x00000011#32 = .illegal .otherUnit ∧
  decode .pc 0x00000001#32 = .illegal .otherUnit ∧ decode .ht 0x00000102#32 = .illegal .reservedBits ∧
  decodeBytes .ht [0x02#8, 0x00#8, 0x00#8, 0x00#8] = .legal .htGet

/-! ### Steps and command acceptance (60_exceptions.md R240) -/

/-- R240, R25, R47: a step that writes a legal word to its unit's command register, the command being performed at once, is `exec` of
the decoded command; around it the move is taken off the schedule and the host's write is answered. -/
def Obligations.StepRunsTheDecodedCommand : Prop :=
  ∀ (s : State) (u : UnitId) (w : Word) (i : Instr) (rest : List Event), decode u w = .legal i →
    s.schedule = .write .w32 (s.params.base + cmdOffset u) w .now :: rest →
    step s = exec i { s with schedule := rest, response := .done }

/-- A word of a row of the opcode table, placed for the next step, is run by the next step. -/
def Obligations.StepRunsATableRow : Prop :=
  ∀ (s : State) (nbits w : Nat) (i : Instr), decodeTableWord nbits w = some i →
    step (s.withFetchWord nbits w) = exec i { s with response := .done }

/-- R27, R88 (2): a command accepted in one step, with BUSY rising, and performed by its engine in the next does what it does when
performed in the step that offers it. -/
def Obligations.DeferredCommandEqualsImmediate : Prop :=
  ∀ (s : State) (u : UnitId) (w : Word) (rest : List Event), s.busy u = false → (u = .ht → s.src.raced = []) →
    ∃ s₁, step { s with schedule := .write .w32 (s.params.base + cmdOffset u) w .later :: (.engine u :: rest) } = .next s₁ ∧
      (∀ i, decode u w = .legal i → s.admits i = true → s₁.busy u = true) ∧
      step s₁ = step { s with schedule := .write .w32 (s.params.base + cmdOffset u) w .now :: rest }

/-- R106, R240: an illegal word faults ILLEGAL_CMD in an idle unfaulted unit, with no BUSY interval, and is discarded by a busy or
faulted one. -/
def Obligations.IllegalWordFaultsOrIsDiscarded : Prop :=
  ∀ (s : State) (u : UnitId) (w : Word) (why : IllegalWord) (timing : Timing) (rest : List Event),
    decode u w = .illegal why → s.schedule = .write .w32 (s.params.base + cmdOffset u) w timing :: rest →
    (s.busy u = true ∨ s.faulted u = true → step s = .next { s with schedule := rest, response := .done }) ∧
    (u = .ht → s.Ready .ht → step s = .next { s with
      schedule := rest, response := .done
      ht := { s.ht with faulted := true, faultCode := 0x1#4 } }) ∧
    (u = .pc → s.Ready .pc → step s = .next { s with
      schedule := rest, response := .done
      pc := { s.pc with faulted := true, faultCode := 0x1#4 } })

/-- R240, R235: a faulted unit discards every command but its recovery command, with every piece of state unchanged. -/
def Obligations.FaultedUnitDiscardsCommands : Prop :=
  ∀ (i : Instr) (s : State), s.faulted i.unit = true → i ≠ .htInit → i ≠ .pcClrflt → exec i s = .next s

/-- R240 (1), R83 (a): a busy unit discards every command. -/
def Obligations.BusyUnitDiscardsCommands : Prop :=
  ∀ (i : Instr) (s : State), s.busy i.unit = true → exec i s = .next s

/-- R232: a fault raised by a command is precise but for CAPACITY: the state is the state before the command with FAULTED and
FAULT_CODE set. -/
def Obligations.FaultsArePrecise : Prop :=
  ∀ (i : Instr) (s t : State), exec i s = .next t → s.faulted i.unit = false → t.faulted i.unit = true →
    ∃ c : FaultCode, (c = .capacity ∧ i = .htGet ∧ t.ht.faultCode = 0x5#4) ∨ t = s.raise i.unit c

/-- R251, R92, R239: a command's effect does not depend on the other unit and does not touch it; a PC command does not depend on the
source buffer either. -/
def Obligations.UnitsAreIndependent : Prop :=
  ∀ (i : Instr) (s : State),
    (i.unit = .ht → ∀ p : PcUnit, exec i { s with pc := p } = mapNext (fun t => { t with pc := p }) (exec i s)) ∧
    (i.unit = .pc → ∀ (h : HtUnit) (src : Source),
      exec i { s with ht := h, src := src } = mapNext (fun t => { t with ht := h, src := src }) (exec i s))

/-! ### HT.INIT (40_hash_table.md R130-R134) -/

/-- R130, R133: HT.INIT with a legal INIT_LOGLEN, faulted or not, makes an empty table, clears the results and the fault, and leaves
the argument registers. -/
def Obligations.InitMakesAnEmptyTable : Prop :=
  ∀ s : State, s.ht.busy = false → 1 ≤ s.ht.initLoglen.toNat → s.ht.initLoglen.toNat ≤ s.params.maxLoglen →
    ∃ t, exec .htInit s = .next t ∧
      (∀ p < 2 ^ s.ht.initLoglen.toNat, slotAt t.ht.slots p = { hash := 0, offset := 0, len := 0 }) ∧
      t = { s with ht := { s.ht with
        loglen := s.ht.initLoglen.toNat, slots := [], keycount := 0, existed := false, resOff := 0, resCount := 0,
        slotHash := 0, slotOff := 0, slotLen := 0, faulted := false, faultCode := 0 } }

/-- R131, R134: HT.INIT with INIT_LOGLEN 0 or above HT_MAX_LOGLEN faults CONFIG_RANGE, replacing the code of a fault, and changes
nothing else. -/
def Obligations.InitOutOfRangeFaults : Prop :=
  ∀ s : State, s.ht.busy = false → s.ht.initLoglen.toNat = 0 ∨ s.params.maxLoglen < s.ht.initLoglen.toNat →
    exec .htInit s = .next { s with ht := { s.ht with faulted := true, faultCode := 0x6#4 } }

/-! ### HT.GET (40_hash_table.md R135-R154) -/

/-- R136, R137: HT.GET's contract checks, in order, fault with no other change. -/
def Obligations.GetContractViolationsFault : Prop :=
  ∀ s : State, s.Ready .ht →
    (s.ht.len.toNat < 4 → exec .htGet s = .next { s with ht := { s.ht with faulted := true, faultCode := 0x2#4 } }) ∧
    (4 ≤ s.ht.len.toNat → s.ht.srcLen.toNat < s.ht.candOff.toNat + s.ht.len.toNat →
      exec .htGet s = .next { s with ht := { s.ht with faulted := true, faultCode := 0x3#4 } }) ∧
    (4 ≤ s.ht.len.toNat → s.ht.candOff.toNat + s.ht.len.toNat ≤ s.ht.srcLen.toNat → s.ht.hash = 0 →
      s.ht.zhPolicy = false →
      exec .htGet s = .next { s with ht := { s.ht with faulted := true, faultCode := 0x4#4 } })

/-- R145, R146, R148, R151: HT.GET with its contract met completes: it returns a stored offset and changes nothing else, or it
returns the candidate's offset and counts the insertion, and then doubles the table if the count passes 3/4 of the capacity, or
faults CAPACITY if the table has its largest size. R138, R139: if the candidate's home slot, the high `loglen` bits of its hash, is
empty and no resize follows, the candidate is put there and no other slot changes. -/
def Obligations.GetCompletes : Prop :=
  ∀ s : State, s.Inv → s.Ready .ht → s.ht.GetAllowed →
    ∃ t, exec .htGet s = .next t ∧
      ((t.ht.existed = true ∧
          (∃ i < 2 ^ s.ht.loglen, (slotAt s.ht.slots i).hash ≠ 0 ∧ (slotAt s.ht.slots i).hash = s.ht.hash ∧
            t.ht.resOff = (slotAt s.ht.slots i).offset) ∧
          t = { s with freeCount := t.freeCount, ht := { s.ht with existed := true, resOff := t.ht.resOff } }) ∨
        (t.ht.existed = false ∧ t.ht.resOff = s.ht.candOff ∧ t.ht.keycount = s.ht.keycount + 1 ∧
          (s.ht.keycount.toNat + 1 ≤ threshold s.ht.loglen → t.ht.loglen = s.ht.loglen ∧ t.ht.faulted = false) ∧
          (threshold s.ht.loglen < s.ht.keycount.toNat + 1 → s.ht.loglen < s.params.maxLoglen →
            t.ht.loglen = s.ht.loglen + 1 ∧ t.ht.faulted = false) ∧
          (threshold s.ht.loglen < s.ht.keycount.toNat + 1 → s.ht.loglen = s.params.maxLoglen →
            t.ht.loglen = s.ht.loglen ∧ t.ht.faulted = true ∧ t.ht.faultCode = 0x5#4))) ∧
      ((slotAt s.ht.slots (s.ht.hash.toNat / 2 ^ (32 - s.ht.loglen))).hash = 0 →
        s.ht.keycount.toNat + 1 ≤ threshold s.ht.loglen ∨ s.ht.loglen = s.params.maxLoglen →
        t.ht.existed = false ∧ ∀ i, slotAt t.ht.slots i =
          if i = s.ht.hash.toNat / 2 ^ (32 - s.ht.loglen) then { hash := s.ht.hash, offset := s.ht.candOff, len := s.ht.len }
          else slotAt s.ht.slots i)

/-- R144, R145, R147, R160 (b): no HT.GET loses, changes or invents an entry: of every entry with a hash that is not 0 the table holds
as many copies after as before, and one more of the candidate if it was inserted, through a resize too. -/
def Obligations.GetKeepsEveryStoredEntry : Prop :=
  ∀ (s t : State) (e : Slot), s.Inv → s.Ready .ht → s.ht.GetAllowed → exec .htGet s = .next t → e.hash ≠ 0 →
    t.ht.copies e = s.ht.copies e +
      if t.ht.existed = false ∧ e = { hash := s.ht.hash, offset := s.ht.candOff, len := s.ht.len } then 1 else 0

/-- R142, R145, R160 (a): in a table ordered by R144, HT.GET finds a stored entry that has the candidate's hash and bytes. -/
def Obligations.GetFindsAStoredCopy : Prop :=
  ∀ (s : State) (i : Nat), s.Inv → s.ht.Ordered → s.Ready .ht → s.ht.GetAllowed → i < 2 ^ s.ht.loglen → s.ht.hash ≠ 0 →
    (slotAt s.ht.slots i).hash = s.ht.hash → s.storedCopy (slotAt s.ht.slots i).offset →
    ∃ t j, exec .htGet s = .next t ∧ j < 2 ^ s.ht.loglen ∧ (slotAt s.ht.slots j).hash = s.ht.hash ∧
      t = { s with freeCount := t.freeCount, ht := { s.ht with existed := true, resOff := (slotAt s.ht.slots j).offset } }

/-- R142, R143, R145: an offset HT.GET returns as existing is one whose stored copy lies in the buffer and has the candidate's
bytes. -/
def Obligations.GetMatchesOnlyEqualBytes : Prop :=
  ∀ s t : State, s.Inv → s.Ready .ht → s.ht.GetAllowed → s.sourceSettled → exec .htGet s = .next t → t.ht.existed = true →
    s.storedCopy t.ht.resOff

/-- R160 (a), R154 (a): the same HT.GET again finds what the first found or inserted, and returns the same offset, across a resize
too. -/
def Obligations.RepeatedGetReturnsTheSameOffset : Prop :=
  ∀ s t : State, s.Inv → s.ht.Ordered → s.Ready .ht → s.ht.GetAllowed → s.ht.hash ≠ 0 → s.sourceSettled →
    exec .htGet s = .next t → t.ht.faulted = false →
    ∃ t', exec .htGet t = .next t' ∧ t'.ht.existed = true ∧ t'.ht.resOff = t.ht.resOff ∧ t'.ht.slots = t.ht.slots

/-- R150 (c), (d): under REPLICATE a GET of hash 0 always inserts, counts, and adds no occupied slot. -/
def Obligations.GetOfZeroHashIsDropped : Prop :=
  ∀ s : State, s.Inv → s.Ready .ht → s.ht.GetAllowed → s.ht.hash = 0 →
    ∃ t, exec .htGet s = .next t ∧ t.ht.existed = false ∧ t.ht.resOff = s.ht.candOff ∧
      t.ht.keycount = s.ht.keycount + 1 ∧ occupied t.ht.slots = occupied s.ht.slots

/-- R76: HT.GET reads no source byte at or past HT_SRC_LEN. -/
def Obligations.GetReadsOnlyBelowSrcLen : Prop :=
  ∀ (s : State) (src : Source), (∀ off < s.ht.srcLen.toNat, src.settled off = s.src.settled off) →
    exec .htGet { s with src := src } = mapNext (fun t => { t with src := src }) (exec .htGet s)

/-- R44, R160 (d): no command but HT.INIT changes the capacity otherwise than by doubling it. -/
def Obligations.CapacityOnlyDoubles : Prop :=
  ∀ (i : Instr) (s t : State), i ≠ .htInit → exec i s = .next t →
    t.ht.loglen = s.ht.loglen ∨ i = .htGet ∧ t.ht.loglen = s.ht.loglen + 1

/-! ### HT.COUNT and HT.RDSLOT (R155-R159) -/

/-- R155: HT.COUNT writes the number of slots below the capacity whose hash is not 0, and nothing else. -/
def Obligations.CountScansTheTable : Prop :=
  ∀ s : State, s.Ready .ht → Slots.wf s.ht.loglen s.ht.slots →
    exec .htCount s = .next { s with ht := { s.ht with
      resCount := BitVec.ofNat 32 ((List.range (2 ^ s.ht.loglen)).countP fun i => (slotAt s.ht.slots i).hash != 0) } }

/-- R156: with no zero hash inserted, HT.COUNT's result is the keycount. -/
def Obligations.CountIsTheKeycount : Prop :=
  ∀ s : State, s.ht.Ordered → s.Ready .ht →
    exec .htCount s = .next { s with ht := { s.ht with resCount := s.ht.keycount } }

/-- R158: HT.RDSLOT reads the slot at HT_SLOT_IDX. -/
def Obligations.RdslotReadsTheSlot : Prop :=
  ∀ s : State, s.Ready .ht → s.ht.slotIdx.toNat < 2 ^ s.ht.loglen →
    exec .htRdslot s = .next { s with ht := { s.ht with
      slotHash := (slotAt s.ht.slots s.ht.slotIdx.toNat).hash
      slotOff := (slotAt s.ht.slots s.ht.slotIdx.toNat).offset
      slotLen := (slotAt s.ht.slots s.ht.slotIdx.toNat).len } }

/-- R159: HT.RDSLOT past the capacity faults SLOT_RANGE and writes no result. -/
def Obligations.RdslotOutOfRangeFaults : Prop :=
  ∀ s : State, s.Ready .ht → 2 ^ s.ht.loglen ≤ s.ht.slotIdx.toNat →
    exec .htRdslot s = .next { s with ht := { s.ht with faulted := true, faultCode := 0x7#4 } }

/-! ### Frames -/

/-- R102, R234, R282: what the HT commands leave unchanged: everything but the fields their rules name, the argument registers and the
source buffer always. -/
def Obligations.HtCommandFrames : Prop :=
  ∀ s t : State,
    (exec .htInit s = .next t → t = { s with ht := { t.ht with
      initLoglen := s.ht.initLoglen, zhPolicy := s.ht.zhPolicy, srcLen := s.ht.srcLen, hash := s.ht.hash,
      candOff := s.ht.candOff, len := s.ht.len, slotIdx := s.ht.slotIdx, task := s.ht.task } }) ∧
    (exec .htGet s = .next t → t = { s with freeCount := t.freeCount, ht := { s.ht with
      loglen := t.ht.loglen, slots := t.ht.slots, keycount := t.ht.keycount, existed := t.ht.existed,
      resOff := t.ht.resOff, faulted := t.ht.faulted, faultCode := t.ht.faultCode } }) ∧
    (exec .htCount s = .next t → t = { s with ht := { s.ht with resCount := t.ht.resCount } }) ∧
    (exec .htRdslot s = .next t → t = { s with ht := { s.ht with
      slotHash := t.ht.slotHash, slotOff := t.ht.slotOff, slotLen := t.ht.slotLen, faulted := t.ht.faulted,
      faultCode := t.ht.faultCode } })

/-- R102, R184, R234: what the PC commands leave unchanged: everything but PC_RESULT, the fault and their own memory, of which the
entries from PC_NUMSYMS on, and for PC.LIMIT the entries of unused symbols, are unchanged. -/
def Obligations.PcCommandFrames : Prop :=
  ∀ s t : State,
    (exec .pcSort s = .next t →
      t = { s with pc := { s.pc with
        result := t.pc.result, faulted := t.pc.faulted, faultCode := t.pc.faultCode, sym := t.pc.sym } } ∧
      ∀ i, s.pc.numsyms.toNat ≤ i → t.symAt i = s.symAt i) ∧
    (exec .pcGencodes s = .next t →
      t = { s with pc := { s.pc with
        result := t.pc.result, faulted := t.pc.faulted, faultCode := t.pc.faultCode, code := t.pc.code } } ∧
      ∀ i, s.pc.numsyms.toNat ≤ i → t.codeAt i = s.codeAt i) ∧
    (exec .pcLimit s = .next t →
      t = { s with pc := { s.pc with
        result := t.pc.result, faulted := t.pc.faulted, faultCode := t.pc.faultCode, size := t.pc.size } } ∧
      ∀ i, s.pc.numsyms.toNat ≤ i ∨ s.sizeAt i = 0 → t.sizeAt i = s.sizeAt i) ∧
    (exec .pcClrflt s = .next t →
      t = { s with pc := { s.pc with faulted := t.pc.faulted, faultCode := t.pc.faultCode } })

/-! ### Invariants -/

/-- R59, R270: the reset state with any legal parameters meets the invariant, and its table is ordered. -/
def Obligations.ResetMeetsTheInvariant : Prop :=
  ∀ P : Params, P.wellFormed = true → (State.resetWith P).Inv ∧ (State.resetWith P).ht.Ordered

/-- R45, R44, R28, R51, R153, R8: every step keeps the invariant and the parameters. -/
def Obligations.StepKeepsTheInvariant : Prop :=
  ∀ s t : State, s.Inv → step s = .next t → t.Inv ∧ t.params = s.params

/-- R46 (a), (c), R144: every step keeps the table ordered and the keycount exact, unless it performs an HT.GET of hash 0 under
REPLICATE. -/
def Obligations.StepKeepsTheTableOrdered : Prop :=
  ∀ s t : State, s.Inv → s.ht.Ordered → (s.performsHt = some .htGet → s.ht.zhPolicy = true → s.ht.hash ≠ 0) →
    step s = .next t → t.ht.Ordered

/-- R153, R19: no command loops forever. -/
def Obligations.EveryCommandEnds : Prop :=
  ∀ (i : Instr) (s : State), s.Inv → ∃ t, exec i s = .next t

/-- R153, R73-R75: in a state that meets the invariant a step stops only at a host access below BASE, which is none to the block (the
model's fault `notRouted`, log 5); a bus error is no stop. -/
def Obligations.StepStopsOnlyBelowBase : Prop :=
  ∀ s : State, s.Inv → (∃ t, step s = .next t) ∨
    step s = .fault .notRouted ∧ ∃ width addr rest, addr < s.params.base ∧
      (s.schedule = .read width addr :: rest ∨ ∃ v timing, s.schedule = .write width addr v timing :: rest)

/-! ### PC.SORT (41_prefix_code.md R185-R187) -/

/-- R185, R186: PC.SORT puts SYM[0..N-1] into ascending order of (freq, sym), a permutation of what was there, and succeeds. -/
def Obligations.SortOrdersTheRecords : Prop :=
  ∀ s : State, s.Ready .pc → s.pc.numsyms.toNat ≤ 1024 →
    ∃ t, exec .pcSort s = .next t ∧ t.pc.result = 1 ∧
      ((List.range s.pc.numsyms.toNat).map t.symAt).Perm ((List.range s.pc.numsyms.toNat).map s.symAt) ∧
      ((List.range s.pc.numsyms.toNat).map t.symAt).Pairwise fun a b =>
        (freqField a).toNat < (freqField b).toNat ∨
          (freqField a).toNat = (freqField b).toNat ∧ (symField a).toNat ≤ (symField b).toNat

/-- R186: the order of the records is the order of the 32-bit entries. -/
def Obligations.RecordOrderIsWordOrder : Prop :=
  ∀ a b : Word, recordLe a b = true ↔ a.toNat ≤ b.toNat

/-- R187 (b): PC.SORT again changes nothing. -/
def Obligations.SortIsIdempotent : Prop :=
  ∀ s t : State, s.Inv → s.Ready .pc → s.pc.numsyms.toNat ≤ 1024 → exec .pcSort s = .next t → exec .pcSort t = .next t

/-- R181: a symbol count above 1024 faults NUMSYMS_RANGE in each computing command, with no other change. -/
def Obligations.TooManySymbolsFault : Prop :=
  ∀ (i : Instr) (s : State), i = .pcSort ∨ i = .pcGencodes ∨ i = .pcLimit → s.Ready .pc → 1024 < s.pc.numsyms.toNat →
    exec i s = .next { s with pc := { s.pc with faulted := true, faultCode := 0x8#4 } }

/-- R183: a computing command that ends in a fault or in a result of 0 has written no entry of any memory. -/
def Obligations.FailingPcCommandWritesNoMemory : Prop :=
  ∀ (i : Instr) (s t : State), i.unit = .pc → exec i s = .next t → t.pc.faulted = true ∨ t.pc.result = 0 →
    t.pc.sym = s.pc.sym ∧ t.pc.size = s.pc.size ∧ t.pc.code = s.pc.code

/-! ### PC.GENCODES (R190-R197) -/

/-- R192: PC.GENCODES succeeds exactly if no used length is above 32 and the lengths are not over-subscribed; its failure writes
PC_RESULT only. -/
def Obligations.GencodesSucceedsExactlyOnCodableLengths : Prop :=
  ∀ s : State, s.Ready .pc → s.pc.numsyms.toNat ≤ 1024 →
    ∃ t, exec .pcGencodes s = .next t ∧ (s.Codable s.pc.numsyms.toNat → t.pc.result = 1) ∧
      (¬ s.Codable s.pc.numsyms.toNat → t = { s with pc := { s.pc with result := 0 } })

/-- R196 (a), (b), R194: the codes fit their lengths and none is a prefix of another. -/
def Obligations.GencodesCodesArePrefixFree : Prop :=
  ∀ s : State, s.Ready .pc → s.pc.numsyms.toNat ≤ 1024 → s.Codable s.pc.numsyms.toNat →
    ∃ t, exec .pcGencodes s = .next t ∧ t.pc.result = 1 ∧
      (∀ i, s.used s.pc.numsyms.toNat i → (t.codeAt i).toNat < 2 ^ s.lengthOf i) ∧
      ∀ i j, s.used s.pc.numsyms.toNat i → s.used s.pc.numsyms.toNat j → i ≠ j → s.lengthOf i ≤ s.lengthOf j →
        (t.codeAt j).toNat >>> (s.lengthOf j - s.lengthOf i) ≠ (t.codeAt i).toNat

/-- R193, R194, R190: the first symbol in canonical order gets code 0, each next one the successor of the code before it, shifted left
by the growth in length; an unused symbol gets 0. -/
def Obligations.GencodesFollowsTheRecurrence : Prop :=
  ∀ s : State, s.Ready .pc → s.pc.numsyms.toNat ≤ 1024 → s.Codable s.pc.numsyms.toNat →
    ∃ t, exec .pcGencodes s = .next t ∧ t.pc.result = 1 ∧
      (∀ j, s.used s.pc.numsyms.toNat j → (∀ i, s.used s.pc.numsyms.toNat i → ¬ s.comesBefore i j) → t.codeAt j = 0) ∧
      (∀ i j, s.used s.pc.numsyms.toNat i → s.used s.pc.numsyms.toNat j → s.comesBefore i j →
        (∀ k, s.used s.pc.numsyms.toNat k → ¬ (s.comesBefore i k ∧ s.comesBefore k j)) →
        (t.codeAt j).toNat = ((t.codeAt i).toNat + 1) <<< (s.lengthOf j - s.lengthOf i)) ∧
      (∀ i < s.pc.numsyms.toNat, s.lengthOf i = 0 → t.codeAt i = 0)

/-! ### PC.LIMIT (R200-R209) -/

/-- R201, R202, R203: PC.LIMIT succeeds exactly if the limit is in 1..32, the used lengths are complete and there are at most 2^M used
symbols; its failure writes PC_RESULT only. -/
def Obligations.LimitSucceedsExactlyOnLimitableLengths : Prop :=
  ∀ s : State, s.Ready .pc → s.pc.numsyms.toNat ≤ 1024 →
    ∃ t, exec .pcLimit s = .next t ∧
      (s.Limitable s.pc.numsyms.toNat s.pc.maxlen.toNat → t.pc.result = 1) ∧
      (¬ s.Limitable s.pc.numsyms.toNat s.pc.maxlen.toNat → t = { s with pc := { s.pc with result := 0 } })

/-- R208 (a), (b), (c): on success every used symbol has a length in 1..M, the lengths are complete, and the same symbols are used. -/
def Obligations.LimitGivesACompleteCode : Prop :=
  ∀ s : State, s.Ready .pc → s.pc.numsyms.toNat ≤ 1024 → s.Limitable s.pc.numsyms.toNat s.pc.maxlen.toNat →
    ∃ t, exec .pcLimit s = .next t ∧ t.pc.result = 1 ∧
      (∀ i < s.pc.numsyms.toNat, t.lengthOf i = 0 ↔ s.lengthOf i = 0) ∧
      (∀ i < s.pc.numsyms.toNat, t.lengthOf i ≤ s.pc.maxlen.toNat) ∧
      kraft s.pc.maxlen.toNat (t.usedLengths s.pc.numsyms.toNat) = 2 ^ s.pc.maxlen.toNat

/-- R207, R208 (d): the new lengths keep the order of (original length, symbol index). -/
def Obligations.LimitKeepsTheOrderOfLengths : Prop :=
  ∀ s : State, s.Ready .pc → s.pc.numsyms.toNat ≤ 1024 → s.Limitable s.pc.numsyms.toNat s.pc.maxlen.toNat →
    ∃ t, exec .pcLimit s = .next t ∧ t.pc.result = 1 ∧
      ∀ i j, s.used s.pc.numsyms.toNat i → s.used s.pc.numsyms.toNat j → s.comesBefore i j → t.lengthOf i ≤ t.lengthOf j

/-- R208 (e): lengths that are all within the limit are left as they are. -/
def Obligations.LimitLeavesShortLengths : Prop :=
  ∀ s : State, s.Ready .pc → s.pc.numsyms.toNat ≤ 1024 → s.Limitable s.pc.numsyms.toNat s.pc.maxlen.toNat →
    (∀ i < s.pc.numsyms.toNat, s.lengthOf i ≤ s.pc.maxlen.toNat) →
    ∃ t, exec .pcLimit s = .next t ∧ t.pc.result = 1 ∧ ∀ i, t.sizeAt i = s.sizeAt i

/-- R205: a step of the rebalance loop removes a symbol from length `M` and one from the longest length `j < M` that has one, and adds
two at `j + 1`; so it keeps the number of symbols and lowers the total by exactly 1. -/
def Obligations.RebalanceStepLowersTheTotalByOne : Prop :=
  ∀ (M : Nat) (h h' : List Nat), 1 ≤ M → h.length = M + 1 → rebalanceStep M h = some h' →
    (∃ j, 1 ≤ j ∧ j < M ∧ 0 < h.getD j 0 ∧ (∀ k, j < k → k < M → h.getD k 0 = 0) ∧
      ∀ k, h'.getD k 0 + (if k = M then 1 else 0) + (if k = j then 1 else 0) = h.getD k 0 + (if k = j + 1 then 2 else 0)) ∧
    h'.length = M + 1 ∧ h'.sum = h.sum ∧ histogramTotal M h' + 1 = histogramTotal M h

/-! ### PC.CLRFLT (R210) -/

/-- R210: PC.CLRFLT clears the PC unit's fault, faulted or not, and changes nothing else. -/
def Obligations.ClrfltClearsTheFault : Prop :=
  ∀ s : State, s.pc.busy = false →
    exec .pcClrflt s = .next { s with pc := { s.pc with faulted := false, faultCode := 0 } }

/-! ### Registers and the host bus (10_state.md, 20_memory.md) -/

/-- R26, R48: the fields of HT_STATUS and PC_STATUS. -/
def Obligations.StatusFields : Prop :=
  ∀ s : State, (s.readReg .htStatus).getLsbD 0 = s.ht.busy ∧ (s.readReg .htStatus).getLsbD 1 = s.ht.faulted ∧
    (s.readReg .htStatus).getLsbD 2 = s.ht.existed ∧ (s.readReg .htStatus).extractLsb' 3 5 = 0 ∧
    (s.readReg .htStatus).extractLsb' 8 4 = s.ht.faultCode ∧ (s.readReg .htStatus).extractLsb' 12 20 = 0 ∧
    (s.readReg .pcStatus).getLsbD 0 = s.pc.busy ∧ (s.readReg .pcStatus).getLsbD 1 = s.pc.faulted ∧
    (s.readReg .pcStatus).extractLsb' 2 6 = 0 ∧ (s.readReg .pcStatus).extractLsb' 8 4 = s.pc.faultCode ∧
    (s.readReg .pcStatus).extractLsb' 12 20 = 0

/-- R38, R42, R52: the fields of HT_GEOM, HT_PARAM and PC_PARAM. -/
def Obligations.GeometryAndParameterFields : Prop :=
  ∀ s : State,
    (s.readReg .htGeom).extractLsb' 0 6 = BitVec.ofNat 6 s.ht.loglen ∧ (s.readReg .htGeom).extractLsb' 6 2 = 0 ∧
    (s.readReg .htGeom).extractLsb' 8 6 = BitVec.ofNat 6 (32 - s.ht.loglen) ∧ (s.readReg .htGeom).extractLsb' 14 18 = 0 ∧
    (s.readReg .htParam).extractLsb' 0 6 = BitVec.ofNat 6 s.params.maxLoglen ∧
    (s.readReg .htParam).extractLsb' 6 2 = 0 ∧ (s.readReg .htParam).extractLsb' 8 8 = 4#8 ∧
    (s.readReg .htParam).extractLsb' 16 16 = 0 ∧ s.readReg .pcParam = 0x04000020#32

/-- R23: the mapped offsets, the register at each register offset, and the windows. -/
def Obligations.MappedOffsets : Prop :=
  (∀ off, off % 4 = 0 →
    ((placeAt off).isSome = true ↔ off < 0x40 ∨ (0x100 ≤ off ∧ off < 0x118) ∨ (0x1000 ≤ off ∧ off < 0x4000))) ∧
  placeAt 0x000 = some (.reg .htCmd) ∧ placeAt 0x004 = some (.reg .htStatus) ∧ placeAt 0x008 = some (.reg .htConfig) ∧
  placeAt 0x00C = some (.reg .htSrcLen) ∧ placeAt 0x010 = some (.reg .htHash) ∧ placeAt 0x014 = some (.reg .htCandOff) ∧
  placeAt 0x018 = some (.reg .htLen) ∧ placeAt 0x01C = some (.reg .htResOff) ∧ placeAt 0x020 = some (.reg .htResCount) ∧
  placeAt 0x024 = some (.reg .htGeom) ∧ placeAt 0x028 = some (.reg .htKeycount) ∧ placeAt 0x02C = some (.reg .htSlotIdx) ∧
  placeAt 0x030 = some (.reg .htSlotHash) ∧ placeAt 0x034 = some (.reg .htSlotOff) ∧ placeAt 0x038 = some (.reg .htSlotLen) ∧
  placeAt 0x03C = some (.reg .htParam) ∧ placeAt 0x100 = some (.reg .pcCmd) ∧ placeAt 0x104 = some (.reg .pcStatus) ∧
  placeAt 0x108 = some (.reg .pcNumsyms) ∧ placeAt 0x10C = some (.reg .pcMaxlen) ∧ placeAt 0x110 = some (.reg .pcResult) ∧
  placeAt 0x114 = some (.reg .pcParam) ∧
  ∀ i < 1024, placeAt (0x1000 + 4 * i) = some (.sym i) ∧ placeAt (0x2000 + 4 * i) = some (.size i) ∧
    placeAt (0x3000 + 4 * i) = some (.code i)

/-- R73, R74, R75, R17 (d): a host read or write of another width, misaligned, or at an unmapped offset gets a bus error response, no
value and no effect: the state is unchanged. That every offset at or above 0x4000 is routed to the block is the model's choice
(log 14). -/
def Obligations.BadAccessesGetABusError : Prop :=
  ∀ (s : State) (width : AccessWidth) (off : Nat) (v : Word) (timing : Timing) (rest : List Event),
    (width ≠ .w32 ∨ off % 4 ≠ 0 ∨ (0x40 ≤ off ∧ off < 0x100) ∨ (0x118 ≤ off ∧ off < 0x1000) ∨ 0x4000 ≤ off) →
    step { s with schedule := .read width (s.params.base + off) :: rest } =
      .next { s with schedule := rest, response := .error } ∧
    step { s with schedule := .write width (s.params.base + off) v timing :: rest } =
      .next { s with schedule := rest, response := .error }

/-- R24, R72, R30, R54: a write to an idle unit's register or entry stores the writable fields of a RW place, is discarded at a RO
place, and changes what no other place reads. R85, R282: beyond the stored value nothing changes: the slot store, the results, the
faults, the tasks, the source buffer and the rest of the schedule are as before. -/
def Obligations.WriteStoresTheWritableFields : Prop :=
  ∀ (s : State) (off : Nat) (p : Place) (v : Word) (timing : Timing) (rest : List Event),
    off % 4 = 0 → placeAt off = some p → p.commandOf = none → s.busy p.unit = false →
    s.schedule = .write .w32 (s.params.base + off) v timing :: rest →
    ∃ t, step s = .next t ∧ (∀ q, q ≠ p → t.readPlace q = s.readPlace q) ∧
      t = { s with
        schedule := rest, response := .done
        ht := { s.ht with
          initLoglen := t.ht.initLoglen, zhPolicy := t.ht.zhPolicy, srcLen := t.ht.srcLen, hash := t.ht.hash,
          candOff := t.ht.candOff, len := t.ht.len, slotIdx := t.ht.slotIdx }
        pc := { s.pc with
          numsyms := t.pc.numsyms, maxlen := t.pc.maxlen, sym := t.pc.sym, size := t.pc.size, code := t.pc.code } } ∧
      t.readPlace p =
        match p with
        | .reg .htConfig => v &&& 0x13F#32
        | .reg .htSrcLen | .reg .htHash | .reg .htCandOff | .reg .htLen | .reg .htSlotIdx => v
        | .reg .pcNumsyms | .reg .pcMaxlen => v
        | .sym _ | .code _ => v
        | .size _ => v &&& 0xFF#32
        | .reg _ => s.readPlace p

/-- R72, R24, R85: a read of an idle unit's register or entry returns its value and changes nothing. Place by place (R25, R30-R37, R39-R41,
R47, R49-R51, R53-R55) the value is 0 at a command register, else the field of that name; the packed fields of the STATUS registers,
HT_GEOM and the PARAM registers are StatusFields and GeometryAndParameterFields. -/
def Obligations.ReadReturnsTheValue : Prop :=
  ∀ (s : State) (off : Nat) (p : Place) (rest : List Event), off % 4 = 0 → placeAt off = some p → s.busy p.unit = false →
    s.schedule = .read .w32 (s.params.base + off) :: rest →
    step s = .next { s with schedule := rest, response := .data (s.readPlace p) } ∧
      s.readPlace p =
        match p with
        | .reg .htCmd | .reg .pcCmd => 0
        | .reg .htStatus => s.readReg .htStatus
        | .reg .htConfig => s.ht.initLoglen.setWidth 32 ||| (if s.ht.zhPolicy then 0x100#32 else 0)
        | .reg .htSrcLen => s.ht.srcLen
        | .reg .htHash => s.ht.hash
        | .reg .htCandOff => s.ht.candOff
        | .reg .htLen => s.ht.len
        | .reg .htResOff => s.ht.resOff
        | .reg .htResCount => s.ht.resCount
        | .reg .htGeom => s.readReg .htGeom
        | .reg .htKeycount => s.ht.keycount
        | .reg .htSlotIdx => s.ht.slotIdx
        | .reg .htSlotHash => s.ht.slotHash
        | .reg .htSlotOff => s.ht.slotOff
        | .reg .htSlotLen => s.ht.slotLen
        | .reg .htParam => s.readReg .htParam
        | .reg .pcStatus => s.readReg .pcStatus
        | .reg .pcNumsyms => s.pc.numsyms
        | .reg .pcMaxlen => s.pc.maxlen
        | .reg .pcResult => s.pc.result
        | .reg .pcParam => s.readReg .pcParam
        | .sym i => s.symAt i
        | .size i => (s.sizeAt i).setWidth 32
        | .code i => s.codeAt i

/-- R83: a busy unit discards a write to any of its registers and entries, its STATUS reads true, a read of any other returns some word
(any word, the model's free value of log 8) and changes nothing in the block. -/
def Obligations.BusyUnitAccesses : Prop :=
  ∀ (s : State) (off : Nat) (p : Place) (v : Word) (timing : Timing) (rest : List Event),
    off % 4 = 0 → placeAt off = some p → s.busy p.unit = true →
    step { s with schedule := .write .w32 (s.params.base + off) v timing :: rest } =
      .next { s with schedule := rest, response := .done } ∧
    (p = .reg .htStatus ∨ p = .reg .pcStatus →
      step { s with schedule := .read .w32 (s.params.base + off) :: rest } =
        .next { s with schedule := rest, response := .data (s.readPlace p) }) ∧
    (p ≠ .reg .htStatus → p ≠ .reg .pcStatus →
      ∃ x n, step { s with schedule := .read .w32 (s.params.base + off) :: rest } =
        .next { s with schedule := rest, response := .data x, freeCount := n })

/-! ### The source buffer (20_memory.md R76-R90) -/

/-- R90, R283: a byte the host writes is what the port returns at once on a coherent platform, and otherwise any value until it is
published (in any range of offsets that holds it: log 12); no other byte changes. R80 (a), (b): for the HT command in progress a byte
that is written, or published, while it runs is any value; once the engine has ended the command, it is the new byte. -/
def Obligations.WrittenSourceBytesAreSeenWhenVisible : Prop :=
  ∀ (s : State) (off : Word) (b : Byte) (lo hi : Nat), s.Inv → s.src.pending = [] → lo ≤ off.toNat → off.toNat < hi →
    (s.params.srcVisibility = .coherent → s.ht.running = false →
      ∃ t, s.move (.srcWrite off b) = .next t ∧ t.src.settled off.toNat = some b ∧
        ∀ o, o ≠ off.toNat → t.src.settled o = s.src.settled o) ∧
    (s.params.srcVisibility = .explicit → s.ht.running = false →
      ∃ t t', s.move (.srcWrite off b) = .next t ∧ t.src.settled off.toNat = none ∧
        (∀ o, o ≠ off.toNat → t.src.settled o = s.src.settled o) ∧
        t.move (.publish lo hi) = .next t' ∧ t'.src.settled off.toNat = some b ∧
        ∀ o, o ≠ off.toNat → t'.src.settled o = s.src.settled o) ∧
    (s.params.srcVisibility = .coherent → s.ht.running = true →
      ∃ t t', s.move (.srcWrite off b) = .next t ∧ t.src.settled off.toNat = none ∧
        (∀ o, o ≠ off.toNat → t.src.settled o = s.src.settled o) ∧
        t.move (.engine .ht) = .next t' ∧ t'.src.settled off.toNat = some b) ∧
    (s.params.srcVisibility = .explicit → s.ht.running = true →
      ∃ t t' t'', s.move (.srcWrite off b) = .next t ∧ t.src.settled off.toNat = none ∧
        t.move (.publish lo hi) = .next t' ∧ t'.src.settled off.toNat = none ∧
        (∀ o, o ≠ off.toNat → t'.src.settled o = s.src.settled o) ∧
        t'.move (.engine .ht) = .next t'' ∧ t''.src.settled off.toNat = some b)

/-- R79 (H7): with no byte below the watermark waiting to be published, a move of a host that keeps duty H7 changes no byte below the
watermark that the port sees, and leaves none waiting there, on either kind of platform. -/
def Obligations.DutifulHostKeepsUsedBytes : Prop :=
  ∀ (s t : State) (used : Nat) (e : Event) (rest : List Event), s.schedule = e :: rest → State.keepsH7 used e →
    (∀ c ∈ s.src.pending, used ≤ c.1) → step s = .next t →
    (∀ off < used, Sparse.find t.src.visible off = Sparse.find s.src.visible off) ∧ ∀ c ∈ t.src.pending, used ≤ c.1

/-! ### Reset and idling (70_reset_and_hazards.md) -/

/-- R273: from any table, any results and any fault, with the argument registers at their reset values, HT.INIT gives the HT state that
a reset gives. -/
def Obligations.ResetEqualsACompletedInit : Prop :=
  ∀ s : State, s.params.wellFormed = true → s.ht.busy = false →
    s.ht.initLoglen = BitVec.ofNat 6 (min 4 s.params.maxLoglen) → s.ht.zhPolicy = false → s.ht.srcLen = 0 → s.ht.hash = 0 →
    s.ht.candOff = 0 → s.ht.len = 0 → s.ht.slotIdx = 0 →
    exec .htInit s = .next { s with ht := (State.resetWith s.params).ht } ∧
    ∀ rest, ∃ t, step { s with schedule := .reset .now :: rest } = .next t ∧ t.ht = (State.resetWith s.params).ht

/-- R59, R270: what a reset move leaves, with the clear done. Host memory is no block state (R60), so its bytes, the published and the
unpublished, are kept (DEDUCED, log 10). -/
def Obligations.ResetSetsEveryRegister : Prop :=
  ∀ (s : State) (rest : List Event), s.schedule = .reset .now :: rest →
    ∃ t, step s = .next t ∧ t.params = s.params ∧ t.src = { s.src with raced := [] } ∧ t.schedule = rest ∧
      t.ht = {
        loglen := min 4 s.params.maxLoglen, slots := [], keycount := 0,
        initLoglen := BitVec.ofNat 6 (min 4 s.params.maxLoglen), zhPolicy := false, srcLen := 0, hash := 0, candOff := 0,
        len := 0, resOff := 0, resCount := 0, existed := false, slotIdx := 0, slotHash := 0, slotOff := 0, slotLen := 0,
        task := .idle, faulted := false, faultCode := 0 } ∧
      t.pc.numsyms = 0 ∧ t.pc.maxlen = 0 ∧ t.pc.result = 0 ∧ t.pc.task = none ∧ t.pc.faulted = false ∧ t.pc.faultCode = 0

/-- R272: while the reset clear runs HT_STATUS reads BUSY and PC_STATUS does not; the engine's move ends it in the state that a reset
with the clear done gives. -/
def Obligations.ResetClearIsBusyAndEnds : Prop :=
  ∀ (s : State) (rest : List Event),
    ∃ s₁, step { s with schedule := .reset .later :: (.engine .ht :: rest) } = .next s₁ ∧
      s₁.ht.busy = true ∧ s₁.pc.busy = false ∧
      step s₁ = step { s with schedule := .reset .now :: rest }

/-- R249, R274: with no move scheduled and both units idle the block keeps all of its state. -/
def Obligations.IdleBlockKeepsItsState : Prop :=
  ∀ s : State, s.schedule = [] → s.ht.busy = false → s.pc.busy = false → step s = .next s
end

