-- ==== Sys2Proof/Laws/Sparse.lean ====
section
/-! SUPPORT. What the sparse arrays, the slot store and the source memory do: reads after writes, and that every operation keeps
the canonical form. -/

namespace Sys2Proof.Machine

variable {α : Type}

/-! ### Reads after writes -/

@[simp] theorem Sparse.find_nil (k : Nat) : Sparse.find ([] : List (Nat × α)) k = none := rfl

theorem Sparse.find_cons (j : Nat) (v : α) (m : List (Nat × α)) (k : Nat) :
    Sparse.find ((j, v) :: m) k = if j = k then some v else Sparse.find m k := rfl

/-- A read after a write: the value written at its index, what was there elsewhere. -/
theorem Sparse.find_insert (m : List (Nat × α)) (k : Nat) (v : α) (j : Nat) :
    Sparse.find (Sparse.insert m k v) j = if j = k then some v else Sparse.find m j := by
  induction m with
  | nil =>
    rw [Sparse.insert, Sparse.find_cons, Sparse.find_nil]
    by_cases h : k = j
    · rw [if_pos h, if_pos h.symm]
    · rw [if_neg h, if_neg (Ne.symm h)]
  | cons e m ih =>
    obtain ⟨i, w⟩ := e
    rw [Sparse.insert]
    split
    · rw [Sparse.find_cons, Sparse.find_cons]
      by_cases h : k = j
      · rw [if_pos h, if_pos h.symm]
      · rw [if_neg h, if_neg (Ne.symm h)]
    · split
      · rename_i hk
        rw [Sparse.find_cons, Sparse.find_cons]
        by_cases h : k = j
        · rw [if_pos h, if_pos h.symm]
        · rw [if_neg h, if_neg (Ne.symm h), if_neg (by rw [← hk]; exact h)]
      · rename_i hk
        rw [Sparse.find_cons, ih, Sparse.find_cons]
        by_cases h : i = j
        · rw [if_pos h, if_pos h, if_neg (by rintro rfl; exact hk h.symm)]
        · rw [if_neg h, if_neg h]

@[simp] theorem Sparse.find_insert_self (m : List (Nat × α)) (k : Nat) (v : α) :
    Sparse.find (Sparse.insert m k v) k = some v := by
  rw [Sparse.find_insert, if_pos rfl]

theorem Sparse.find_insert_ne (m : List (Nat × α)) {k j : Nat} (v : α) (h : j ≠ k) :
    Sparse.find (Sparse.insert m k v) j = Sparse.find m j := by
  rw [Sparse.find_insert, if_neg h]

theorem Sparse.find_erase (m : List (Nat × α)) (k j : Nat) :
    Sparse.find (Sparse.erase m k) j = if j = k then none else Sparse.find m j := by
  induction m with
  | nil => simp [Sparse.erase]
  | cons e m ih =>
    obtain ⟨i, w⟩ := e
    rw [Sparse.erase]
    split
    · rename_i hk
      rw [ih, Sparse.find_cons]
      by_cases h : j = k
      · rw [if_pos h, if_pos h]
      · rw [if_neg h, if_neg h, if_neg (by rintro rfl; exact h hk)]
    · rename_i hk
      rw [Sparse.find_cons, ih, Sparse.find_cons]
      by_cases h : i = j
      · rw [if_pos h, if_pos h, if_neg (by rintro rfl; exact hk h)]
      · rw [if_neg h, if_neg h]

/-- A list with no index twice lists one value per index, sorted or not. -/
theorem Sparse.find_of_mem_nodup {l : List (Nat × α)} (nodup : (l.map (·.1)).Nodup) {k : Nat} {v : α} (h : (k, v) ∈ l) :
    Sparse.find l k = some v := by
  induction l with
  | nil => cases h
  | cons x l ih =>
    obtain ⟨j, w⟩ := x
    rw [Sparse.find_cons]
    rw [List.map_cons, List.nodup_cons] at nodup
    rcases List.mem_cons.1 h with e | h
    · injection e with e1 e2; rw [if_pos e1.symm, e2]
    · rw [if_neg, ih nodup.2 h]
      rintro rfl
      exact nodup.1 (List.mem_map.2 ⟨_, h, rfl⟩)

theorem Sparse.find_of_notMem {l : List (Nat × α)} {k : Nat} (h : k ∉ l.map (·.1)) : Sparse.find l k = none := by
  induction l with
  | nil => rfl
  | cons x l ih =>
    obtain ⟨j, w⟩ := x
    rw [List.map_cons, List.mem_cons, not_or] at h
    rw [Sparse.find_cons, if_neg (fun e => h.1 e.symm), ih h.2]

theorem Sparse.find_insertAll_of_notMem (kvs : List (Nat × α)) (m : List (Nat × α)) {j : Nat}
    (h : j ∉ kvs.map (·.1)) : Sparse.find (Sparse.insertAll m kvs) j = Sparse.find m j := by
  induction kvs generalizing m with
  | nil => rfl
  | cons e kvs ih =>
    obtain ⟨k, v⟩ := e
    simp only [List.map_cons, List.mem_cons, not_or] at h
    rw [Sparse.insertAll, ih _ h.2, Sparse.find_insert_ne _ _ h.1]

/-- A run of writes with no index twice leaves each value where it was written. -/
theorem Sparse.find_insertAll_of_mem (kvs : List (Nat × α)) (m : List (Nat × α))
    (nodup : (kvs.map (·.1)).Nodup) {k : Nat} {v : α} (h : (k, v) ∈ kvs) :
    Sparse.find (Sparse.insertAll m kvs) k = some v := by
  induction kvs generalizing m with
  | nil => cases h
  | cons e kvs ih =>
    obtain ⟨j, w⟩ := e
    rw [List.map_cons, List.nodup_cons] at nodup
    rw [Sparse.insertAll]
    rcases List.mem_cons.1 h with heq | hmem
    · injection heq with h1 h2
      subst h1 h2
      rw [Sparse.find_insertAll_of_notMem _ _ nodup.1, Sparse.find_insert_self]
    · exact ih _ nodup.2 hmem

/-! ### What is listed, and the canonical form -/

theorem Sparse.mem_insert {m : List (Nat × α)} {k : Nat} {v : α} {e : Nat × α} (h : e ∈ Sparse.insert m k v) :
    e = (k, v) ∨ e ∈ m := by
  induction m with
  | nil => simpa [Sparse.insert] using h
  | cons d m ih =>
    obtain ⟨j, w⟩ := d
    rw [Sparse.insert] at h
    split at h
    · simpa using h
    · split at h
      · rcases List.mem_cons.1 h with h | h
        · exact .inl h
        · exact .inr (List.mem_cons_of_mem _ h)
      · rcases List.mem_cons.1 h with h | h
        · exact .inr (h ▸ List.mem_cons_self)
        · exact (ih h).imp_right (List.mem_cons_of_mem _)

theorem Sparse.mem_erase {m : List (Nat × α)} {k : Nat} {e : Nat × α} (h : e ∈ Sparse.erase m k) : e ∈ m := by
  induction m with
  | nil => exact h
  | cons d m ih =>
    obtain ⟨j, w⟩ := d
    rw [Sparse.erase] at h
    split at h
    · exact List.mem_cons_of_mem _ (ih h)
    · rcases List.mem_cons.1 h with h | h
      · exact h ▸ List.mem_cons_self
      · exact List.mem_cons_of_mem _ (ih h)

theorem Sparse.sorted_insert {m : List (Nat × α)} (h : Sparse.sorted m) (k : Nat) (v : α) :
    Sparse.sorted (Sparse.insert m k v) := by
  induction m with
  | nil => simp [Sparse.insert, Sparse.sorted]
  | cons e m ih =>
    obtain ⟨j, w⟩ := e
    obtain ⟨hj, hm⟩ := List.pairwise_cons.1 h
    rw [Sparse.insert]
    split
    · rename_i hk
      refine List.pairwise_cons.2 ⟨fun b hb => ?_, h⟩
      rcases List.mem_cons.1 hb with rfl | hb
      · exact hk
      · exact lt_trans hk (hj b hb)
    · split
      · rename_i hk
        exact List.pairwise_cons.2 ⟨fun b hb => hk ▸ hj b hb, hm⟩
      · rename_i h1 h2
        refine List.pairwise_cons.2 ⟨fun b hb => ?_, ih hm⟩
        rcases Sparse.mem_insert hb with rfl | hb
        · exact lt_of_le_of_ne (not_lt.1 h1) (Ne.symm h2)
        · exact hj b hb

theorem Sparse.sorted_erase {m : List (Nat × α)} (h : Sparse.sorted m) (k : Nat) : Sparse.sorted (Sparse.erase m k) := by
  induction m with
  | nil => exact h
  | cons e m ih =>
    obtain ⟨j, w⟩ := e
    obtain ⟨hj, hm⟩ := List.pairwise_cons.1 h
    rw [Sparse.erase]
    split
    · exact ih hm
    · exact List.pairwise_cons.2 ⟨fun b hb => hj b (Sparse.mem_erase hb), ih hm⟩

theorem Sparse.below_insert {n : Nat} {m : List (Nat × α)} (h : Sparse.below n m) {k : Nat} (hk : k < n) (v : α) :
    Sparse.below n (Sparse.insert m k v) := by
  intro e he
  rcases Sparse.mem_insert he with rfl | he
  · exact hk
  · exact h e he

theorem Sparse.below_erase {n : Nat} {m : List (Nat × α)} (h : Sparse.below n m) (k : Nat) :
    Sparse.below n (Sparse.erase m k) := fun e he => h e (Sparse.mem_erase he)

theorem Sparse.sorted_insertAll {m : List (Nat × α)} (h : Sparse.sorted m) (kvs : List (Nat × α)) :
    Sparse.sorted (Sparse.insertAll m kvs) := by
  induction kvs generalizing m with
  | nil => exact h
  | cons e kvs ih => exact ih (Sparse.sorted_insert h e.1 e.2)

theorem Sparse.below_insertAll {n : Nat} {m : List (Nat × α)} (h : Sparse.below n m) {kvs : List (Nat × α)}
    (hk : Sparse.below n kvs) : Sparse.below n (Sparse.insertAll m kvs) := by
  induction kvs generalizing m with
  | nil => exact h
  | cons e kvs ih =>
    exact ih (Sparse.below_insert h (hk e List.mem_cons_self) e.2) fun d hd => hk d (List.mem_cons_of_mem _ hd)

/-- In a sorted array the listed pairs are exactly what is found. -/
theorem Sparse.find_eq_some_iff {m : List (Nat × α)} (h : Sparse.sorted m) {k : Nat} {v : α} :
    Sparse.find m k = some v ↔ (k, v) ∈ m := by
  induction m with
  | nil => simp
  | cons e m ih =>
    obtain ⟨j, w⟩ := e
    obtain ⟨hj, hm⟩ := List.pairwise_cons.1 h
    rw [Sparse.find_cons]
    split
    · rename_i hjk
      subst hjk
      constructor
      · intro h; injection h with h; rw [h]; exact List.mem_cons_self
      · intro h
        rcases List.mem_cons.1 h with h | h
        · injection h with _ h; rw [h]
        · exact absurd (hj _ h) (lt_irrefl _)
    · rename_i hjk
      rw [ih hm]
      constructor
      · exact List.mem_cons_of_mem _
      · intro h
        rcases List.mem_cons.1 h with h | h
        · injection h with h _; exact absurd h.symm hjk
        · exact h

/-- Two sorted arrays in which the same is found at every index are equal: equal contents are equal data. -/
theorem Sparse.ext_find {m m' : List (Nat × α)} (h : Sparse.sorted m) (h' : Sparse.sorted m')
    (eq : ∀ k, Sparse.find m k = Sparse.find m' k) : m = m' := by
  have nodup : ∀ {l : List (Nat × α)}, Sparse.sorted l → l.Nodup := fun hl =>
    List.Pairwise.imp (fun hab hne => by rw [hne] at hab; exact lt_irrefl _ hab) hl
  have perm : m.Perm m' := (List.perm_ext_iff_of_nodup (nodup h) (nodup h')).2 fun e => by
    rw [← Sparse.find_eq_some_iff (k := e.1) (v := e.2) h, ← Sparse.find_eq_some_iff (k := e.1) (v := e.2) h', eq]
  exact perm.eq_of_pairwise (fun a b _ _ hab hba => absurd (lt_trans hab hba) (lt_irrefl _)) h h'

/-! ### The slot store -/

/-- A slot read after a slot write. -/
theorem slotAt_putSlot (slots : List (Nat × Slot)) (p : Nat) (v : Slot) (q : Nat) :
    slotAt (putSlot slots p v) q = if q = p then v else slotAt slots q := by
  unfold slotAt putSlot
  by_cases hv : v = Slot.zero
  · rw [if_pos hv, Sparse.find_erase]
    by_cases h : q = p
    · rw [if_pos h, if_pos h, hv]; rfl
    · rw [if_neg h, if_neg h]
  · rw [if_neg hv, Sparse.find_insert]
    by_cases h : q = p
    · rw [if_pos h, if_pos h]; rfl
    · rw [if_neg h, if_neg h]

@[simp] theorem slotAt_putSlot_self (slots : List (Nat × Slot)) (p : Nat) (v : Slot) :
    slotAt (putSlot slots p v) p = v := by
  rw [slotAt_putSlot, if_pos rfl]

theorem slotAt_putSlot_ne (slots : List (Nat × Slot)) {p q : Nat} (v : Slot) (h : q ≠ p) :
    slotAt (putSlot slots p v) q = slotAt slots q := by
  rw [slotAt_putSlot, if_neg h]

@[simp] theorem slotAt_nil (p : Nat) : slotAt [] p = Slot.zero := rfl

/-- A slot write keeps the canonical form of the slot store. -/
theorem Slots.wf_putSlot {L : Nat} {slots : List (Nat × Slot)} (h : Slots.wf L slots) {p : Nat} (hp : p < 2 ^ L) (v : Slot) :
    Slots.wf L (putSlot slots p v) := by
  obtain ⟨hs, hb, hz⟩ := h
  unfold putSlot
  split
  · exact ⟨Sparse.sorted_erase hs p, Sparse.below_erase hb p, fun e he => hz e (Sparse.mem_erase he)⟩
  · rename_i hv
    refine ⟨Sparse.sorted_insert hs p v, Sparse.below_insert hb hp v, fun e he => ?_⟩
    rcases Sparse.mem_insert he with rfl | he
    · exact hv
    · exact hz e he

theorem Slots.wf_nil (L : Nat) : Slots.wf L [] := by simp [Slots.wf, Sparse.sorted, Sparse.below]

/-- What is listed in a canonical slot store. -/
theorem Slots.mem_iff {L : Nat} {slots : List (Nat × Slot)} (h : Slots.wf L slots) {p : Nat} {v : Slot} (hv : v ≠ Slot.zero) :
    (p, v) ∈ slots ↔ slotAt slots p = v := by
  rw [← Sparse.find_eq_some_iff h.1]
  unfold slotAt
  constructor
  · intro h; rw [h]; rfl
  · intro h
    cases hf : Sparse.find slots p with
    | none => rw [hf] at h; exact absurd h.symm hv
    | some w => rw [hf] at h; exact congrArg some h

/-- Beyond the capacity every slot reads as zero. -/
theorem Slots.slotAt_of_le {L : Nat} {slots : List (Nat × Slot)} (h : Slots.wf L slots) {p : Nat} (hp : 2 ^ L ≤ p) :
    slotAt slots p = Slot.zero := by
  unfold slotAt
  cases hf : Sparse.find slots p with
  | none => rfl
  | some w => exact absurd (h.2.1 _ ((Sparse.find_eq_some_iff h.1).1 hf)) (not_lt.2 hp)

/-- Two canonical slot stores in which every slot reads the same are equal data. -/
theorem Slots.ext_slotAt {L : Nat} {a b : List (Nat × Slot)} (ha : Slots.wf L a) (hb : Slots.wf L b)
    (eq : ∀ p, slotAt a p = slotAt b p) : a = b := by
  refine Sparse.ext_find ha.1 hb.1 fun k => ?_
  have key : ∀ {m : List (Nat × Slot)}, Slots.wf L m →
      Sparse.find m k = if slotAt m k = Slot.zero then none else some (slotAt m k) := by
    intro m hm
    unfold slotAt
    cases hf : Sparse.find m k with
    | none => simp
    | some w =>
      have : w ≠ Slot.zero := hm.2.2 _ ((Sparse.find_eq_some_iff hm.1).1 hf)
      simp [this]
  rw [key ha, key hb, eq]

/-- HT.COUNT's number is the number of indexes below the capacity whose slot is occupied. -/
theorem occupied_eq_countP_range {L : Nat} {slots : List (Nat × Slot)} (h : Slots.wf L slots) :
    occupied slots = (List.range (2 ^ L)).countP fun i => (slotAt slots i).hash != 0 := by
  have perm : ((slots.filter fun e => e.2.hash != 0).map (·.1)).Perm
      ((List.range (2 ^ L)).filter fun i => (slotAt slots i).hash != 0) := by
    refine (List.perm_ext_iff_of_nodup ?_ (List.nodup_range.filter _)).2 fun i => ?_
    · refine List.Nodup.of_map id ?_
      rw [List.map_id, List.Nodup, List.pairwise_map]
      exact (List.Pairwise.filter _ h.1).imp fun hab => ne_of_lt hab
    · rw [List.mem_map, List.mem_filter, List.mem_range]
      constructor
      · rintro ⟨⟨k, v⟩, hm, rfl⟩
        obtain ⟨hm, hv⟩ := List.mem_filter.1 hm
        have := (Slots.mem_iff h (h.2.2 _ hm)).1 hm
        exact ⟨h.2.1 _ hm, by rw [this]; exact hv⟩
      · rintro ⟨_, hv⟩
        refine ⟨(i, slotAt slots i), List.mem_filter.2 ⟨(Slots.mem_iff h ?_).2 rfl, hv⟩, rfl⟩
        intro h0; rw [h0] at hv; exact absurd hv (by decide)
  rw [occupied, List.countP_eq_length_filter, List.countP_eq_length_filter, ← perm.length_eq, List.length_map]

/-! ### The source memory -/

theorem Memory.wf_insert {m : List Host.Cell} (h : Memory.wf m) {k : Nat} (hk : k < 2 ^ 32) (v : Byte) :
    Memory.wf (Sparse.insert m k v) := ⟨Sparse.sorted_insert h.1 k v, Sparse.below_insert h.2 hk v⟩

theorem Memory.wf_insertAll {m p : List Host.Cell} (h : Memory.wf m) (hp : Memory.wf p) :
    Memory.wf (Sparse.insertAll m p) := ⟨Sparse.sorted_insertAll h.1 p, Sparse.below_insertAll h.2 hp.2⟩

theorem Memory.wf_nil : Memory.wf [] := by simp [Memory.wf, Sparse.sorted, Sparse.below]

/-- A host write of the source buffer keeps both of its memories canonical. -/
theorem Source.hostWrite_wf {src : Source} (hv : Memory.wf src.visible) (hp : Memory.wf src.pending) (vis : SrcVisibility)
    (r : Bool) (off : Word) (b : Byte) :
    Memory.wf (src.hostWrite vis r off.toNat b).visible ∧ Memory.wf (src.hostWrite vis r off.toNat b).pending := by
  cases vis
  · exact ⟨Memory.wf_insert hv off.isLt b, hp⟩
  · exact ⟨hv, Memory.wf_insert hp off.isLt b⟩

theorem Memory.wf_filter {m : List Host.Cell} (h : Memory.wf m) (q : Host.Cell → Bool) : Memory.wf (m.filter q) :=
  ⟨h.1.filter q, fun e he => h.2 e (List.mem_filter.1 he).1⟩

/-- Publishing keeps both memories canonical. -/
theorem Source.publish_wf {src : Source} (hv : Memory.wf src.visible) (hp : Memory.wf src.pending) (r : Bool) (lo hi : Nat) :
    Memory.wf (src.publish r lo hi).visible ∧ Memory.wf (src.publish r lo hi).pending :=
  ⟨Memory.wf_insertAll hv (Memory.wf_filter hp _), Memory.wf_filter hp _⟩

end Sys2Proof.Machine
end

