-- ==== Sys2Proof/Laws/State.lean ====
section
/-! SUPPORT. What each named update of the state leaves in each field, so that no proof unfolds a record update. -/

namespace Sys2Proof.Machine

/-! ### `s.raise .ht c` -/

@[simp] theorem State.raise_ht_params (s : State) (c : FaultCode) : (s.raise .ht c).params = s.params := rfl
@[simp] theorem State.raise_ht_src (s : State) (c : FaultCode) : (s.raise .ht c).src = s.src := rfl
@[simp] theorem State.raise_ht_schedule (s : State) (c : FaultCode) : (s.raise .ht c).schedule = s.schedule := rfl
@[simp] theorem State.raise_ht_response (s : State) (c : FaultCode) : (s.raise .ht c).response = s.response := rfl
@[simp] theorem State.raise_ht_freeCount (s : State) (c : FaultCode) : (s.raise .ht c).freeCount = s.freeCount := rfl
@[simp] theorem State.raise_ht_era (s : State) (c : FaultCode) : (s.raise .ht c).era = s.era := rfl
@[simp] theorem State.raise_ht_pc (s : State) (c : FaultCode) : (s.raise .ht c).pc = s.pc := rfl
@[simp] theorem State.raise_ht_ht_loglen (s : State) (c : FaultCode) : (s.raise .ht c).ht.loglen = s.ht.loglen := rfl
@[simp] theorem State.raise_ht_ht_slots (s : State) (c : FaultCode) : (s.raise .ht c).ht.slots = s.ht.slots := rfl
@[simp] theorem State.raise_ht_ht_keycount (s : State) (c : FaultCode) : (s.raise .ht c).ht.keycount = s.ht.keycount := rfl
@[simp] theorem State.raise_ht_ht_initLoglen (s : State) (c : FaultCode) : (s.raise .ht c).ht.initLoglen = s.ht.initLoglen := rfl
@[simp] theorem State.raise_ht_ht_zhPolicy (s : State) (c : FaultCode) : (s.raise .ht c).ht.zhPolicy = s.ht.zhPolicy := rfl
@[simp] theorem State.raise_ht_ht_srcLen (s : State) (c : FaultCode) : (s.raise .ht c).ht.srcLen = s.ht.srcLen := rfl
@[simp] theorem State.raise_ht_ht_hash (s : State) (c : FaultCode) : (s.raise .ht c).ht.hash = s.ht.hash := rfl
@[simp] theorem State.raise_ht_ht_candOff (s : State) (c : FaultCode) : (s.raise .ht c).ht.candOff = s.ht.candOff := rfl
@[simp] theorem State.raise_ht_ht_len (s : State) (c : FaultCode) : (s.raise .ht c).ht.len = s.ht.len := rfl
@[simp] theorem State.raise_ht_ht_resOff (s : State) (c : FaultCode) : (s.raise .ht c).ht.resOff = s.ht.resOff := rfl
@[simp] theorem State.raise_ht_ht_resCount (s : State) (c : FaultCode) : (s.raise .ht c).ht.resCount = s.ht.resCount := rfl
@[simp] theorem State.raise_ht_ht_existed (s : State) (c : FaultCode) : (s.raise .ht c).ht.existed = s.ht.existed := rfl
@[simp] theorem State.raise_ht_ht_slotIdx (s : State) (c : FaultCode) : (s.raise .ht c).ht.slotIdx = s.ht.slotIdx := rfl
@[simp] theorem State.raise_ht_ht_slotHash (s : State) (c : FaultCode) : (s.raise .ht c).ht.slotHash = s.ht.slotHash := rfl
@[simp] theorem State.raise_ht_ht_slotOff (s : State) (c : FaultCode) : (s.raise .ht c).ht.slotOff = s.ht.slotOff := rfl
@[simp] theorem State.raise_ht_ht_slotLen (s : State) (c : FaultCode) : (s.raise .ht c).ht.slotLen = s.ht.slotLen := rfl
@[simp] theorem State.raise_ht_ht_task (s : State) (c : FaultCode) : (s.raise .ht c).ht.task = .idle := rfl
@[simp] theorem State.raise_ht_ht_faulted (s : State) (c : FaultCode) : (s.raise .ht c).ht.faulted = true := rfl
@[simp] theorem State.raise_ht_ht_faultCode (s : State) (c : FaultCode) : (s.raise .ht c).ht.faultCode = c.bits := rfl

/-! ### `s.clearFault .ht` -/

@[simp] theorem State.clearFault_ht_params (s : State) : (s.clearFault .ht).params = s.params := rfl
@[simp] theorem State.clearFault_ht_src (s : State) : (s.clearFault .ht).src = s.src := rfl
@[simp] theorem State.clearFault_ht_schedule (s : State) : (s.clearFault .ht).schedule = s.schedule := rfl
@[simp] theorem State.clearFault_ht_response (s : State) : (s.clearFault .ht).response = s.response := rfl
@[simp] theorem State.clearFault_ht_freeCount (s : State) : (s.clearFault .ht).freeCount = s.freeCount := rfl
@[simp] theorem State.clearFault_ht_era (s : State) : (s.clearFault .ht).era = s.era := rfl
@[simp] theorem State.clearFault_ht_pc (s : State) : (s.clearFault .ht).pc = s.pc := rfl
@[simp] theorem State.clearFault_ht_ht_loglen (s : State) : (s.clearFault .ht).ht.loglen = s.ht.loglen := rfl
@[simp] theorem State.clearFault_ht_ht_slots (s : State) : (s.clearFault .ht).ht.slots = s.ht.slots := rfl
@[simp] theorem State.clearFault_ht_ht_keycount (s : State) : (s.clearFault .ht).ht.keycount = s.ht.keycount := rfl
@[simp] theorem State.clearFault_ht_ht_initLoglen (s : State) : (s.clearFault .ht).ht.initLoglen = s.ht.initLoglen := rfl
@[simp] theorem State.clearFault_ht_ht_zhPolicy (s : State) : (s.clearFault .ht).ht.zhPolicy = s.ht.zhPolicy := rfl
@[simp] theorem State.clearFault_ht_ht_srcLen (s : State) : (s.clearFault .ht).ht.srcLen = s.ht.srcLen := rfl
@[simp] theorem State.clearFault_ht_ht_hash (s : State) : (s.clearFault .ht).ht.hash = s.ht.hash := rfl
@[simp] theorem State.clearFault_ht_ht_candOff (s : State) : (s.clearFault .ht).ht.candOff = s.ht.candOff := rfl
@[simp] theorem State.clearFault_ht_ht_len (s : State) : (s.clearFault .ht).ht.len = s.ht.len := rfl
@[simp] theorem State.clearFault_ht_ht_resOff (s : State) : (s.clearFault .ht).ht.resOff = s.ht.resOff := rfl
@[simp] theorem State.clearFault_ht_ht_resCount (s : State) : (s.clearFault .ht).ht.resCount = s.ht.resCount := rfl
@[simp] theorem State.clearFault_ht_ht_existed (s : State) : (s.clearFault .ht).ht.existed = s.ht.existed := rfl
@[simp] theorem State.clearFault_ht_ht_slotIdx (s : State) : (s.clearFault .ht).ht.slotIdx = s.ht.slotIdx := rfl
@[simp] theorem State.clearFault_ht_ht_slotHash (s : State) : (s.clearFault .ht).ht.slotHash = s.ht.slotHash := rfl
@[simp] theorem State.clearFault_ht_ht_slotOff (s : State) : (s.clearFault .ht).ht.slotOff = s.ht.slotOff := rfl
@[simp] theorem State.clearFault_ht_ht_slotLen (s : State) : (s.clearFault .ht).ht.slotLen = s.ht.slotLen := rfl
@[simp] theorem State.clearFault_ht_ht_task (s : State) : (s.clearFault .ht).ht.task = s.ht.task := rfl
@[simp] theorem State.clearFault_ht_ht_faulted (s : State) : (s.clearFault .ht).ht.faulted = false := rfl
@[simp] theorem State.clearFault_ht_ht_faultCode (s : State) : (s.clearFault .ht).ht.faultCode = 0 := rfl

/-! ### `s.start .ht w` -/

@[simp] theorem State.start_ht_params (s : State) (w : Word) : (s.start .ht w).params = s.params := rfl
@[simp] theorem State.start_ht_src (s : State) (w : Word) : (s.start .ht w).src = s.src := rfl
@[simp] theorem State.start_ht_schedule (s : State) (w : Word) : (s.start .ht w).schedule = s.schedule := rfl
@[simp] theorem State.start_ht_response (s : State) (w : Word) : (s.start .ht w).response = s.response := rfl
@[simp] theorem State.start_ht_freeCount (s : State) (w : Word) : (s.start .ht w).freeCount = s.freeCount := rfl
@[simp] theorem State.start_ht_era (s : State) (w : Word) : (s.start .ht w).era = s.era := rfl
@[simp] theorem State.start_ht_pc (s : State) (w : Word) : (s.start .ht w).pc = s.pc := rfl
@[simp] theorem State.start_ht_ht_loglen (s : State) (w : Word) : (s.start .ht w).ht.loglen = s.ht.loglen := rfl
@[simp] theorem State.start_ht_ht_slots (s : State) (w : Word) : (s.start .ht w).ht.slots = s.ht.slots := rfl
@[simp] theorem State.start_ht_ht_keycount (s : State) (w : Word) : (s.start .ht w).ht.keycount = s.ht.keycount := rfl
@[simp] theorem State.start_ht_ht_initLoglen (s : State) (w : Word) : (s.start .ht w).ht.initLoglen = s.ht.initLoglen := rfl
@[simp] theorem State.start_ht_ht_zhPolicy (s : State) (w : Word) : (s.start .ht w).ht.zhPolicy = s.ht.zhPolicy := rfl
@[simp] theorem State.start_ht_ht_srcLen (s : State) (w : Word) : (s.start .ht w).ht.srcLen = s.ht.srcLen := rfl
@[simp] theorem State.start_ht_ht_hash (s : State) (w : Word) : (s.start .ht w).ht.hash = s.ht.hash := rfl
@[simp] theorem State.start_ht_ht_candOff (s : State) (w : Word) : (s.start .ht w).ht.candOff = s.ht.candOff := rfl
@[simp] theorem State.start_ht_ht_len (s : State) (w : Word) : (s.start .ht w).ht.len = s.ht.len := rfl
@[simp] theorem State.start_ht_ht_resOff (s : State) (w : Word) : (s.start .ht w).ht.resOff = s.ht.resOff := rfl
@[simp] theorem State.start_ht_ht_resCount (s : State) (w : Word) : (s.start .ht w).ht.resCount = s.ht.resCount := rfl
@[simp] theorem State.start_ht_ht_existed (s : State) (w : Word) : (s.start .ht w).ht.existed = s.ht.existed := rfl
@[simp] theorem State.start_ht_ht_slotIdx (s : State) (w : Word) : (s.start .ht w).ht.slotIdx = s.ht.slotIdx := rfl
@[simp] theorem State.start_ht_ht_slotHash (s : State) (w : Word) : (s.start .ht w).ht.slotHash = s.ht.slotHash := rfl
@[simp] theorem State.start_ht_ht_slotOff (s : State) (w : Word) : (s.start .ht w).ht.slotOff = s.ht.slotOff := rfl
@[simp] theorem State.start_ht_ht_slotLen (s : State) (w : Word) : (s.start .ht w).ht.slotLen = s.ht.slotLen := rfl
@[simp] theorem State.start_ht_ht_task (s : State) (w : Word) : (s.start .ht w).ht.task = .running w := rfl
@[simp] theorem State.start_ht_ht_faulted (s : State) (w : Word) : (s.start .ht w).ht.faulted = s.ht.faulted := rfl
@[simp] theorem State.start_ht_ht_faultCode (s : State) (w : Word) : (s.start .ht w).ht.faultCode = s.ht.faultCode := rfl

/-! ### `s.raise .pc c` -/

@[simp] theorem State.raise_pc_params (s : State) (c : FaultCode) : (s.raise .pc c).params = s.params := rfl
@[simp] theorem State.raise_pc_src (s : State) (c : FaultCode) : (s.raise .pc c).src = s.src := rfl
@[simp] theorem State.raise_pc_schedule (s : State) (c : FaultCode) : (s.raise .pc c).schedule = s.schedule := rfl
@[simp] theorem State.raise_pc_response (s : State) (c : FaultCode) : (s.raise .pc c).response = s.response := rfl
@[simp] theorem State.raise_pc_freeCount (s : State) (c : FaultCode) : (s.raise .pc c).freeCount = s.freeCount := rfl
@[simp] theorem State.raise_pc_era (s : State) (c : FaultCode) : (s.raise .pc c).era = s.era := rfl
@[simp] theorem State.raise_pc_ht (s : State) (c : FaultCode) : (s.raise .pc c).ht = s.ht := rfl
@[simp] theorem State.raise_pc_pc_numsyms (s : State) (c : FaultCode) : (s.raise .pc c).pc.numsyms = s.pc.numsyms := rfl
@[simp] theorem State.raise_pc_pc_maxlen (s : State) (c : FaultCode) : (s.raise .pc c).pc.maxlen = s.pc.maxlen := rfl
@[simp] theorem State.raise_pc_pc_result (s : State) (c : FaultCode) : (s.raise .pc c).pc.result = s.pc.result := rfl
@[simp] theorem State.raise_pc_pc_task (s : State) (c : FaultCode) : (s.raise .pc c).pc.task = none := rfl
@[simp] theorem State.raise_pc_pc_faulted (s : State) (c : FaultCode) : (s.raise .pc c).pc.faulted = true := rfl
@[simp] theorem State.raise_pc_pc_faultCode (s : State) (c : FaultCode) : (s.raise .pc c).pc.faultCode = c.bits := rfl
@[simp] theorem State.raise_pc_pc_sym (s : State) (c : FaultCode) : (s.raise .pc c).pc.sym = s.pc.sym := rfl
@[simp] theorem State.raise_pc_pc_size (s : State) (c : FaultCode) : (s.raise .pc c).pc.size = s.pc.size := rfl
@[simp] theorem State.raise_pc_pc_code (s : State) (c : FaultCode) : (s.raise .pc c).pc.code = s.pc.code := rfl

/-! ### `s.clearFault .pc` -/

@[simp] theorem State.clearFault_pc_params (s : State) : (s.clearFault .pc).params = s.params := rfl
@[simp] theorem State.clearFault_pc_src (s : State) : (s.clearFault .pc).src = s.src := rfl
@[simp] theorem State.clearFault_pc_schedule (s : State) : (s.clearFault .pc).schedule = s.schedule := rfl
@[simp] theorem State.clearFault_pc_response (s : State) : (s.clearFault .pc).response = s.response := rfl
@[simp] theorem State.clearFault_pc_freeCount (s : State) : (s.clearFault .pc).freeCount = s.freeCount := rfl
@[simp] theorem State.clearFault_pc_era (s : State) : (s.clearFault .pc).era = s.era := rfl
@[simp] theorem State.clearFault_pc_ht (s : State) : (s.clearFault .pc).ht = s.ht := rfl
@[simp] theorem State.clearFault_pc_pc_numsyms (s : State) : (s.clearFault .pc).pc.numsyms = s.pc.numsyms := rfl
@[simp] theorem State.clearFault_pc_pc_maxlen (s : State) : (s.clearFault .pc).pc.maxlen = s.pc.maxlen := rfl
@[simp] theorem State.clearFault_pc_pc_result (s : State) : (s.clearFault .pc).pc.result = s.pc.result := rfl
@[simp] theorem State.clearFault_pc_pc_task (s : State) : (s.clearFault .pc).pc.task = s.pc.task := rfl
@[simp] theorem State.clearFault_pc_pc_faulted (s : State) : (s.clearFault .pc).pc.faulted = false := rfl
@[simp] theorem State.clearFault_pc_pc_faultCode (s : State) : (s.clearFault .pc).pc.faultCode = 0 := rfl
@[simp] theorem State.clearFault_pc_pc_sym (s : State) : (s.clearFault .pc).pc.sym = s.pc.sym := rfl
@[simp] theorem State.clearFault_pc_pc_size (s : State) : (s.clearFault .pc).pc.size = s.pc.size := rfl
@[simp] theorem State.clearFault_pc_pc_code (s : State) : (s.clearFault .pc).pc.code = s.pc.code := rfl

/-! ### `s.start .pc w` -/

@[simp] theorem State.start_pc_params (s : State) (w : Word) : (s.start .pc w).params = s.params := rfl
@[simp] theorem State.start_pc_src (s : State) (w : Word) : (s.start .pc w).src = s.src := rfl
@[simp] theorem State.start_pc_schedule (s : State) (w : Word) : (s.start .pc w).schedule = s.schedule := rfl
@[simp] theorem State.start_pc_response (s : State) (w : Word) : (s.start .pc w).response = s.response := rfl
@[simp] theorem State.start_pc_freeCount (s : State) (w : Word) : (s.start .pc w).freeCount = s.freeCount := rfl
@[simp] theorem State.start_pc_era (s : State) (w : Word) : (s.start .pc w).era = s.era := rfl
@[simp] theorem State.start_pc_ht (s : State) (w : Word) : (s.start .pc w).ht = s.ht := rfl
@[simp] theorem State.start_pc_pc_numsyms (s : State) (w : Word) : (s.start .pc w).pc.numsyms = s.pc.numsyms := rfl
@[simp] theorem State.start_pc_pc_maxlen (s : State) (w : Word) : (s.start .pc w).pc.maxlen = s.pc.maxlen := rfl
@[simp] theorem State.start_pc_pc_result (s : State) (w : Word) : (s.start .pc w).pc.result = s.pc.result := rfl
@[simp] theorem State.start_pc_pc_task (s : State) (w : Word) : (s.start .pc w).pc.task = some w := rfl
@[simp] theorem State.start_pc_pc_faulted (s : State) (w : Word) : (s.start .pc w).pc.faulted = s.pc.faulted := rfl
@[simp] theorem State.start_pc_pc_faultCode (s : State) (w : Word) : (s.start .pc w).pc.faultCode = s.pc.faultCode := rfl
@[simp] theorem State.start_pc_pc_sym (s : State) (w : Word) : (s.start .pc w).pc.sym = s.pc.sym := rfl
@[simp] theorem State.start_pc_pc_size (s : State) (w : Word) : (s.start .pc w).pc.size = s.pc.size := rfl
@[simp] theorem State.start_pc_pc_code (s : State) (w : Word) : (s.start .pc w).pc.code = s.pc.code := rfl

/-! ### `s.finish r` -/

@[simp] theorem State.finish_params (s : State) (r : Word) : (s.finish r).params = s.params := rfl
@[simp] theorem State.finish_src (s : State) (r : Word) : (s.finish r).src = s.src := rfl
@[simp] theorem State.finish_schedule (s : State) (r : Word) : (s.finish r).schedule = s.schedule := rfl
@[simp] theorem State.finish_response (s : State) (r : Word) : (s.finish r).response = s.response := rfl
@[simp] theorem State.finish_freeCount (s : State) (r : Word) : (s.finish r).freeCount = s.freeCount := rfl
@[simp] theorem State.finish_era (s : State) (r : Word) : (s.finish r).era = s.era := rfl
@[simp] theorem State.finish_ht (s : State) (r : Word) : (s.finish r).ht = s.ht := rfl
@[simp] theorem State.finish_pc_numsyms (s : State) (r : Word) : (s.finish r).pc.numsyms = s.pc.numsyms := rfl
@[simp] theorem State.finish_pc_maxlen (s : State) (r : Word) : (s.finish r).pc.maxlen = s.pc.maxlen := rfl
@[simp] theorem State.finish_pc_result (s : State) (r : Word) : (s.finish r).pc.result = r := rfl
@[simp] theorem State.finish_pc_task (s : State) (r : Word) : (s.finish r).pc.task = s.pc.task := rfl
@[simp] theorem State.finish_pc_faulted (s : State) (r : Word) : (s.finish r).pc.faulted = s.pc.faulted := rfl
@[simp] theorem State.finish_pc_faultCode (s : State) (r : Word) : (s.finish r).pc.faultCode = s.pc.faultCode := rfl
@[simp] theorem State.finish_pc_sym (s : State) (r : Word) : (s.finish r).pc.sym = s.pc.sym := rfl
@[simp] theorem State.finish_pc_size (s : State) (r : Word) : (s.finish r).pc.size = s.pc.size := rfl
@[simp] theorem State.finish_pc_code (s : State) (r : Word) : (s.finish r).pc.code = s.pc.code := rfl

/-! ### `h.writeGetResult x off` -/

@[simp] theorem HtUnit.writeGetResult_loglen (h : HtUnit) (x : Bool) (off : Word) : (h.writeGetResult x off).loglen = h.loglen := rfl
@[simp] theorem HtUnit.writeGetResult_slots (h : HtUnit) (x : Bool) (off : Word) : (h.writeGetResult x off).slots = h.slots := rfl
@[simp] theorem HtUnit.writeGetResult_keycount (h : HtUnit) (x : Bool) (off : Word) : (h.writeGetResult x off).keycount = h.keycount := rfl
@[simp] theorem HtUnit.writeGetResult_initLoglen (h : HtUnit) (x : Bool) (off : Word) : (h.writeGetResult x off).initLoglen = h.initLoglen := rfl
@[simp] theorem HtUnit.writeGetResult_zhPolicy (h : HtUnit) (x : Bool) (off : Word) : (h.writeGetResult x off).zhPolicy = h.zhPolicy := rfl
@[simp] theorem HtUnit.writeGetResult_srcLen (h : HtUnit) (x : Bool) (off : Word) : (h.writeGetResult x off).srcLen = h.srcLen := rfl
@[simp] theorem HtUnit.writeGetResult_hash (h : HtUnit) (x : Bool) (off : Word) : (h.writeGetResult x off).hash = h.hash := rfl
@[simp] theorem HtUnit.writeGetResult_candOff (h : HtUnit) (x : Bool) (off : Word) : (h.writeGetResult x off).candOff = h.candOff := rfl
@[simp] theorem HtUnit.writeGetResult_len (h : HtUnit) (x : Bool) (off : Word) : (h.writeGetResult x off).len = h.len := rfl
@[simp] theorem HtUnit.writeGetResult_resOff (h : HtUnit) (x : Bool) (off : Word) : (h.writeGetResult x off).resOff = off := rfl
@[simp] theorem HtUnit.writeGetResult_resCount (h : HtUnit) (x : Bool) (off : Word) : (h.writeGetResult x off).resCount = h.resCount := rfl
@[simp] theorem HtUnit.writeGetResult_existed (h : HtUnit) (x : Bool) (off : Word) : (h.writeGetResult x off).existed = x := rfl
@[simp] theorem HtUnit.writeGetResult_slotIdx (h : HtUnit) (x : Bool) (off : Word) : (h.writeGetResult x off).slotIdx = h.slotIdx := rfl
@[simp] theorem HtUnit.writeGetResult_slotHash (h : HtUnit) (x : Bool) (off : Word) : (h.writeGetResult x off).slotHash = h.slotHash := rfl
@[simp] theorem HtUnit.writeGetResult_slotOff (h : HtUnit) (x : Bool) (off : Word) : (h.writeGetResult x off).slotOff = h.slotOff := rfl
@[simp] theorem HtUnit.writeGetResult_slotLen (h : HtUnit) (x : Bool) (off : Word) : (h.writeGetResult x off).slotLen = h.slotLen := rfl
@[simp] theorem HtUnit.writeGetResult_task (h : HtUnit) (x : Bool) (off : Word) : (h.writeGetResult x off).task = h.task := rfl
@[simp] theorem HtUnit.writeGetResult_faulted (h : HtUnit) (x : Bool) (off : Word) : (h.writeGetResult x off).faulted = h.faulted := rfl
@[simp] theorem HtUnit.writeGetResult_faultCode (h : HtUnit) (x : Bool) (off : Word) : (h.writeGetResult x off).faultCode = h.faultCode := rfl

/-! ### `h.initTable L` -/

@[simp] theorem HtUnit.initTable_loglen (h : HtUnit) (L : Nat) : (h.initTable L).loglen = L := rfl
@[simp] theorem HtUnit.initTable_slots (h : HtUnit) (L : Nat) : (h.initTable L).slots = [] := rfl
@[simp] theorem HtUnit.initTable_keycount (h : HtUnit) (L : Nat) : (h.initTable L).keycount = 0 := rfl
@[simp] theorem HtUnit.initTable_initLoglen (h : HtUnit) (L : Nat) : (h.initTable L).initLoglen = h.initLoglen := rfl
@[simp] theorem HtUnit.initTable_zhPolicy (h : HtUnit) (L : Nat) : (h.initTable L).zhPolicy = h.zhPolicy := rfl
@[simp] theorem HtUnit.initTable_srcLen (h : HtUnit) (L : Nat) : (h.initTable L).srcLen = h.srcLen := rfl
@[simp] theorem HtUnit.initTable_hash (h : HtUnit) (L : Nat) : (h.initTable L).hash = h.hash := rfl
@[simp] theorem HtUnit.initTable_candOff (h : HtUnit) (L : Nat) : (h.initTable L).candOff = h.candOff := rfl
@[simp] theorem HtUnit.initTable_len (h : HtUnit) (L : Nat) : (h.initTable L).len = h.len := rfl
@[simp] theorem HtUnit.initTable_resOff (h : HtUnit) (L : Nat) : (h.initTable L).resOff = 0 := rfl
@[simp] theorem HtUnit.initTable_resCount (h : HtUnit) (L : Nat) : (h.initTable L).resCount = 0 := rfl
@[simp] theorem HtUnit.initTable_existed (h : HtUnit) (L : Nat) : (h.initTable L).existed = false := rfl
@[simp] theorem HtUnit.initTable_slotIdx (h : HtUnit) (L : Nat) : (h.initTable L).slotIdx = h.slotIdx := rfl
@[simp] theorem HtUnit.initTable_slotHash (h : HtUnit) (L : Nat) : (h.initTable L).slotHash = 0 := rfl
@[simp] theorem HtUnit.initTable_slotOff (h : HtUnit) (L : Nat) : (h.initTable L).slotOff = 0 := rfl
@[simp] theorem HtUnit.initTable_slotLen (h : HtUnit) (L : Nat) : (h.initTable L).slotLen = 0 := rfl
@[simp] theorem HtUnit.initTable_task (h : HtUnit) (L : Nat) : (h.initTable L).task = h.task := rfl
@[simp] theorem HtUnit.initTable_faulted (h : HtUnit) (L : Nat) : (h.initTable L).faulted = h.faulted := rfl
@[simp] theorem HtUnit.initTable_faultCode (h : HtUnit) (L : Nat) : (h.initTable L).faultCode = h.faultCode := rfl

/-! ### `h.writeConfig v` -/

@[simp] theorem HtUnit.writeConfig_loglen (h : HtUnit) (v : Word) : (h.writeConfig v).loglen = h.loglen := rfl
@[simp] theorem HtUnit.writeConfig_slots (h : HtUnit) (v : Word) : (h.writeConfig v).slots = h.slots := rfl
@[simp] theorem HtUnit.writeConfig_keycount (h : HtUnit) (v : Word) : (h.writeConfig v).keycount = h.keycount := rfl
@[simp] theorem HtUnit.writeConfig_initLoglen (h : HtUnit) (v : Word) : (h.writeConfig v).initLoglen = v.extractLsb' 0 6 := rfl
@[simp] theorem HtUnit.writeConfig_zhPolicy (h : HtUnit) (v : Word) : (h.writeConfig v).zhPolicy = v.getLsbD 8 := rfl
@[simp] theorem HtUnit.writeConfig_srcLen (h : HtUnit) (v : Word) : (h.writeConfig v).srcLen = h.srcLen := rfl
@[simp] theorem HtUnit.writeConfig_hash (h : HtUnit) (v : Word) : (h.writeConfig v).hash = h.hash := rfl
@[simp] theorem HtUnit.writeConfig_candOff (h : HtUnit) (v : Word) : (h.writeConfig v).candOff = h.candOff := rfl
@[simp] theorem HtUnit.writeConfig_len (h : HtUnit) (v : Word) : (h.writeConfig v).len = h.len := rfl
@[simp] theorem HtUnit.writeConfig_resOff (h : HtUnit) (v : Word) : (h.writeConfig v).resOff = h.resOff := rfl
@[simp] theorem HtUnit.writeConfig_resCount (h : HtUnit) (v : Word) : (h.writeConfig v).resCount = h.resCount := rfl
@[simp] theorem HtUnit.writeConfig_existed (h : HtUnit) (v : Word) : (h.writeConfig v).existed = h.existed := rfl
@[simp] theorem HtUnit.writeConfig_slotIdx (h : HtUnit) (v : Word) : (h.writeConfig v).slotIdx = h.slotIdx := rfl
@[simp] theorem HtUnit.writeConfig_slotHash (h : HtUnit) (v : Word) : (h.writeConfig v).slotHash = h.slotHash := rfl
@[simp] theorem HtUnit.writeConfig_slotOff (h : HtUnit) (v : Word) : (h.writeConfig v).slotOff = h.slotOff := rfl
@[simp] theorem HtUnit.writeConfig_slotLen (h : HtUnit) (v : Word) : (h.writeConfig v).slotLen = h.slotLen := rfl
@[simp] theorem HtUnit.writeConfig_task (h : HtUnit) (v : Word) : (h.writeConfig v).task = h.task := rfl
@[simp] theorem HtUnit.writeConfig_faulted (h : HtUnit) (v : Word) : (h.writeConfig v).faulted = h.faulted := rfl
@[simp] theorem HtUnit.writeConfig_faultCode (h : HtUnit) (v : Word) : (h.writeConfig v).faultCode = h.faultCode := rfl

/-! ### `s.doReset timing` -/

@[simp] theorem State.doReset_params (s : State) (timing : Timing) : (s.doReset timing).params = s.params := rfl
@[simp] theorem State.doReset_pc (s : State) (timing : Timing) : (s.doReset timing).pc = PcUnit.reset := rfl
@[simp] theorem State.doReset_src (s : State) (timing : Timing) : (s.doReset timing).src = s.src.settle := rfl
@[simp] theorem State.doReset_schedule (s : State) (timing : Timing) : (s.doReset timing).schedule = s.schedule := rfl
@[simp] theorem State.doReset_response (s : State) (timing : Timing) : (s.doReset timing).response = s.response := rfl
@[simp] theorem State.doReset_freeCount (s : State) (timing : Timing) : (s.doReset timing).freeCount = s.freeCount := rfl
@[simp] theorem State.doReset_era (s : State) (timing : Timing) : (s.doReset timing).era = s.era + 1 := rfl

/-! ### the source buffer -/

@[simp] theorem Source.settle_visible (src : Source) : src.settle.visible = src.visible := rfl
@[simp] theorem Source.settle_pending (src : Source) : src.settle.pending = src.pending := rfl
@[simp] theorem Source.settle_raced (src : Source) : src.settle.raced = [] := rfl
@[simp] theorem Source.publish_pending (src : Source) (r : Bool) (lo hi : Nat) : (src.publish r lo hi).pending = src.pending.filter fun c => !(decide (lo ≤ c.1) && decide (c.1 < hi)) := rfl
@[simp] theorem Source.publish_visible (src : Source) (r : Bool) (lo hi : Nat) : (src.publish r lo hi).visible = Sparse.insertAll src.visible (src.covered lo hi) := rfl
@[simp] theorem Source.publish_idle_raced (src : Source) (lo hi : Nat) : (src.publish false lo hi).raced = src.raced := rfl
@[simp] theorem Source.hostWrite_idle_raced (src : Source) (vis : SrcVisibility) (off : Nat) (b : Byte) : (src.hostWrite vis false off b).raced = src.raced := rfl
@[simp] theorem Source.hostWrite_running_raced (src : Source) (vis : SrcVisibility) (off : Nat) (b : Byte) : (src.hostWrite vis true off b).raced = off :: src.raced := rfl
@[simp] theorem State.busError_response (s : State) : s.busError.response = .error := rfl
@[simp] theorem State.busError_ht (s : State) : s.busError.ht = s.ht := rfl
@[simp] theorem State.busError_pc (s : State) : s.busError.pc = s.pc := rfl
@[simp] theorem State.busError_src (s : State) : s.busError.src = s.src := rfl
@[simp] theorem State.busError_params (s : State) : s.busError.params = s.params := rfl
@[simp] theorem State.busError_schedule (s : State) : s.busError.schedule = s.schedule := rfl
@[simp] theorem State.busError_freeCount (s : State) : s.busError.freeCount = s.freeCount := rfl
@[simp] theorem State.busError_era (s : State) : s.busError.era = s.era := rfl
@[simp] theorem Source.hostWrite_coherent_pending (src : Source) (r : Bool) (off : Nat) (b : Byte) : (src.hostWrite .coherent r off b).pending = src.pending := rfl
@[simp] theorem Source.hostWrite_coherent_visible (src : Source) (r : Bool) (off : Nat) (b : Byte) : (src.hostWrite .coherent r off b).visible = Sparse.insert src.visible off b := rfl
@[simp] theorem Source.hostWrite_explicit_visible (src : Source) (r : Bool) (off : Nat) (b : Byte) : (src.hostWrite .explicit r off b).visible = src.visible := rfl
@[simp] theorem Source.hostWrite_explicit_pending (src : Source) (r : Bool) (off : Nat) (b : Byte) : (src.hostWrite .explicit r off b).pending = Sparse.insert src.pending off b := rfl

end Sys2Proof.Machine
end

