-- ==== Sys2Proof/Laws/HashTable.lean ====
section
/-! SUPPORT. What the HT unit's shared procedures do: slot arithmetic, termination of a probe (40_hash_table.md R153), what a probe and
a resize leave in the slot store, and that both keep its canonical form. -/

namespace Sys2Proof.Machine

/-! ### Slot arithmetic -/

theorem two_pow_pos (L : Nat) : 0 < 2 ^ L := Nat.two_pow_pos L

/-- R138: a home slot is in 0..mask. -/
theorem homeSlot_lt {L : Nat} (h : L ≤ 32) (x : Word) : homeSlot L x < 2 ^ L := by
  unfold homeSlot
  rw [BitVec.toNat_ushiftRight, Nat.shiftRight_eq_div_pow]
  refine Nat.div_lt_of_lt_mul ?_
  rw [← Nat.pow_add, Nat.sub_add_cancel h]
  exact x.isLt

theorem nextSlot_lt (L p : Nat) : nextSlot L p < 2 ^ L := Nat.mod_lt _ (two_pow_pos L)

theorem displacement_lt (L p : Nat) (x : Word) : displacement L p x < 2 ^ L := Nat.mod_lt _ (two_pow_pos L)

/-- R141: an occupant is its displacement past its home slot, around the table. -/
theorem home_add_displacement {L p : Nat} (h : L ≤ 32) (hp : p < 2 ^ L) (x : Word) :
    (homeSlot L x + displacement L p x) % 2 ^ L = p := by
  have hh := homeSlot_lt h x
  unfold displacement
  rw [Nat.add_mod_mod, show homeSlot L x + (p + 2 ^ L - homeSlot L x) = p + 2 ^ L by omega,
    Nat.add_mod_right, Nat.mod_eq_of_lt hp]

/-- The displacement of an entry that stands `k` slots past its home slot. -/
theorem displacement_home_add {L k : Nat} (h : L ≤ 32) (hk : k < 2 ^ L) (x : Word) :
    displacement L ((homeSlot L x + k) % 2 ^ L) x = k := by
  have hh := homeSlot_lt h x
  unfold displacement
  rcases Nat.lt_or_ge (homeSlot L x + k) (2 ^ L) with hlt | hge
  · rw [Nat.mod_eq_of_lt hlt, show homeSlot L x + k + 2 ^ L - homeSlot L x = k + 2 ^ L by omega,
      Nat.add_mod_right, Nat.mod_eq_of_lt hk]
  · rw [Nat.mod_eq_sub_mod hge, Nat.mod_eq_of_lt (a := homeSlot L x + k - 2 ^ L) (by omega),
      show homeSlot L x + k - 2 ^ L + 2 ^ L - homeSlot L x = k by omega, Nat.mod_eq_of_lt hk]

/-- Walking on from the next slot. -/
theorem nextSlot_add (L p d : Nat) : (nextSlot L p + d) % 2 ^ L = (p + (d + 1)) % 2 ^ L := by
  unfold nextSlot
  rw [Nat.mod_add_mod]
  congr 1
  omega

/-- Fewer than `2 ^ L` steps lead away from a slot. -/
theorem add_mod_ne {L p d : Nat} (hp : p < 2 ^ L) (h0 : 0 < d) (hd : d < 2 ^ L) : (p + d) % 2 ^ L ≠ p := by
  rcases Nat.lt_or_ge (p + d) (2 ^ L) with h | h
  · rw [Nat.mod_eq_of_lt h]; omega
  · rw [Nat.mod_eq_sub_mod h, Nat.mod_eq_of_lt (by omega)]; omega

/-! ### Counting the slots with a property -/

/-- The number of slots of a table of `2 ^ L` slots with the property `P`. -/
def slotCount (L : Nat) (P : Slot → Bool) (slots : List (Nat × Slot)) : Nat :=
  (List.range (2 ^ L)).countP fun i => P (slotAt slots i)

theorem countP_range_update (n : Nat) (f g : Nat → Bool) (p : Nat) (hp : p < n) (h : ∀ i, i ≠ p → f i = g i) :
    (List.range n).countP f + (g p).toNat = (List.range n).countP g + (f p).toNat := by
  induction n with
  | zero => omega
  | succ n ih =>
    rw [List.range_succ, List.countP_append, List.countP_append, List.countP_singleton, List.countP_singleton]
    rcases Nat.lt_or_ge p n with hlt | hge
    · have := ih hlt
      rw [h n (by omega)]
      omega
    · obtain rfl : p = n := by omega
      have : (List.range p).countP f = (List.range p).countP g :=
        List.countP_congr fun i hi => by rw [h i (by have := List.mem_range.1 hi; omega)]
      rw [this]
      cases f p <;> cases g p <;> rfl

/-- A slot write changes the count by what it takes away and what it puts there. -/
theorem slotCount_putSlot {L : Nat} (P : Slot → Bool) (slots : List (Nat × Slot)) {p : Nat} (hp : p < 2 ^ L) (v : Slot) :
    slotCount L P (putSlot slots p v) + (P (slotAt slots p)).toNat = slotCount L P slots + (P v).toNat := by
  have := countP_range_update (2 ^ L) (fun i => P (slotAt (putSlot slots p v) i)) (fun i => P (slotAt slots i)) p hp
    fun i hi => by rw [slotAt_putSlot_ne _ _ hi]
  rwa [slotAt_putSlot_self] at this

theorem slotCount_nil {L : Nat} {P : Slot → Bool} (h0 : P Slot.zero = false) : slotCount L P [] = 0 := by
  unfold slotCount
  rw [List.countP_eq_zero]
  intro i _
  rw [slotAt_nil, h0]
  exact Bool.false_ne_true

theorem slotCount_le (L : Nat) (P : Slot → Bool) (slots : List (Nat × Slot)) : slotCount L P slots ≤ 2 ^ L := by
  have := List.countP_le_length (p := fun i => P (slotAt slots i)) (l := List.range (2 ^ L))
  rwa [List.length_range] at this

/-- In a canonical slot store the slots with a property that the zero slot has not are all listed. -/
theorem slotCount_eq_countP {L : Nat} {slots : List (Nat × Slot)} (h : Slots.wf L slots) {P : Slot → Bool}
    (h0 : P Slot.zero = false) : slotCount L P slots = slots.countP fun e => P e.2 := by
  have perm : ((slots.filter fun e => P e.2).map (·.1)).Perm ((List.range (2 ^ L)).filter fun i => P (slotAt slots i)) := by
    refine (List.perm_ext_iff_of_nodup ?_ (List.nodup_range.filter _)).2 fun i => ?_
    · rw [List.Nodup, List.pairwise_map]
      exact (List.Pairwise.filter _ h.1).imp fun hab => ne_of_lt hab
    · rw [List.mem_map, List.mem_filter, List.mem_range]
      constructor
      · rintro ⟨⟨k, v⟩, hm, rfl⟩
        obtain ⟨hm, hv⟩ := List.mem_filter.1 hm
        exact ⟨h.2.1 _ hm, by rw [(Slots.mem_iff h (h.2.2 _ hm)).1 hm]; exact hv⟩
      · rintro ⟨_, hv⟩
        refine ⟨(i, slotAt slots i), List.mem_filter.2 ⟨(Slots.mem_iff h ?_).2 rfl, hv⟩, rfl⟩
        intro hz; rw [hz, h0] at hv; cases hv
  rw [slotCount, List.countP_eq_length_filter, List.countP_eq_length_filter, ← perm.length_eq, List.length_map]

/-- The property of being occupied (10_state.md R43). -/
def isOccupied (t : Slot) : Bool := t.hash != 0

theorem occupied_eq_slotCount {L : Nat} {slots : List (Nat × Slot)} (h : Slots.wf L slots) :
    occupied slots = slotCount L isOccupied slots := (slotCount_eq_countP (P := isOccupied) h (by decide)).symm

/-- A table with fewer occupied slots than slots has an empty one. -/
theorem exists_empty {L : Nat} {slots : List (Nat × Slot)} (h : slotCount L isOccupied slots < 2 ^ L) :
    ∃ i < 2 ^ L, (slotAt slots i).hash = 0 := by
  by_contra hne
  push Not at hne
  have : slotCount L isOccupied slots = (List.range (2 ^ L)).length :=
    List.countP_eq_length.2 fun i hi => by
      simpa [isOccupied] using hne i (List.mem_range.1 hi)
  rw [List.length_range] at this
  omega

/-- A table with an empty slot has fewer occupied slots than slots. -/
theorem slotCount_lt_of_empty {L : Nat} {slots : List (Nat × Slot)} {i : Nat} (hi : i < 2 ^ L)
    (h : (slotAt slots i).hash = 0) : slotCount L isOccupied slots < 2 ^ L := by
  refine lt_of_le_of_ne (slotCount_le L _ _) fun heq => ?_
  have := (List.countP_eq_length (p := fun i => isOccupied (slotAt slots i)) (l := List.range (2 ^ L))).1
    (by rw [List.length_range]; exact heq) i (List.mem_range.2 hi)
  rw [isOccupied, h] at this
  exact absurd this (by decide)

/-- R146: the load limit is below the capacity. -/
theorem threshold_lt (L : Nat) : threshold L < 2 ^ L := by
  unfold threshold
  have := two_pow_pos L
  omega

/-- R45: the load limit is 3/4 of the capacity, rounded down. -/
theorem threshold_eq (L : Nat) : threshold L = 3 * 2 ^ L / 4 := by
  unfold threshold
  rcases L with _ | _ | L
  · rfl
  · rfl
  · have : 2 ^ (L + 2) = 4 * 2 ^ L := by rw [Nat.pow_succ, Nat.pow_succ]; omega
    rw [this]
    omega

/-! ### The probe -/

/-- R153: a probe that can reach an empty slot within its visits ends. -/
theorem probeLoop_isSome {L : Nat} (hit : Nat → Slot → Bool) (e : Slot) (fuel visit : Nat) (slots : List (Nat × Slot))
    (p dist : Nat) (cur : Slot) (cand : Bool) (d : Nat) (hp : p < 2 ^ L) (hf : d < fuel) (hd : d < 2 ^ L)
    (empty : (slotAt slots ((p + d) % 2 ^ L)).hash = 0) :
    (probeLoop L hit e fuel visit slots p dist cur cand).isSome = true := by
  induction fuel generalizing visit slots p dist cur cand d with
  | zero => omega
  | succ fuel ih =>
    rw [probeLoop]
    split
    · rfl
    · rename_i hne
      have h0 : 0 < d := by
        rcases Nat.eq_zero_or_pos d with rfl | h
        · rw [Nat.add_zero, Nat.mod_eq_of_lt hp] at empty; exact absurd empty hne
        · exact h
      have next : (nextSlot L p + (d - 1)) % 2 ^ L = (p + d) % 2 ^ L := by
        rw [nextSlot_add, Nat.sub_add_cancel h0]
      split
      · rfl
      · split
        · refine ih _ _ _ _ _ _ (d - 1) (nextSlot_lt L p) (by omega) (by omega) ?_
          rw [next, slotAt_putSlot_ne _ _ (add_mod_ne hp h0 hd)]
          exact empty
        · refine ih _ _ _ _ _ _ (d - 1) (nextSlot_lt L p) (by omega) (by omega) ?_
          rw [next]
          exact empty

/-- R153: a probe of a table that is not full ends. -/
theorem probe_isSome {L : Nat} (hL : L ≤ 32) (hit : Nat → Slot → Bool) {slots : List (Nat × Slot)} (e : Slot) (cand : Bool)
    (h : slotCount L isOccupied slots < 2 ^ L) : (probe L hit slots e cand).isSome = true := by
  obtain ⟨i, hi, empty⟩ := exists_empty h
  have hd := displacement_lt L i e.hash
  exact probeLoop_isSome hit e _ _ _ _ _ _ _ (displacement L i e.hash) (homeSlot_lt hL _) hd hd
    (by rw [home_add_displacement hL hi]; exact empty)

/-- What a probe keeps and returns: a slot of the table that a match left as it was, or the entry inserted. -/
theorem probeLoop_cases {L : Nat} {hit : Nat → Slot → Bool} {e : Slot} {fuel visit : Nat} {slots : List (Nat × Slot)}
    {p dist : Nat} {cur : Slot} {cand : Bool} {r : Probed} (hp : p < 2 ^ L)
    (h : probeLoop L hit e fuel visit slots p dist cur cand = some r) :
    (r.existed = true ∧ cand = true ∧ r.slots = slots ∧
      ∃ q < 2 ^ L, ∃ v, (slotAt slots q).hash ≠ 0 ∧ (slotAt slots q).hash = e.hash ∧ hit v (slotAt slots q) = true ∧
        r.offset = (slotAt slots q).offset) ∨
    (r.existed = false ∧ r.offset = e.offset) := by
  induction fuel generalizing visit slots p dist cur cand with
  | zero => cases h
  | succ fuel ih =>
    rw [probeLoop] at h
    split at h
    · injection h with h; subst h; exact .inr ⟨rfl, rfl⟩
    · rename_i hne
      split at h
      · rename_i hc
        simp only [Bool.and_eq_true, beq_iff_eq] at hc
        injection h with h; subst h
        exact .inl ⟨rfl, hc.1.1, rfl, p, hp, visit, hne, hc.1.2, hc.2, rfl⟩
      · split at h
        · rcases ih (nextSlot_lt L p) h with ⟨_, hc, _⟩ | hr
          · cases hc
          · exact .inr hr
        · exact ih (nextSlot_lt L p) h

/-- R139-R145, once: a probe that ends found a stored copy and changed nothing, or inserted its entry. -/
theorem probe_cases {L : Nat} (hL : L ≤ 32) {hit : Nat → Slot → Bool} {slots : List (Nat × Slot)} {e : Slot} {cand : Bool}
    {r : Probed} (h : probe L hit slots e cand = some r) :
    (r.existed = true ∧ cand = true ∧ r.slots = slots ∧
      ∃ q < 2 ^ L, ∃ v, (slotAt slots q).hash ≠ 0 ∧ (slotAt slots q).hash = e.hash ∧ hit v (slotAt slots q) = true ∧
        r.offset = (slotAt slots q).offset) ∨
    (r.existed = false ∧ r.offset = e.offset) := probeLoop_cases (homeSlot_lt hL _) h

/-- An insertion adds the entry in hand and loses none: the count of any kind of occupied slot grows by what is inserted. -/
theorem probeLoop_slotCount {L : Nat} {hit : Nat → Slot → Bool} {e : Slot} {fuel visit : Nat} {slots : List (Nat × Slot)}
    {p dist : Nat} {cur : Slot} {cand : Bool} {r : Probed} (hp : p < 2 ^ L) {P : Slot → Bool}
    (hP : ∀ t : Slot, t.hash = 0 → P t = false)
    (h : probeLoop L hit e fuel visit slots p dist cur cand = some r) (hr : r.existed = false) :
    slotCount L P r.slots = slotCount L P slots + (P cur).toNat := by
  induction fuel generalizing visit slots p dist cur cand with
  | zero => cases h
  | succ fuel ih =>
    rw [probeLoop] at h
    split at h
    · rename_i h0
      injection h with h; subst h
      have := slotCount_putSlot P slots hp cur
      rw [hP _ h0] at this
      exact this
    · split at h
      · injection h with h; subst h; cases hr
      · split at h
        · have := ih (nextSlot_lt L p) h
          have hput := slotCount_putSlot P slots hp cur
          omega
        · exact ih (nextSlot_lt L p) h

theorem probe_slotCount {L : Nat} (hL : L ≤ 32) {hit : Nat → Slot → Bool} {slots : List (Nat × Slot)} {e : Slot} {cand : Bool}
    {r : Probed} {P : Slot → Bool} (hP : ∀ t : Slot, t.hash = 0 → P t = false) (h : probe L hit slots e cand = some r)
    (hr : r.existed = false) : slotCount L P r.slots = slotCount L P slots + (P e).toNat :=
  probeLoop_slotCount (homeSlot_lt hL _) hP h hr

/-- A probe keeps the canonical form of the slot store. -/
theorem probeLoop_wf {L : Nat} {hit : Nat → Slot → Bool} {e : Slot} {fuel visit : Nat} {slots : List (Nat × Slot)}
    {p dist : Nat} {cur : Slot} {cand : Bool} {r : Probed} (hp : p < 2 ^ L) (wf : Slots.wf L slots)
    (h : probeLoop L hit e fuel visit slots p dist cur cand = some r) : Slots.wf L r.slots := by
  induction fuel generalizing visit slots p dist cur cand with
  | zero => cases h
  | succ fuel ih =>
    rw [probeLoop] at h
    split at h
    · injection h with h; subst h; exact Slots.wf_putSlot wf hp _
    · split at h
      · injection h with h; subst h; exact wf
      · split at h
        · exact ih (nextSlot_lt L p) (Slots.wf_putSlot wf hp _) h
        · exact ih (nextSlot_lt L p) wf h

theorem probe_wf {L : Nat} (hL : L ≤ 32) {hit : Nat → Slot → Bool} {slots : List (Nat × Slot)} {e : Slot} {cand : Bool}
    {r : Probed} (wf : Slots.wf L slots) (h : probe L hit slots e cand = some r) : Slots.wf L r.slots :=
  probeLoop_wf (homeSlot_lt hL _) wf h

/-! ### Placing and resizing -/

/-- R149, once: a placement that ends adds its entry, loses none and keeps the canonical form. -/
theorem place_spec {L : Nat} (hL : L ≤ 32) {slots slots' : List (Nat × Slot)} {e : Slot} (wf : Slots.wf L slots)
    (h : place L slots e = some slots') :
    Slots.wf L slots' ∧ ∀ P : Slot → Bool, (∀ t : Slot, t.hash = 0 → P t = false) →
      slotCount L P slots' = slotCount L P slots + (P e).toNat := by
  rw [place, Option.map_eq_some_iff] at h
  obtain ⟨r, hr, rfl⟩ := h
  refine ⟨probe_wf hL wf hr, fun P hP => probe_slotCount hL hP hr ?_⟩
  rcases probe_cases hL hr with ⟨_, hc, _⟩ | ⟨hf, _⟩
  · cases hc
  · exact hf

theorem place_isSome {L : Nat} (hL : L ≤ 32) {slots : List (Nat × Slot)} (e : Slot)
    (h : slotCount L isOccupied slots < 2 ^ L) : (place L slots e).isSome = true := by
  rw [place, Option.isSome_map]
  exact probe_isSome hL _ e false h

/-- R147, once: a reinsertion that ends adds every occupied entry of the old table and loses none. -/
theorem reinsert_spec {L : Nat} (hL : L ≤ 32) (old : List (Nat × Slot)) {slots slots' : List (Nat × Slot)}
    (wf : Slots.wf L slots) (h : reinsert L old slots = some slots') :
    Slots.wf L slots' ∧ ∀ P : Slot → Bool, (∀ t : Slot, t.hash = 0 → P t = false) →
      slotCount L P slots' = slotCount L P slots + old.countP fun e => P e.2 := by
  induction old generalizing slots with
  | nil =>
    rw [reinsert] at h
    injection h with h; subst h
    exact ⟨wf, fun P _ => by simp⟩
  | cons x old ih =>
    obtain ⟨k, e⟩ := x
    rw [reinsert] at h
    split at h
    · rename_i h0
      obtain ⟨hw, hc⟩ := ih wf h
      refine ⟨hw, fun P hP => ?_⟩
      rw [hc P hP, List.countP_cons, hP e h0]
      simp
    · rw [Option.bind_eq_some_iff] at h
      obtain ⟨mid, hm, h⟩ := h
      obtain ⟨hw1, hc1⟩ := place_spec hL wf hm
      obtain ⟨hw, hc⟩ := ih hw1 h
      refine ⟨hw, fun P hP => ?_⟩
      rw [hc P hP, hc1 P hP, List.countP_cons]
      cases P e
      · simp
      · simp only [Bool.toNat_true, if_true]
        omega

/-- A reinsertion into a table with room for every occupied entry ends. -/
theorem reinsert_isSome {L : Nat} (hL : L ≤ 32) (old : List (Nat × Slot)) {slots : List (Nat × Slot)} (wf : Slots.wf L slots)
    (room : slotCount L isOccupied slots + occupied old ≤ 2 ^ L) : (reinsert L old slots).isSome = true := by
  induction old generalizing slots with
  | nil => rfl
  | cons x old ih =>
    obtain ⟨k, e⟩ := x
    rw [reinsert]
    rw [occupied, List.countP_cons] at room
    split
    · exact ih wf (by rw [occupied]; omega)
    · rename_i h0
      have hocc : (e.hash != 0) = true := by simpa using h0
      simp only [hocc, if_true] at room
      have hs := place_isSome hL (slots := slots) e (by omega)
      obtain ⟨mid, hm⟩ := Option.isSome_iff_exists.1 hs
      obtain ⟨hw, hc⟩ := place_spec hL wf hm
      rw [hm, Option.bind_some]
      refine ih hw ?_
      have := hc isOccupied fun t ht => by rw [isOccupied, ht]; rfl
      have he : isOccupied e = true := hocc
      rw [he] at this
      rw [occupied, this]
      simp only [Bool.toNat_true]
      omega

/-- R147, once: the doubled table holds exactly the occupied entries of the old one, in canonical form. -/
theorem resize_spec {L : Nat} (hL : L + 1 ≤ 32) {slots slots' : List (Nat × Slot)} (wf : Slots.wf L slots)
    (h : resize L slots = some slots') :
    Slots.wf (L + 1) slots' ∧ ∀ P : Slot → Bool, (∀ t : Slot, t.hash = 0 → P t = false) →
      slotCount (L + 1) P slots' = slotCount L P slots := by
  obtain ⟨hw, hc⟩ := reinsert_spec hL slots (Slots.wf_nil _) h
  refine ⟨hw, fun P hP => ?_⟩
  rw [hc P hP, slotCount_nil (hP _ rfl), slotCount_eq_countP wf (hP _ rfl), Nat.zero_add]

/-- R153: a resize of a canonical table ends. -/
theorem resize_isSome {L : Nat} (hL : L + 1 ≤ 32) {slots : List (Nat × Slot)} (wf : Slots.wf L slots) :
    (resize L slots).isSome = true := by
  refine reinsert_isSome hL slots (Slots.wf_nil _) ?_
  rw [slotCount_nil (by decide), occupied_eq_slotCount wf]
  have := slotCount_le L isOccupied slots
  rw [Nat.pow_succ]
  omega

end Sys2Proof.Machine
end

