-- ==== Sys2Proof/Laws/RobinHood.lean ====
section
/-! SUPPORT. The robin-hood ordering of the slot store (40_hash_table.md R144, 10_state.md R46 (c)): every insertion of an entry with
a hash that is not 0 keeps it, so does a resize, and in an ordered table a probe finds every stored copy. -/

namespace Sys2Proof.Machine

/-- The first `d` slots from the home slot of `x` are occupied, each by an entry at least as far from its own home slot. -/
def pathTo (L : Nat) (slots : List (Nat × Slot)) (x : Word) (d : Nat) : Prop :=
  ∀ k < d, occupiedAt slots ((homeSlot L x + k) % 2 ^ L) ∧
    k ≤ displacement L ((homeSlot L x + k) % 2 ^ L) (slotAt slots ((homeSlot L x + k) % 2 ^ L)).hash

theorem robinHood_iff {L : Nat} {slots : List (Nat × Slot)} :
    robinHood L slots ↔ ∀ i < 2 ^ L, occupiedAt slots i →
      pathTo L slots (slotAt slots i).hash (displacement L i (slotAt slots i).hash + 1) := by
  unfold robinHood pathTo
  simp only [Nat.lt_succ_iff]

theorem pathTo_zero (L : Nat) (slots : List (Nat × Slot)) (x : Word) : pathTo L slots x 0 := fun _ h => absurd h (Nat.not_lt_zero _)

theorem pathTo_mono {L : Nat} {slots : List (Nat × Slot)} {x : Word} {d d' : Nat} (h : pathTo L slots x d) (hd : d' ≤ d) :
    pathTo L slots x d' := fun k hk => h k (lt_of_lt_of_le hk hd)

theorem pathTo_succ {L : Nat} {slots : List (Nat × Slot)} {x : Word} {d : Nat} (h : pathTo L slots x d)
    (hocc : occupiedAt slots ((homeSlot L x + d) % 2 ^ L))
    (hd : d ≤ displacement L ((homeSlot L x + d) % 2 ^ L) (slotAt slots ((homeSlot L x + d) % 2 ^ L)).hash) :
    pathTo L slots x (d + 1) := by
  intro k hk
  rcases Nat.lt_succ_iff_lt_or_eq.1 hk with hk | rfl
  · exact h k hk
  · exact ⟨hocc, hd⟩

/-- The slot after an occupant is one more than its displacement past its home slot. -/
theorem nextSlot_eq_home_add {L p : Nat} (hL : L ≤ 32) (hp : p < 2 ^ L) {x : Word} :
    nextSlot L p = (homeSlot L x + (displacement L p x + 1)) % 2 ^ L := by
  rw [← Nat.add_assoc, ← Nat.mod_add_mod, home_add_displacement hL hp]
  rfl

/-- A path of occupied slots stops short of an empty slot. -/
theorem pathTo_le {L : Nat} (hL : L ≤ 32) {slots : List (Nat × Slot)} {x : Word} {d i : Nat} (h : pathTo L slots x d)
    (hi : i < 2 ^ L) (empty : ¬ occupiedAt slots i) : d ≤ displacement L i x := by
  by_contra hlt
  refine empty ?_
  have := (h (displacement L i x) (by omega)).1
  rwa [home_add_displacement hL hi] at this

/-- A path survives a write that puts, at a slot it passes, an entry at least as far from home as the occupant was. -/
theorem pathTo_putSlot {L : Nat} {slots : List (Nat × Slot)} {x : Word} {d p : Nat} {v : Slot} (h : pathTo L slots x d)
    (hv : v.hash ≠ 0)
    (hge : occupiedAt slots p → displacement L p (slotAt slots p).hash ≤ displacement L p v.hash) :
    pathTo L (putSlot slots p v) x d := by
  intro k hk
  obtain ⟨hocc, hd⟩ := h k hk
  unfold occupiedAt
  by_cases hp : (homeSlot L x + k) % 2 ^ L = p
  · rw [hp] at hocc hd ⊢
    rw [slotAt_putSlot_self]
    exact ⟨hv, le_trans hd (hge hocc)⟩
  · rw [slotAt_putSlot_ne _ _ hp]
    exact ⟨hocc, hd⟩

/-- An entry put at the end of its path, over an empty slot or over an occupant nearer to home, keeps the ordering. -/
theorem robinHood_putSlot {L : Nat} (hL : L ≤ 32) {slots : List (Nat × Slot)} {cur : Slot} {dist : Nat}
    (hr : robinHood L slots) (hcur : cur.hash ≠ 0) (hdist : dist < 2 ^ L) (path : pathTo L slots cur.hash dist)
    (hge : occupiedAt slots ((homeSlot L cur.hash + dist) % 2 ^ L) →
      displacement L ((homeSlot L cur.hash + dist) % 2 ^ L) (slotAt slots ((homeSlot L cur.hash + dist) % 2 ^ L)).hash ≤ dist) :
    robinHood L (putSlot slots ((homeSlot L cur.hash + dist) % 2 ^ L) cur) := by
  rw [robinHood_iff] at hr ⊢
  have hself : displacement L ((homeSlot L cur.hash + dist) % 2 ^ L) cur.hash = dist := displacement_home_add hL hdist _
  have keep : ∀ {x : Word} {d : Nat}, pathTo L slots x d →
      pathTo L (putSlot slots ((homeSlot L cur.hash + dist) % 2 ^ L) cur) x d := fun hp =>
    pathTo_putSlot hp hcur fun ho => by rw [hself]; exact hge ho
  intro i hi hocc
  by_cases hp : i = (homeSlot L cur.hash + dist) % 2 ^ L
  · rw [hp, slotAt_putSlot_self, hself]
    refine pathTo_succ (keep path) ?_ ?_
    · unfold occupiedAt; rw [slotAt_putSlot_self]; exact hcur
    · rw [slotAt_putSlot_self, hself]
  · unfold occupiedAt at hocc
    rw [slotAt_putSlot_ne _ _ hp] at hocc ⊢
    exact keep (hr i hi hocc)

/-- R144, once: a probe that ends keeps the ordering of a table that is not full. -/
theorem probeLoop_robinHood {L : Nat} (hL : L ≤ 32) {hit : Nat → Slot → Bool} {e : Slot} {fuel visit : Nat}
    {slots : List (Nat × Slot)} {dist : Nat} {cur : Slot} {cand : Bool} {r : Probed} {i : Nat}
    (hr : robinHood L slots) (hcur : cur.hash ≠ 0) (path : pathTo L slots cur.hash dist)
    (hi : i < 2 ^ L) (empty : ¬ occupiedAt slots i)
    (h : probeLoop L hit e fuel visit slots ((homeSlot L cur.hash + dist) % 2 ^ L) dist cur cand = some r) :
    robinHood L r.slots := by
  induction fuel generalizing visit slots dist cur cand with
  | zero => cases h
  | succ fuel ih =>
    have hdist : dist < 2 ^ L := lt_of_le_of_lt (pathTo_le hL path hi empty) (displacement_lt _ _ _)
    have hp : (homeSlot L cur.hash + dist) % 2 ^ L < 2 ^ L := Nat.mod_lt _ (two_pow_pos L)
    have next : ∀ d, nextSlot L ((homeSlot L cur.hash + d) % 2 ^ L) = (homeSlot L cur.hash + (d + 1)) % 2 ^ L := fun d => by
      unfold nextSlot; rw [Nat.mod_add_mod, Nat.add_assoc]
    rw [probeLoop] at h
    split at h
    · rename_i h0
      injection h with h; subst h
      exact robinHood_putSlot hL hr hcur hdist path fun ho => absurd h0 ho
    · rename_i hocc
      split at h
      · injection h with h; subst h; exact hr
      · split at h
        · rename_i hlt
          have hr' := robinHood_putSlot hL hr hcur hdist path fun _ => le_of_lt hlt
          have hpath := (robinHood_iff.1 hr) _ hp hocc
          have hself := displacement_home_add hL hdist cur.hash
          have hpath' : pathTo L (putSlot slots ((homeSlot L cur.hash + dist) % 2 ^ L) cur)
              (slotAt slots ((homeSlot L cur.hash + dist) % 2 ^ L)).hash
              (displacement L ((homeSlot L cur.hash + dist) % 2 ^ L)
                (slotAt slots ((homeSlot L cur.hash + dist) % 2 ^ L)).hash + 1) :=
            pathTo_putSlot hpath hcur fun _ => by rw [hself]; exact le_of_lt hlt
          have hne : i ≠ (homeSlot L cur.hash + dist) % 2 ^ L := fun heq => empty (heq ▸ hocc)
          rw [nextSlot_eq_home_add hL hp] at h
          exact ih hr' hocc hpath' (by unfold occupiedAt; rwa [slotAt_putSlot_ne _ _ hne]) h
        · rename_i hge
          rw [next] at h
          exact ih hr hcur (pathTo_succ path hocc (not_lt.1 hge)) empty h

theorem robinHood_nil (L : Nat) : robinHood L [] := fun _ _ h => absurd rfl h

theorem probe_robinHood {L : Nat} (hL : L ≤ 32) {hit : Nat → Slot → Bool} {slots : List (Nat × Slot)} {e : Slot} {cand : Bool}
    {r : Probed} (hr : robinHood L slots) (he : e.hash ≠ 0) (room : slotCount L isOccupied slots < 2 ^ L)
    (h : probe L hit slots e cand = some r) : robinHood L r.slots := by
  obtain ⟨i, hi, h0⟩ := exists_empty room
  have start : homeSlot L e.hash = (homeSlot L e.hash + 0) % 2 ^ L := by
    rw [Nat.add_zero, Nat.mod_eq_of_lt (homeSlot_lt hL _)]
  rw [probe, start] at h
  exact probeLoop_robinHood hL hr he (pathTo_zero _ _ _) hi (fun ho => ho h0) h

theorem place_robinHood {L : Nat} (hL : L ≤ 32) {slots slots' : List (Nat × Slot)} {e : Slot} (hr : robinHood L slots)
    (he : e.hash ≠ 0) (room : slotCount L isOccupied slots < 2 ^ L) (h : place L slots e = some slots') :
    robinHood L slots' := by
  rw [place, Option.map_eq_some_iff] at h
  obtain ⟨r, hp, rfl⟩ := h
  exact probe_robinHood hL hr he room hp

theorem reinsert_robinHood {L : Nat} (hL : L ≤ 32) (old : List (Nat × Slot)) {slots slots' : List (Nat × Slot)}
    (wf : Slots.wf L slots) (hr : robinHood L slots) (room : slotCount L isOccupied slots + occupied old ≤ 2 ^ L)
    (h : reinsert L old slots = some slots') : robinHood L slots' := by
  induction old generalizing slots with
  | nil =>
    rw [reinsert] at h
    injection h with h; subst h; exact hr
  | cons x old ih =>
    obtain ⟨k, e⟩ := x
    rw [reinsert] at h
    rw [occupied, List.countP_cons] at room
    split at h
    · exact ih wf hr (by rw [occupied]; omega) h
    · rename_i h0
      rw [Option.bind_eq_some_iff] at h
      obtain ⟨mid, hm, h⟩ := h
      have hocc : (e.hash != 0) = true := by simpa using h0
      simp only [hocc, if_true] at room
      obtain ⟨hw, hc⟩ := place_spec hL wf hm
      have := hc isOccupied fun t ht => by rw [isOccupied, ht]; rfl
      have he : isOccupied e = true := hocc
      rw [he, Bool.toNat_true] at this
      exact ih hw (place_robinHood hL hr h0 (by omega) hm) (by rw [occupied]; omega) h

/-- R147: a resize orders the doubled table. -/
theorem resize_robinHood {L : Nat} (hL : L + 1 ≤ 32) {slots slots' : List (Nat × Slot)} (wf : Slots.wf L slots)
    (h : resize L slots = some slots') : robinHood (L + 1) slots' := by
  refine reinsert_robinHood hL slots (Slots.wf_nil _) (robinHood_nil _) ?_ h
  rw [slotCount_nil (by decide), occupied_eq_slotCount wf]
  have := slotCount_le L isOccupied slots
  rw [Nat.pow_succ]
  omega

/-- R160 (a): in an ordered table a candidate's probe ends at a match if a stored copy is there to be found. -/
theorem probeLoop_finds {L : Nat} (hL : L ≤ 32) {hit : Nat → Slot → Bool} {e : Slot} {slots : List (Nat × Slot)} {q : Nat}
    (hr : robinHood L slots) (hq : q < 2 ^ L) (hocc : occupiedAt slots q) (hash : (slotAt slots q).hash = e.hash)
    (hhit : ∀ v, hit v (slotAt slots q) = true) (fuel visit dist : Nat)
    (hd : dist ≤ displacement L q e.hash) (hf : displacement L q e.hash < dist + fuel) :
    ∃ r, probeLoop L hit e fuel visit slots ((homeSlot L e.hash + dist) % 2 ^ L) dist e true = some r ∧ r.existed = true := by
  induction fuel generalizing visit dist with
  | zero => omega
  | succ fuel ih =>
    obtain ⟨ho, hk⟩ := (robinHood_iff.1 hr q hq hocc) dist (by rw [hash]; omega)
    rw [hash] at ho hk
    rw [probeLoop]
    rw [if_neg ho]
    split
    · exact ⟨_, rfl, rfl⟩
    · rename_i hno
      rw [if_neg (not_lt.2 hk)]
      rcases Nat.lt_or_ge dist (displacement L q e.hash) with hlt | hge
      · have next : nextSlot L ((homeSlot L e.hash + dist) % 2 ^ L) = (homeSlot L e.hash + (dist + 1)) % 2 ^ L := by
          unfold nextSlot; rw [Nat.mod_add_mod, Nat.add_assoc]
        rw [next]
        exact ih (visit + 1) (dist + 1) hlt (by omega)
      · exfalso
        have heq : dist = displacement L q e.hash := le_antisymm hd hge
        rw [heq, home_add_displacement hL hq] at hno
        refine hno ?_
        rw [hash, hhit]
        simp

theorem probe_finds {L : Nat} (hL : L ≤ 32) {hit : Nat → Slot → Bool} {slots : List (Nat × Slot)} {e : Slot} {q : Nat}
    (hr : robinHood L slots) (hq : q < 2 ^ L) (hocc : occupiedAt slots q) (hash : (slotAt slots q).hash = e.hash)
    (hhit : ∀ v, hit v (slotAt slots q) = true) :
    ∃ r, probe L hit slots e true = some r ∧ r.existed = true := by
  have := probeLoop_finds hL hr hq hocc hash hhit (2 ^ L) 0 0 (Nat.zero_le _)
    (by have := displacement_lt L q e.hash; omega)
  rwa [Nat.add_zero, Nat.mod_eq_of_lt (homeSlot_lt hL _)] at this

end Sys2Proof.Machine
end

