-- ==== Sys2Proof/Laws/Ops.lean ====
section
/-! SUPPORT. What command acceptance, a raised fault and the HT unit's keycount step can do, once each. -/

namespace Sys2Proof.Machine

/-! ### Acceptance (60_exceptions.md R240) -/

theorem State.perform_of_admits {s : State} {i : Instr} (h : s.admits i = true) (body : State → StepResult) :
    s.perform i body = body s := if_pos h

theorem State.perform_of_not_admits {s : State} {i : Instr} (h : s.admits i = false) (body : State → StepResult) :
    s.perform i body = .next s := if_neg (by rw [h]; exact Bool.false_ne_true)

/-- Everything an offered command can do: it is discarded, or its body runs. -/
theorem State.perform_cases (s : State) (i : Instr) (body : State → StepResult) :
    (s.admits i = false ∧ s.perform i body = .next s) ∨ (s.admits i = true ∧ s.perform i body = body s) := by
  cases h : s.admits i
  · exact .inl ⟨rfl, State.perform_of_not_admits h body⟩
  · exact .inr ⟨rfl, State.perform_of_admits h body⟩

theorem State.admits_iff {s : State} {i : Instr} :
    s.admits i = true ↔ s.busy i.unit = false ∧ (s.faulted i.unit = false ∨ isRecovery i = true) := by
  unfold State.admits
  cases s.busy i.unit <;> cases s.faulted i.unit <;> simp

/-- A unit that is idle and not faulted admits each of its commands. -/
theorem State.admits_of_ready {s : State} {i : Instr} (hb : s.busy i.unit = false) (hf : s.faulted i.unit = false) :
    s.admits i = true := State.admits_iff.2 ⟨hb, .inl hf⟩

/-- A busy unit admits no command. -/
theorem State.admits_of_busy {s : State} {i : Instr} (hb : s.busy i.unit = true) : s.admits i = false := by
  rw [State.admits, hb]; rfl

/-- A faulted unit admits only its recovery command. -/
theorem State.admits_of_faulted {s : State} {i : Instr} (hf : s.faulted i.unit = true) (hr : isRecovery i = false) :
    s.admits i = false := by
  rw [State.admits, hf, hr]; cases s.busy i.unit <;> rfl

/-- The HT engine is idle exactly when BUSY is 0. -/
theorem HtUnit.busy_eq_false {h : HtUnit} : h.busy = false ↔ h.task = .idle := by
  unfold HtUnit.busy
  cases h.task <;> simp

theorem PcUnit.busy_eq_false {p : PcUnit} : p.busy = false ↔ p.task = none := by
  unfold PcUnit.busy
  cases p.task <;> simp

/-- An idle HT unit runs no command. -/
theorem HtUnit.running_of_idle {h : HtUnit} (hi : h.task = .idle) : h.running = false := by
  unfold HtUnit.running; rw [hi]

/-! ### Faults (R232) -/

/-- Every fault code is one of 1 to 8 (R233). -/
theorem FaultCode.bits_toNat (c : FaultCode) : 1 ≤ c.bits.toNat ∧ c.bits.toNat ≤ 8 := by cases c <;> decide

/-- Distinct faults have distinct codes (R233). -/
theorem FaultCode.bits_injective {c d : FaultCode} (h : c.bits = d.bits) : c = d := by
  revert h; cases c <;> cases d <;> decide

/-- A raised fault leaves the other unit and everything outside the units as they were. -/
theorem State.raise_frame (s : State) (u : UnitId) (c : FaultCode) :
    (s.raise u c).params = s.params ∧ (s.raise u c).src = s.src ∧ (s.raise u c).schedule = s.schedule ∧
      (s.raise u c).response = s.response ∧ (s.raise u c).freeCount = s.freeCount ∧ (s.raise u c).era = s.era := by
  cases u <;> exact ⟨rfl, rfl, rfl, rfl, rfl, rfl⟩

theorem State.raise_faulted (s : State) (u : UnitId) (c : FaultCode) : (s.raise u c).faulted u = true := by
  cases u <;> rfl

/-! ### The invariant's arithmetic -/

theorem HtUnit.Inv.loglen_le_32 {P : Params} {h : HtUnit} (hi : h.Inv P) (hP : P.wellFormed = true) : h.loglen ≤ 32 := by
  have := hi.loglen_le
  unfold Params.wellFormed at hP
  simp only [Bool.and_eq_true, decide_eq_true_eq] at hP
  omega

/-- R153: an unfaulted table always has an empty slot. -/
theorem HtUnit.Inv.room {P : Params} {h : HtUnit} (hi : h.Inv P) (hf : h.faulted = false) :
    slotCount h.loglen isOccupied h.slots < 2 ^ h.loglen := by
  rw [← occupied_eq_slotCount hi.slots_wf]
  have h1 := hi.occupied_le
  have h2 := hi.keycount_le hf
  have h3 := threshold_lt h.loglen
  omega

/-- The keycount of an unfaulted table does not wrap when it is incremented. -/
theorem HtUnit.Inv.keycount_succ {P : Params} {h : HtUnit} (hi : h.Inv P) (hP : P.wellFormed = true) (hf : h.faulted = false) :
    (h.keycount + 1).toNat = h.keycount.toNat + 1 := by
  have h1 := hi.keycount_le hf
  have h2 := threshold_eq h.loglen
  have h3 : 2 ^ h.loglen ≤ 2 ^ 32 := Nat.pow_le_pow_right (by decide) (hi.loglen_le_32 hP)
  rw [BitVec.toNat_add, show (1 : Word).toNat = 1 from rfl, Nat.mod_eq_of_lt (by omega)]

/-! ### The keycount step of HT.GET (R146-R148) -/

/-- Everything the keycount step can do in a table with room in its size: count, or count and double, or count and fault. -/
theorem State.countInsertion_cases {s : State} (hL : s.ht.loglen < s.params.maxLoglen → s.ht.loglen + 1 ≤ 32)
    (wf : Slots.wf s.ht.loglen s.ht.slots) (hle : s.ht.loglen ≤ s.params.maxLoglen) :
    ((s.ht.keycount + 1).toNat ≤ threshold s.ht.loglen ∧
      s.countInsertion = .next { s with ht := { s.ht with keycount := s.ht.keycount + 1 } }) ∨
    (threshold s.ht.loglen < (s.ht.keycount + 1).toNat ∧ s.ht.loglen = s.params.maxLoglen ∧
      s.countInsertion = .next (State.raise { s with ht := { s.ht with keycount := s.ht.keycount + 1 } } .ht .capacity)) ∨
    (threshold s.ht.loglen < (s.ht.keycount + 1).toNat ∧ s.ht.loglen < s.params.maxLoglen ∧
      ∃ slots', resize s.ht.loglen s.ht.slots = some slots' ∧
        s.countInsertion = .next { s with
          ht := { s.ht with keycount := s.ht.keycount + 1, loglen := s.ht.loglen + 1, slots := slots' } }) := by
  unfold State.countInsertion
  rcases Nat.lt_or_ge (threshold s.ht.loglen) (s.ht.keycount + 1).toNat with hlt | hge
  · simp only [if_pos hlt]
    rcases Nat.lt_or_eq_of_le hle with hm | hm
    · have hs := resize_isSome (hL hm) wf
      obtain ⟨slots', hr⟩ := Option.isSome_iff_exists.1 hs
      rw [if_neg (Nat.ne_of_lt hm), hr]
      exact .inr (.inr ⟨hlt, hm, slots', rfl, rfl⟩)
    · rw [if_pos hm]
      exact .inr (.inl ⟨hlt, hm, rfl⟩)
  · simp only [if_neg (Nat.not_lt.2 hge)]
    exact .inl ⟨hge, trivial⟩

/-! ### The meanings where their command is admitted -/

theorem execHtInit_of_admits {s : State} (h : s.admits .htInit = true) : execHtInit s =
    if s.ht.initOperand < 1 ∨ s.params.maxLoglen < s.ht.initOperand then .next (s.raise .ht .configRange)
    else .next (State.clearFault { s with ht := s.ht.initTable s.ht.initOperand } .ht) := State.perform_of_admits h _

theorem execHtGet_of_admits {s : State} (h : s.admits .htGet = true) : execHtGet s =
    if s.ht.lenTooShort then .next (s.raise .ht .lenTooShort)
    else if s.ht.candOutOfRange then .next (s.raise .ht .candRange)
    else if s.ht.zeroHashRefused then .next (s.raise .ht .zeroHash)
    else
      match s.probeCandidate with
      | none => .fault .probeStuck
      | some r => s.finishGet r := State.perform_of_admits h _

theorem execHtCount_of_admits {s : State} (h : s.admits .htCount = true) : execHtCount s =
    .next { s with ht := { s.ht with resCount := BitVec.ofNat 32 (occupied s.ht.slots) } } := State.perform_of_admits h _

theorem execHtRdslot_of_admits {s : State} (h : s.admits .htRdslot = true) : execHtRdslot s =
    if 2 ^ s.ht.loglen ≤ s.ht.slotOperand then .next (s.raise .ht .slotRange)
    else .next { s with ht := { s.ht with
      slotHash := (slotAt s.ht.slots s.ht.slotOperand).hash
      slotOff := (slotAt s.ht.slots s.ht.slotOperand).offset
      slotLen := (slotAt s.ht.slots s.ht.slotOperand).len } } := State.perform_of_admits h _

/-- The symbol-count check (R181). -/
theorem State.withSymbolCount_of_le {s : State} (h : s.pc.symbolCount ≤ Config.maxSyms) (body : Nat → StepResult) :
    s.withSymbolCount body = body s.pc.symbolCount := if_neg (Nat.not_lt.2 h)

theorem State.withSymbolCount_of_gt {s : State} (h : Config.maxSyms < s.pc.symbolCount) (body : Nat → StepResult) :
    s.withSymbolCount body = .next (s.raise .pc .numsymsRange) := if_pos h

theorem execPcSort_of_admits {s : State} (h : s.admits .pcSort = true) (hN : s.pc.symbolCount ≤ Config.maxSyms) :
    execPcSort s = .next (State.finish { s with pc := { s.pc with
      sym := Sparse.insertAll s.pc.sym
        ((List.range s.pc.symbolCount).zip (sortBy recordLe (s.symOperands s.pc.symbolCount))) } } 1) := by
  rw [execPcSort, State.perform_of_admits h, State.withSymbolCount_of_le hN]

theorem execPcGencodes_of_admits {s : State} (h : s.admits .pcGencodes = true) (hN : s.pc.symbolCount ≤ Config.maxSyms) :
    execPcGencodes s =
      if (((s.usedSymbols s.pc.symbolCount).map (·.1)).any fun l => decide (Config.genMaxLen < l)) = true then .next (s.finish 0)
      else if 2 ^ Config.genMaxLen < kraft Config.genMaxLen ((s.usedSymbols s.pc.symbolCount).map (·.1)) then .next (s.finish 0)
      else .next (State.finish { s with pc := { s.pc with
        code := Sparse.insertAll s.pc.code ((List.range s.pc.symbolCount).map fun i =>
          (i, BitVec.ofNat 32 ((Sparse.find (canonicalCodes (s.usedSymbols s.pc.symbolCount)) i).getD 0))) } } 1) := by
  rw [execPcGencodes, State.perform_of_admits h, State.withSymbolCount_of_le hN]

theorem execPcLimit_of_admits {s : State} (h : s.admits .pcLimit = true) (hN : s.pc.symbolCount ≤ Config.maxSyms) :
    execPcLimit s =
      match limitLengths s.pc.maxCodeSize (s.usedSymbols s.pc.symbolCount) with
      | none => .next (s.finish 0)
      | some news => .next (State.finish { s with pc := { s.pc with
        size := Sparse.insertAll s.pc.size (news.map fun x => (x.1, BitVec.ofNat 8 x.2)) } } 1) := by
  refine (State.perform_of_admits h _).trans ((State.withSymbolCount_of_le hN _).trans ?_)
  cases limitLengths s.pc.maxCodeSize (s.usedSymbols s.pc.symbolCount) <;> rfl

theorem execPcClrflt_of_admits {s : State} (h : s.admits .pcClrflt = true) :
    execPcClrflt s = .next (s.clearFault .pc) := State.perform_of_admits h _

end Sys2Proof.Machine
end

