-- ==== Sys2Proof/Laws/Bus.lean ====
section
/-! SUPPORT. What a host access, an offered word, an engine and a step can do, once each. -/

namespace Sys2Proof.Machine

/-! ### The register map (10_state.md R23) -/

/-- A window entry has an index below 1024. -/
theorem placeAt_index {off : Nat} {p : Place} (h : placeAt off = some p) :
    (∃ r, p = .reg r) ∨ ∃ i < Config.maxSyms, p = .sym i ∨ p = .size i ∨ p = .code i := by
  unfold placeAt at h
  split at h
  · injection h with h; exact .inl ⟨_, h.symm⟩
  · split at h
    · cases h
    · split at h
      · injection h with h
        exact .inr ⟨(off - 0x1000) / 4, by unfold Config.maxSyms; omega, .inl h.symm⟩
      · split at h
        · injection h with h
          exact .inr ⟨(off - 0x2000) / 4, by unfold Config.maxSyms; omega, .inr (.inl h.symm)⟩
        · split at h
          · injection h with h
            exact .inr ⟨(off - 0x3000) / 4, by unfold Config.maxSyms; omega, .inr (.inr h.symm)⟩
          · cases h

/-- What an access that reaches a place is (20_memory.md R73-R75). -/
theorem locate_eq_place {P : Params} {width : AccessWidth} {addr : Nat} {p : Place} (h : locate P width addr = .place p) :
    P.base ≤ addr ∧ width = .w32 ∧ (addr - P.base) % 4 = 0 ∧ placeAt (addr - P.base) = some p := by
  unfold locate at h
  split at h
  · cases h
  · rename_i h1
    split at h
    · cases h
    · rename_i h2
      split at h
      · cases h
      · rename_i h3
        cases hp : placeAt (addr - P.base) with
        | none => rw [hp] at h; cases h
        | some q =>
          rw [hp] at h
          injection h with h
          exact ⟨Nat.not_lt.1 h1, Decidable.not_not.1 h2, Decidable.not_not.1 h3, by rw [h]⟩

theorem locate_of {P : Params} {off : Nat} {p : Place} (ha : off % 4 = 0) (hp : placeAt off = some p) :
    locate P .w32 (P.base + off) = .place p := by
  unfold locate
  rw [if_neg (by omega), if_neg (by simp), if_neg (by simp [ha]), Nat.add_sub_cancel_left, hp]

/-- An access misses the block exactly if its address is below BASE (log 5). -/
theorem locate_eq_elsewhere {P : Params} {width : AccessWidth} {addr : Nat} :
    locate P width addr = .elsewhere ↔ addr < P.base := by
  unfold locate
  split
  · exact ⟨fun _ => ‹_›, fun _ => rfl⟩
  · refine ⟨fun h => ?_, fun h => absurd h ‹_›⟩
    split at h
    · cases h
    · split at h
      · cases h
      · split at h <;> cases h

/-! ### Offered words (60_exceptions.md R240) -/

/-- Everything a word offered to a unit can do when it does not stop: fault as illegal or be discarded, be performed, or be accepted
for its engine. -/
theorem State.offer_cases {s t : State} {u : UnitId} {w : Word} {timing : Timing} (h : s.offer u w timing = .next t) :
    ((∃ why, decode u w = .illegal why) ∧ t = s.offerIllegal u) ∨
    (∃ i, decode u w = .legal i ∧ exec i s = .next t) ∨
    (∃ i, decode u w = .legal i ∧ s.admits i = true ∧ t = s.start u w) ∨ t = s := by
  unfold State.offer at h
  cases hd : decode u w with
  | illegal why =>
    rw [hd] at h
    injection h with h
    exact .inl ⟨⟨why, rfl⟩, h.symm⟩
  | legal i =>
    rw [hd] at h
    cases timing with
    | now => exact .inr (.inl ⟨i, rfl, h⟩)
    | later =>
      injection h with h
      split at h
      · rename_i ha
        exact .inr (.inr (.inl ⟨i, rfl, ha, h.symm⟩))
      · exact .inr (.inr (.inr h.symm))

theorem State.offer_now {u : UnitId} {w : Word} {i : Instr} (h : decode u w = .legal i) (s : State) :
    s.offer u w .now = exec i s := by
  unfold State.offer; rw [h]

/-! ### Moves -/

/-- A host read changes the response and the count of free values, and nothing else (20_memory.md R85). -/
theorem State.hostRead_cases {s t : State} {width : AccessWidth} {addr : Nat} (h : s.hostRead width addr = .next t) :
    ∃ r n, t = { s with response := r, freeCount := n } := by
  unfold State.hostRead at h
  split at h
  · cases h
  · injection h with h; exact ⟨.error, s.freeCount, h.symm⟩
  · split at h
    · injection h with h; exact ⟨_, _, h.symm⟩
    · injection h with h; exact ⟨_, s.freeCount, h.symm⟩

/-- A host read stops at an address below BASE and nowhere else. -/
theorem State.hostRead_of_le {s : State} {width : AccessWidth} {addr : Nat} (h : s.params.base ≤ addr) :
    ∃ t, s.hostRead width addr = .next t := by
  unfold State.hostRead
  split
  · exact absurd (locate_eq_elsewhere.1 ‹_›) (Nat.not_lt.2 h)
  · exact ⟨_, rfl⟩
  · split <;> exact ⟨_, rfl⟩

/-- Everything a host write can do: offer a word, be discarded or get a bus error, or store. -/
theorem State.hostWrite_cases {s t : State} {width : AccessWidth} {addr : Nat} {v : Word} {timing : Timing}
    (h : s.hostWrite width addr v timing = .next t) :
    (∃ u, State.offer { s with response := .done } u v timing = .next t) ∨
    (∃ r, t = { s with response := r }) ∨
    ∃ p off, placeAt off = some p ∧ p.commandOf = none ∧ s.busy p.unit = false ∧
      t = State.writePlace { s with response := .done } v p := by
  unfold State.hostWrite at h
  cases hl : locate s.params width addr with
  | elsewhere => rw [hl] at h; cases h
  | busError => rw [hl] at h; injection h with h; exact .inr (.inl ⟨.error, h.symm⟩)
  | place p =>
    rw [hl] at h
    dsimp only at h
    cases hc : p.commandOf with
    | some u => rw [hc] at h; exact .inl ⟨u, h⟩
    | none =>
      rw [hc] at h
      dsimp only at h
      cases hb : s.busy p.unit with
      | true => rw [hb, if_pos rfl] at h; injection h with h; exact .inr (.inl ⟨.done, h.symm⟩)
      | false =>
        rw [hb, if_neg Bool.false_ne_true] at h
        injection h with h
        exact .inr (.inr ⟨p, _, (locate_eq_place hl).2.2.2, hc, hb, h.symm⟩)

/-- Everything the HT engine can do when it does not stop. -/
theorem State.htEngine_cases {s t : State} (h : s.htEngine = .next t) :
    (s.ht.task = .idle ∧ t = s) ∨
    (s.ht.task = .clearing ∧ t = { s with ht := { s.ht with task := .idle } }) ∨
    ∃ w t', s.ht.task = .running w ∧ State.offer { s with ht := { s.ht with task := .idle } } .ht w .now = .next t' ∧
      t = { t' with src := t'.src.settle } := by
  unfold State.htEngine at h
  cases ht : s.ht.task with
  | idle => rw [ht] at h; injection h with h; exact .inl ⟨rfl, h.symm⟩
  | clearing => rw [ht] at h; injection h with h; exact .inr (.inl ⟨rfl, h.symm⟩)
  | running w =>
    rw [ht] at h
    dsimp only at h
    cases ho : State.offer { s with ht := { s.ht with task := .idle } } .ht w .now with
    | next t' => rw [ho] at h; injection h with h; exact .inr (.inr ⟨w, t', rfl, ho, h.symm⟩)
    | fault f => rw [ho] at h; cases h
    | refused r => rw [ho] at h; cases h

/-- Everything the PC engine can do when it does not stop. -/
theorem State.pcEngine_cases {s t : State} (h : s.pcEngine = .next t) :
    (s.pc.task = none ∧ t = s) ∨
    ∃ w, s.pc.task = some w ∧ State.offer { s with pc := { s.pc with task := none } } .pc w .now = .next t := by
  unfold State.pcEngine at h
  cases ht : s.pc.task with
  | none => rw [ht] at h; injection h with h; exact .inl ⟨rfl, h.symm⟩
  | some w => rw [ht] at h; exact .inr ⟨w, rfl, h⟩

/-- A step is the schedule's next move, made with the move taken off; with none left an engine moves or nothing does. -/
theorem step_cases {s t : State} (h : step s = .next t) :
    (∃ e rest, s.schedule = e :: rest ∧ State.move { s with schedule := rest } e = .next t) ∨
    (s.schedule = [] ∧ (s.htEngine = .next t ∨ s.pcEngine = .next t)) := by
  unfold step at h
  cases hs : s.schedule with
  | cons e rest => rw [hs] at h; exact .inl ⟨e, rest, rfl, h⟩
  | nil =>
    rw [hs] at h
    dsimp only at h
    unfold State.drain at h
    split at h
    · exact .inr ⟨rfl, .inl h⟩
    · exact .inr ⟨rfl, .inr h⟩

/-- Packaged once: a property that every kind of move keeps is kept by every step. The schedule, the response and the count of free
values may be anything. -/
theorem step_keeps {Q : State → Prop}
    (free : ∀ (s : State) (sch : List Event) (r : BusResponse) (n : Nat), Q s →
      Q { s with schedule := sch, response := r, freeCount := n })
    (write : ∀ (s : State) (v : Word) (p : Place) (off : Nat), Q s → placeAt off = some p → p.commandOf = none →
      s.busy p.unit = false → Q (s.writePlace v p))
    (illegal : ∀ (s : State) (u : UnitId), Q s → Q (s.offerIllegal u))
    (run : ∀ (s t : State) (i : Instr), Q s → exec i s = .next t → Q t)
    (start : ∀ (s : State) (i : Instr) (u : UnitId) (w : Word), Q s → decode u w = .legal i → s.admits i = true → Q (s.start u w))
    (src : ∀ (s : State) (off : Word) (b : Byte), Q s →
      Q { s with src := s.src.hostWrite s.params.srcVisibility s.ht.running off.toNat b })
    (publish : ∀ (s : State) (lo hi : Nat), Q s → Q { s with src := s.src.publish s.ht.running lo hi })
    (htEngine : ∀ s t : State, Q s → s.htEngine = .next t → Q t)
    (pcEngine : ∀ s t : State, Q s → s.pcEngine = .next t → Q t)
    (reset : ∀ (s : State) (timing : Timing), Q s → Q (s.doReset timing))
    {s t : State} (hq : Q s) (h : step s = .next t) : Q t := by
  have offer : ∀ {s t : State} {u : UnitId} {w : Word} {timing : Timing}, Q s → s.offer u w timing = .next t → Q t := by
    intro s t u w timing hq h
    rcases State.offer_cases h with ⟨_, rfl⟩ | ⟨i, _, he⟩ | ⟨i, hd, ha, rfl⟩ | rfl
    · exact illegal _ _ hq
    · exact run _ _ _ hq he
    · exact start _ _ _ _ hq hd ha
    · exact hq
  rcases step_cases h with ⟨e, rest, _, h⟩ | ⟨_, h | h⟩
  · have hq' : Q { s with schedule := rest } := free s rest s.response s.freeCount hq
    cases e with
    | read width addr =>
      obtain ⟨r, n, rfl⟩ := State.hostRead_cases h
      exact free s rest r n hq
    | write width addr v timing =>
      have hd : Q { s with schedule := rest, response := .done } := free s rest .done s.freeCount hq
      rcases State.hostWrite_cases h with ⟨u, h⟩ | ⟨r, rfl⟩ | ⟨p, off, hp, hc, hb, rfl⟩
      · exact offer hd h
      · exact free s rest r s.freeCount hq
      · exact write _ _ _ _ hd hp hc (by cases hu : p.unit <;> rw [hu] at hb <;> exact hb)
    | srcWrite off b => injection h with h; subst h; exact src _ _ _ hq'
    | publish lo hi => injection h with h; subst h; exact publish _ _ _ hq'
    | engine u =>
      cases u with
      | ht => exact htEngine _ _ hq' h
      | pc => exact pcEngine _ _ hq' h
    | reset timing => injection h with h; subst h; exact reset _ _ hq'
  · exact htEngine _ _ hq h
  · exact pcEngine _ _ hq h

end Sys2Proof.Machine
end

