-- ==== Sys2Proof/Laws/Exec.lean ====
section
/-! SUPPORT. Every command at once: what a discarded command does, what a command may change at all, and the host write that
offers one. -/

namespace Sys2Proof.Machine

/-- R240: a command its unit does not admit changes nothing. -/
theorem exec_of_not_admits {i : Instr} {s : State} (h : s.admits i = false) : exec i s = .next s := by
  have key := State.perform_of_not_admits h
  cases i
  · rw [exec, execHtInit]; exact key _
  · rw [exec, execHtGet]; exact key _
  · rw [exec, execHtCount]; exact key _
  · rw [exec, execHtRdslot]; exact key _
  · rw [exec, execPcSort]; exact key _
  · rw [exec, execPcGencodes]; exact key _
  · rw [exec, execPcLimit]; exact key _
  · rw [exec, execPcClrflt]; exact key _

/-- R232 (3): in an idle unit a raised fault writes FAULTED and FAULT_CODE only. -/
theorem State.raise_ht_idle {s : State} (h : s.ht.busy = false) (c : FaultCode) :
    s.raise .ht c = { s with ht := { s.ht with faulted := true, faultCode := c.bits } } := by
  have := HtUnit.busy_eq_false.1 h
  unfold State.raise; rw [← this]

theorem State.raise_pc_idle {s : State} (h : s.pc.busy = false) (c : FaultCode) :
    s.raise .pc c = { s with pc := { s.pc with faulted := true, faultCode := c.bits } } := by
  have := PcUnit.busy_eq_false.1 h
  unfold State.raise; rw [← this]

/-- R240: a ready unit admits each of its commands. -/
theorem State.Ready.admits {s : State} {u : UnitId} (h : s.Ready u) {i : Instr} (hi : i.unit = u) : s.admits i = true :=
  State.admits_of_ready (by rw [hi]; exact h.not_busy) (by rw [hi]; exact h.not_faulted)

/-- The keycount step changes the HT unit only. -/
theorem State.countInsertion_frame {s t : State} (h : s.countInsertion = .next t) : t = { s with ht := t.ht } := by
  unfold State.countInsertion at h
  simp only at h
  split at h
  · split at h
    · injection h with h; subst h; rfl
    · split at h
      · cases h
      · injection h with h; subst h; rfl
  · injection h with h; subst h; rfl

/-- HT.GET's results and its keycount step change the HT unit and use up free values, nothing else. -/
theorem State.finishGet_frame {s t : State} {r : Probed} (h : s.finishGet r = .next t) :
    t = { s with ht := t.ht, freeCount := t.freeCount } := by
  unfold State.finishGet at h
  simp only at h
  split at h
  · injection h with h; subst h; rfl
  · have := State.countInsertion_frame h
    rw [this]

/-- A command of the HT unit changes that unit and the count of free values, nothing else. -/
theorem exec_ht_frame {i : Instr} {s t : State} (hi : i.unit = .ht) (h : exec i s = .next t) :
    t = { s with ht := t.ht, freeCount := t.freeCount } := by
  cases ha : s.admits i with
  | false => rw [exec_of_not_admits ha] at h; injection h with h; subst h; rfl
  | true =>
    cases i with
    | htInit =>
      rw [exec, execHtInit_of_admits ha] at h
      split at h <;> (injection h with h; subst h; rfl)
    | htGet =>
      rw [exec, execHtGet_of_admits ha] at h
      split at h
      · injection h with h; subst h; rfl
      · split at h
        · injection h with h; subst h; rfl
        · split at h
          · injection h with h; subst h; rfl
          · split at h
            · cases h
            · exact State.finishGet_frame h
    | htCount => rw [exec, execHtCount_of_admits ha] at h; injection h with h; subst h; rfl
    | htRdslot =>
      rw [exec, execHtRdslot_of_admits ha] at h
      split at h <;> (injection h with h; subst h; rfl)
    | pcSort => cases hi
    | pcGencodes => cases hi
    | pcLimit => cases hi
    | pcClrflt => cases hi

/-- A command of the PC unit changes that unit, nothing else. -/
theorem exec_pc_frame {i : Instr} {s t : State} (hi : i.unit = .pc) (h : exec i s = .next t) : t = { s with pc := t.pc } := by
  cases ha : s.admits i with
  | false => rw [exec_of_not_admits ha] at h; injection h with h; subst h; rfl
  | true =>
    rcases Nat.lt_or_ge Config.maxSyms s.pc.symbolCount with hN | hN
    · cases i with
      | htInit => cases hi
      | htGet => cases hi
      | htCount => cases hi
      | htRdslot => cases hi
      | pcSort =>
        rw [exec, execPcSort, State.perform_of_admits ha, State.withSymbolCount_of_gt hN] at h; injection h with h; subst h; rfl
      | pcGencodes =>
        rw [exec, execPcGencodes, State.perform_of_admits ha, State.withSymbolCount_of_gt hN] at h
        injection h with h; subst h; rfl
      | pcLimit =>
        rw [exec, execPcLimit, State.perform_of_admits ha, State.withSymbolCount_of_gt hN] at h; injection h with h; subst h; rfl
      | pcClrflt => rw [exec, execPcClrflt_of_admits ha] at h; injection h with h; subst h; rfl
    · cases i with
      | htInit => cases hi
      | htGet => cases hi
      | htCount => cases hi
      | htRdslot => cases hi
      | pcSort => rw [exec, execPcSort_of_admits ha hN] at h; injection h with h; subst h; rfl
      | pcGencodes =>
        rw [exec, execPcGencodes_of_admits ha hN] at h
        split at h
        · injection h with h; subst h; rfl
        · split at h <;> (injection h with h; subst h; rfl)
      | pcLimit =>
        rw [exec, execPcLimit_of_admits ha hN] at h
        split at h <;> (injection h with h; subst h; rfl)
      | pcClrflt => rw [exec, execPcClrflt_of_admits ha] at h; injection h with h; subst h; rfl

/-- 60_exceptions.md R242: a command reports to the host in its unit's registers only, by no bus response and by no move. -/
theorem exec_response {i : Instr} {s t : State} (h : exec i s = .next t) : t.response = s.response ∧ t.schedule = s.schedule := by
  cases hu : i.unit with
  | ht => rw [exec_ht_frame hu h]; exact ⟨rfl, rfl⟩
  | pc => rw [exec_pc_frame hu h]; exact ⟨rfl, rfl⟩

/-- No command changes the source buffer (20_memory.md R78). -/
theorem exec_src {i : Instr} {s t : State} (h : exec i s = .next t) : t.src = s.src := by
  cases hu : i.unit with
  | ht => rw [exec_ht_frame hu h]
  | pc => rw [exec_pc_frame hu h]

/-- R104: a unit decodes its own commands only. -/
theorem decode_unit {u : UnitId} {w : Word} {i : Instr} (h : decode u w = .legal i) : i.unit = u := by
  unfold decode at h
  repeat' split at h
  all_goals first
    | (rename_i hc; obtain ⟨rfl, -⟩ := hc; injection h with h; subst h; rfl)
    | exact absurd h (by simp)

/-- What a move takes off the schedule and answers changes neither unit's status. -/
theorem State.busy_answered (s : State) (sch : List Event) (r : BusResponse) (n : Nat) (u : UnitId) :
    State.busy { s with schedule := sch, response := r, freeCount := n } u = s.busy u := by cases u <;> rfl

theorem State.faulted_answered (s : State) (sch : List Event) (r : BusResponse) (n : Nat) (u : UnitId) :
    State.faulted { s with schedule := sch, response := r, freeCount := n } u = s.faulted u := by cases u <;> rfl

theorem State.readPlace_answered (s : State) (sch : List Event) (r : BusResponse) (n : Nat) (p : Place) :
    State.readPlace { s with schedule := sch, response := r, freeCount := n } p = s.readPlace p := by
  cases p with
  | reg r => cases r <;> rfl
  | sym i => rfl
  | size i => rfl
  | code i => rfl

/-- R240 (1): a busy unit discards any word offered to it. -/
theorem State.offer_busy {s : State} {u : UnitId} (h : s.busy u = true) (w : Word) (timing : Timing) :
    s.offer u w timing = .next s := by
  unfold State.offer
  cases hd : decode u w with
  | illegal why => simp [State.offerIllegal, h]
  | legal i =>
    have hn : s.admits i = false := State.admits_of_busy (by rw [decode_unit hd]; exact h)
    cases timing with
    | now => exact exec_of_not_admits hn
    | later => simp [hn]

/-- The unit of a place that is a command register is the register's. -/
theorem Place.unit_of_commandOf {p : Place} {u : UnitId} (h : p.commandOf = some u) : p.unit = u := by
  cases p with
  | reg r => cases r <;> first | (injection h with h) | cases h
  | sym i => cases h
  | size i => cases h
  | code i => cases h

/-- The place at a unit's command offset is its command register (10_state.md R23). -/
theorem locate_cmd (P : Params) (u : UnitId) :
    locate P .w32 (P.base + cmdOffset u) = .place (.reg (match u with
      | .ht => .htCmd
      | .pc => .pcCmd)) := by
  cases u <;> exact locate_of (by decide) (by rfl)

/-- R240: a host write of a command register offers the word to its unit. -/
theorem State.hostWrite_cmd (s : State) (u : UnitId) (w : Word) (timing : Timing) :
    s.hostWrite .w32 (s.params.base + cmdOffset u) w timing = State.offer { s with response := .done } u w timing := by
  unfold State.hostWrite
  rw [locate_cmd]
  cases u <;> rfl

/-- The step that writes a command register. -/
theorem step_cmd {s : State} {u : UnitId} {w : Word} {timing : Timing} {rest : List Event}
    (h : s.schedule = .write .w32 (s.params.base + cmdOffset u) w timing :: rest) :
    step s = State.offer { s with schedule := rest, response := .done } u w timing := by
  unfold step
  rw [h]
  exact State.hostWrite_cmd { s with schedule := rest } u w timing

/-! ### HT.GET with its contract met -/

/-- R153: in a state that meets the invariant the probe of HT.GET ends, and HT.GET writes its results. -/
theorem exec_htGet_runs {s : State} (hi : s.Inv) (hr : s.Ready .ht) (hg : s.ht.GetAllowed) :
    ∃ r, s.probeCandidate = some r ∧ exec .htGet s = s.finishGet r := by
  have hs : s.probeCandidate.isSome = true :=
    probe_isSome (hi.ht_inv.loglen_le_32 hi.params_wf) _ _ _ (hi.ht_inv.room hr.not_faulted)
  obtain ⟨r, hp⟩ := Option.isSome_iff_exists.1 hs
  refine ⟨r, hp, ?_⟩
  rw [exec, execHtGet_of_admits (hr.admits rfl), if_neg, if_neg, if_neg, hp]
  · unfold HtUnit.zeroHashRefused
    rcases hg.hash_ok with h | h
    · simp [show s.ht.hash ≠ 0#32 from h]
    · simp [h]
  · unfold HtUnit.candOutOfRange; simpa using hg.in_range
  · unfold HtUnit.lenTooShort Config.minLen; simpa using hg.long_enough

theorem State.Inv.loglen_lt {s : State} (hi : s.Inv) (h : s.ht.loglen < s.params.maxLoglen) : s.ht.loglen + 1 ≤ 32 := by
  have hP := hi.params_wf
  unfold Params.wellFormed at hP
  simp only [Bool.and_eq_true, decide_eq_true_eq] at hP
  omega

/-- Everything an allowed HT.GET can do (R145, R146, R147, R148, R151): find a stored copy, insert, insert and double, or insert and
fault. -/
theorem exec_htGet_cases {s : State} (hi : s.Inv) (hr : s.Ready .ht) (hg : s.ht.GetAllowed) :
    ∃ r, s.probeCandidate = some r ∧
      ((r.existed = true ∧ exec .htGet s = .next { s with
          ht := { s.ht with existed := true, resOff := r.offset }
          freeCount := s.freeCount + 1 }) ∨
        (r.existed = false ∧ s.ht.keycount.toNat + 1 ≤ threshold s.ht.loglen ∧ exec .htGet s = .next { s with
          ht := { s.ht with existed := false, resOff := s.ht.candOff, slots := r.slots, keycount := s.ht.keycount + 1 }
          freeCount := s.freeCount + 1 }) ∨
        (r.existed = false ∧ threshold s.ht.loglen < s.ht.keycount.toNat + 1 ∧ s.ht.loglen = s.params.maxLoglen ∧
          exec .htGet s = .next (State.raise { s with
            ht := { s.ht with existed := false, resOff := s.ht.candOff, slots := r.slots, keycount := s.ht.keycount + 1 }
            freeCount := s.freeCount + 1 } .ht .capacity)) ∨
        (r.existed = false ∧ threshold s.ht.loglen < s.ht.keycount.toNat + 1 ∧ s.ht.loglen < s.params.maxLoglen ∧
          ∃ slots', resize s.ht.loglen r.slots = some slots' ∧ exec .htGet s = .next { s with
            ht := { s.ht with
              existed := false, resOff := s.ht.candOff, slots := slots', keycount := s.ht.keycount + 1
              loglen := s.ht.loglen + 1 }
            freeCount := s.freeCount + 1 })) := by
  obtain ⟨r, hp, he⟩ := exec_htGet_runs hi hr hg
  refine ⟨r, hp, ?_⟩
  have hL := hi.ht_inv.loglen_le_32 hi.params_wf
  have hk := hi.ht_inv.keycount_succ hi.params_wf hr.not_faulted
  rcases probe_cases hL hp with ⟨h1, -, h3, -⟩ | ⟨h1, h2⟩
  · refine .inl ⟨h1, ?_⟩
    rw [he, State.finishGet]
    simp only [h1, h3]
    rfl
  · refine .inr ?_
    have he' : exec .htGet s = State.countInsertion { s with
        ht := { s.ht with existed := false, resOff := s.ht.candOff, slots := r.slots }
        freeCount := s.freeCount + 1 } := by
      rw [he, State.finishGet]
      simp only [h1, h2]
      rfl
    rw [he', ← hk]
    rcases State.countInsertion_cases (s := { s with
        ht := { s.ht with existed := false, resOff := s.ht.candOff, slots := r.slots }
        freeCount := s.freeCount + 1 }) hi.loglen_lt (probe_wf hL hi.ht_inv.slots_wf hp) hi.ht_inv.loglen_le with
      ⟨c1, c2⟩ | ⟨c1, c3, c2⟩ | ⟨c1, c3, sl, c4, c2⟩
    · exact .inl ⟨h1, c1, c2⟩
    · exact .inr (.inl ⟨h1, c1, c3, c2⟩)
    · exact .inr (.inr ⟨h1, c1, c3, sl, c4, c2⟩)

/-! ### The host's duties (60_exceptions.md R250) -/

/-- What an accepted HT command is: a word written to HT_CMD that decodes to it, admitted by the unit. -/
theorem State.acceptsHt_eq_some {s : State} {e : Event} {i : Instr} (h : s.acceptsHt e = some i) :
    ∃ v timing, e = .write .w32 (s.params.base + cmdOffset .ht) v timing ∧ decode .ht v = .legal i ∧ s.admits i = true := by
  unfold State.acceptsHt at h
  split at h
  · split at h
    · rename_i ha
      split at h
      · rename_i hd
        split at h
        · rename_i hadm
          injection h with h
          subst h
          exact ⟨_, _, by rw [ha], hd, hadm⟩
        · cases h
      · cases h
    · cases h
  · cases h

/-- A host that keeps H6 lets the HT.GET it writes read settled bytes only. -/
theorem State.keepsH6_settled {s : State} {e : Event} (hi : s.Inv) (h6 : s.keepsH6 e) (he : s.acceptsHt e = some .htGet) :
    s.sourceSettled := by
  obtain ⟨_, _, _, _, ha⟩ := State.acceptsHt_eq_some he
  have hr : s.src.raced = [] := hi.raced_running (by
    have hb : s.ht.busy = false := (State.admits_iff.1 ha).1
    unfold HtUnit.busy at hb
    unfold HtUnit.running
    revert hb; cases s.ht.task <;> intro hb <;> first | rfl | cases hb)
  intro off hoff
  unfold Source.settled
  rw [if_neg]
  · rfl
  · rintro (h | h)
    · rw [hr] at h; cases h
    · obtain ⟨b, hb⟩ := Option.isSome_iff_exists.1 h
      have := h6 he _ ((Sparse.find_eq_some_iff hi.pending_wf.1).1 hb)
      exact absurd hoff (Nat.not_lt.2 this)

end Sys2Proof.Machine
end

