-- ==== Sys2Proof/Laws/PrefixCode.lean ====
section
/-! SUPPORT. What the PC unit's shared procedures do: sorting, the used symbols, the code recurrence (41_prefix_code.md R194) and the
rebalance loop (R205, R206). -/

namespace Sys2Proof.Machine

/-! ### Sorting -/

variable {α : Type}

theorem insertBy_perm (le : α → α → Bool) (x : α) (l : List α) : (insertBy le x l).Perm (x :: l) := by
  induction l with
  | nil => exact List.Perm.refl _
  | cons y ys ih =>
    rw [insertBy]
    split
    · exact List.Perm.refl _
    · exact ((List.Perm.cons y ih).trans (List.Perm.swap x y ys))

/-- Sorting keeps the elements, with their multiplicity. -/
theorem sortBy_perm (le : α → α → Bool) (l : List α) : (sortBy le l).Perm l := by
  induction l with
  | nil => exact List.Perm.refl _
  | cons x xs ih => exact (insertBy_perm le x _).trans (List.Perm.cons x ih)

theorem insertBy_pairwise {le : α → α → Bool} (total : ∀ a b, le a b = true ∨ le b a = true)
    (trans : ∀ a b c, le a b = true → le b c = true → le a c = true) (x : α) {l : List α}
    (h : l.Pairwise fun a b => le a b = true) : (insertBy le x l).Pairwise fun a b => le a b = true := by
  induction l with
  | nil => exact List.pairwise_singleton _ _
  | cons y ys ih =>
    obtain ⟨hy, hys⟩ := List.pairwise_cons.1 h
    rw [insertBy]
    split
    · rename_i hxy
      refine List.pairwise_cons.2 ⟨fun b hb => ?_, h⟩
      rcases List.mem_cons.1 hb with rfl | hb
      · exact hxy
      · exact trans _ _ _ hxy (hy b hb)
    · rename_i hxy
      refine List.pairwise_cons.2 ⟨fun b hb => ?_, ih hys⟩
      rcases List.mem_cons.1 ((insertBy_perm le x ys).mem_iff.1 hb) with rfl | hb
      · exact (total y b).resolve_right hxy
      · exact hy b hb

/-- Sorting orders the list. -/
theorem sortBy_pairwise {le : α → α → Bool} (total : ∀ a b, le a b = true ∨ le b a = true)
    (trans : ∀ a b c, le a b = true → le b c = true → le a c = true) (l : List α) :
    (sortBy le l).Pairwise fun a b => le a b = true := by
  induction l with
  | nil => exact List.Pairwise.nil
  | cons x xs ih => exact insertBy_pairwise total trans x ih

theorem recordLe_iff {a b : Word} : recordLe a b = true ↔
    (freqField a).toNat < (freqField b).toNat ∨
      (freqField a).toNat = (freqField b).toNat ∧ (symField a).toNat ≤ (symField b).toNat := by
  simp [recordLe]

theorem symbolLe_iff {a b : Nat × Nat} : symbolLe a b = true ↔ a.1 < b.1 ∨ a.1 = b.1 ∧ a.2 ≤ b.2 := by
  simp [symbolLe]

/-- R187 (b): sorting a sorted list changes nothing. -/
theorem sortBy_eq_self {le : α → α → Bool} {l : List α} (h : l.Pairwise fun a b => le a b = true) : sortBy le l = l := by
  induction l with
  | nil => rfl
  | cons x l ih =>
    obtain ⟨h1, h2⟩ := List.pairwise_cons.1 h
    rw [sortBy, ih h2]
    cases l with
    | nil => rfl
    | cons y l => rw [insertBy, if_pos (h1 y List.mem_cons_self)]

/-- R186: the records sorted. -/
theorem sortBy_recordLe_pairwise (l : List Word) : (sortBy recordLe l).Pairwise fun a b => recordLe a b = true :=
  sortBy_pairwise (fun a b => by simp only [recordLe_iff]; omega)
    (fun a b c => by simp only [recordLe_iff]; omega) l

/-- R193: the used symbols in canonical order. -/
theorem sortBy_symbolLe_pairwise (l : List (Nat × Nat)) : (sortBy symbolLe l).Pairwise fun a b => symbolLe a b = true :=
  sortBy_pairwise (fun a b => by simp only [symbolLe_iff]; omega)
    (fun a b c => by simp only [symbolLe_iff]; omega) l

/-! ### The used symbols (R190) -/

theorem State.mem_usedSymbols {s : State} {N : Nat} {x : Nat × Nat} :
    x ∈ s.usedSymbols N ↔ x.2 < N ∧ x.1 = (s.sizeAt x.2).toNat ∧ x.1 ≠ 0 := by
  unfold State.usedSymbols
  rw [List.mem_filter, List.mem_map]
  constructor
  · rintro ⟨⟨i, hi, rfl⟩, h⟩
    exact ⟨List.mem_range.1 hi, rfl, by simpa using h⟩
  · rintro ⟨h1, h2, h3⟩
    exact ⟨⟨x.2, List.mem_range.2 h1, by rw [← h2]⟩, by simpa using h3⟩

/-- No index is used twice, and the indexes rise. -/
theorem State.usedSymbols_rising (s : State) (N : Nat) : (s.usedSymbols N).Pairwise fun a b => a.2 < b.2 := by
  refine List.Pairwise.filter _ ?_
  rw [List.pairwise_map]
  exact List.pairwise_lt_range

theorem State.usedSymbols_nodup (s : State) (N : Nat) : ((s.usedSymbols N).map (·.2)).Nodup := by
  rw [List.Nodup, List.pairwise_map]
  exact (s.usedSymbols_rising N).imp fun h => ne_of_lt h

/-- R193: in canonical order each used symbol comes before the next ones, strictly. -/
theorem State.sortBy_usedSymbols_strict (s : State) (N : Nat) :
    (sortBy symbolLe (s.usedSymbols N)).Pairwise fun a b => s.comesBefore a.2 b.2 := by
  have distinct : (sortBy symbolLe (s.usedSymbols N)).Pairwise fun a b => a.2 ≠ b.2 := by
    have nodup := ((sortBy_perm symbolLe (s.usedSymbols N)).map (·.2)).nodup_iff.2 (s.usedSymbols_nodup N)
    exact List.pairwise_map.1 nodup
  refine List.Pairwise.imp_of_mem ?_ ((sortBy_symbolLe_pairwise (s.usedSymbols N)).and distinct)
  rintro a b ha hb ⟨hle, hne⟩
  have ha := State.mem_usedSymbols.1 ((sortBy_perm _ _).mem_iff.1 ha)
  have hb := State.mem_usedSymbols.1 ((sortBy_perm _ _).mem_iff.1 hb)
  rw [symbolLe_iff, ha.2.1, hb.2.1] at hle
  unfold State.comesBefore State.lengthOf
  omega

/-- A used symbol has a place in canonical order. -/
theorem State.used_getElem {s : State} {N i : Nat} (h : s.used N i) :
    ∃ k, ∃ hk : k < (sortBy symbolLe (s.usedSymbols N)).length, (sortBy symbolLe (s.usedSymbols N))[k] = (s.lengthOf i, i) := by
  have hm : (s.lengthOf i, i) ∈ sortBy symbolLe (s.usedSymbols N) :=
    (sortBy_perm _ _).mem_iff.2 (State.mem_usedSymbols.2 ⟨h.1, rfl, h.2⟩)
  obtain ⟨k, hk, e⟩ := List.mem_iff_getElem.1 hm
  exact ⟨k, hk, e⟩

/-- The length of a used symbol is in 1..255 (10_state.md R54). -/
theorem State.usedLengths_bounds (s : State) (N : Nat) : ∀ l ∈ s.usedLengths N, 1 ≤ l ∧ l ≤ 255 := by
  intro l hl
  obtain ⟨x, hx, rfl⟩ := List.mem_map.1 hl
  have h1 := State.mem_usedSymbols.1 hx
  have h2 := (s.sizeAt x.2).isLt
  omega

/-! ### The code recurrence (R194) -/

/-- The codes are given in the order of the symbols. -/
theorem assignCodes_map_fst (code prev : Nat) (l : List (Nat × Nat)) :
    (assignCodes code prev l).map (·.1) = l.map (·.2) := by
  induction l generalizing code prev with
  | nil => rfl
  | cons x l ih =>
    obtain ⟨len, i⟩ := x
    rw [assignCodes, List.map_cons, List.map_cons, ih]

theorem assignCodes_length (code prev : Nat) (l : List (Nat × Nat)) : (assignCodes code prev l).length = l.length := by
  have := congrArg List.length (assignCodes_map_fst code prev l)
  simpa using this

/-- Each code lies beyond the running value it starts from, scaled to its length. -/
theorem assignCodes_ge {code prev : Nat} {l : List (Nat × Nat)} (hl : ∀ x ∈ l, prev ≤ x.1)
    (hs : l.Pairwise fun a b => a.1 ≤ b.1) {y : (Nat × Nat) × (Nat × Nat)} (h : y ∈ l.zip (assignCodes code prev l)) :
    code * 2 ^ (y.1.1 - prev) ≤ y.2.2 := by
  induction l generalizing code prev with
  | nil => cases h
  | cons x l ih =>
    obtain ⟨len, i⟩ := x
    rw [assignCodes, List.zip_cons_cons] at h
    obtain ⟨hx, hs⟩ := List.pairwise_cons.1 hs
    have hp : prev ≤ len := hl _ List.mem_cons_self
    rcases List.mem_cons.1 h with rfl | h
    · rw [Nat.shiftLeft_eq]
    · have hlen : len ≤ y.1.1 := hx _ (List.of_mem_zip h).1
      have := ih (fun z hz => hx z hz) hs h
      rw [Nat.shiftLeft_eq] at this
      calc code * 2 ^ (y.1.1 - prev) = code * 2 ^ (len - prev) * 2 ^ (y.1.1 - len) := by
            rw [Nat.mul_assoc, ← Nat.pow_add]; congr 2; omega
        _ ≤ (code * 2 ^ (len - prev) + 1) * 2 ^ (y.1.1 - len) := Nat.mul_le_mul_right _ (Nat.le_succ _)
        _ ≤ y.2.2 := this

/-- R194, R196 (b): a later code, cut to the length of an earlier one, lies beyond it. -/
theorem assignCodes_pairwise {code prev : Nat} {l : List (Nat × Nat)} (hl : ∀ x ∈ l, prev ≤ x.1)
    (hs : l.Pairwise fun a b => a.1 ≤ b.1) :
    (l.zip (assignCodes code prev l)).Pairwise fun a b => (a.2.2 + 1) * 2 ^ (b.1.1 - a.1.1) ≤ b.2.2 := by
  induction l generalizing code prev with
  | nil => exact List.Pairwise.nil
  | cons x l ih =>
    obtain ⟨len, i⟩ := x
    obtain ⟨hx, hs⟩ := List.pairwise_cons.1 hs
    rw [assignCodes, List.zip_cons_cons]
    exact List.pairwise_cons.2 ⟨fun b hb => assignCodes_ge (fun z hz => hx z hz) hs hb, ih (fun z hz => hx z hz) hs⟩

/-- R194: the code after a code of the same or a longer length. -/
theorem assignCodes_chain {code prev : Nat} {l : List (Nat × Nat)} :
    (l.zip (assignCodes code prev l)).IsChain fun a b => b.2.2 = (a.2.2 + 1) * 2 ^ (b.1.1 - a.1.1) := by
  induction l generalizing code prev with
  | nil => exact List.IsChain.nil
  | cons x l ih =>
    obtain ⟨len, i⟩ := x
    rw [assignCodes, List.zip_cons_cons]
    cases l with
    | nil => exact List.IsChain.singleton _
    | cons y l =>
      obtain ⟨len', j⟩ := y
      have := ih (code := code <<< (len - prev) + 1) (prev := len)
      rw [assignCodes, List.zip_cons_cons] at this ⊢
      refine List.IsChain.cons_cons ?_ this
      rw [Nat.shiftLeft_eq]

/-- R194: every code, with the Kraft sum up to it, fits: in units of `2^-B` the next free code value is the running value plus the
Kraft sum of the symbols up to it. -/
theorem assignCodes_le {B code prev : Nat} {l : List (Nat × Nat)} (hl : ∀ x ∈ l, prev ≤ x.1 ∧ x.1 ≤ B)
    (hs : l.Pairwise fun a b => a.1 ≤ b.1) {y : (Nat × Nat) × (Nat × Nat)} (h : y ∈ l.zip (assignCodes code prev l)) :
    (y.2.2 + 1) * 2 ^ (B - y.1.1) ≤ code * 2 ^ (B - prev) + kraft B (l.map (·.1)) := by
  induction l generalizing code prev with
  | nil => cases h
  | cons x l ih =>
    obtain ⟨len, i⟩ := x
    obtain ⟨hx, hs⟩ := List.pairwise_cons.1 hs
    obtain ⟨hp, hB⟩ := hl _ List.mem_cons_self
    rw [assignCodes, List.zip_cons_cons] at h
    have scale : code <<< (len - prev) * 2 ^ (B - len) = code * 2 ^ (B - prev) := by
      rw [Nat.shiftLeft_eq, Nat.mul_assoc, ← Nat.pow_add]
      congr 2
      simp only at hp hB
      omega
    have hk : kraft B (((len, i) :: l).map (·.1)) = 2 ^ (B - len) + kraft B (l.map (·.1)) := rfl
    rw [hk]
    rcases List.mem_cons.1 h with rfl | h
    · simp only
      rw [Nat.add_mul, scale, Nat.one_mul]
      omega
    · have := ih (fun z hz => ⟨hx z hz, (hl z (List.mem_cons_of_mem _ hz)).2⟩) hs h
      have step : (code <<< (len - prev) + 1) * 2 ^ (B - len) = code * 2 ^ (B - prev) + 2 ^ (B - len) := by
        rw [Nat.add_mul, scale, Nat.one_mul]
      simp only [step] at this
      omega

/-! ### Histograms (R204, R205) -/

/-- The sum of a histogram's counts at 1..M, each times a weight. -/
def weighted (f : Nat → Nat) (M : Nat) (h : List Nat) : Nat := ((List.range M).map fun k => h.getD (k + 1) 0 * f k).sum

theorem histogramTotal_eq (M : Nat) (h : List Nat) : histogramTotal M h = weighted (fun k => 2 ^ (M - (k + 1))) M h := rfl

/-- Changing one count changes the sum by its weight. -/
theorem weighted_set (f : Nat → Nat) {M : Nat} {h : List Nat} {k : Nat} (hk : k < M) (hl : k + 1 < h.length) (v : Nat) :
    weighted f M (h.set (k + 1) v) + h.getD (k + 1) 0 * f k = weighted f M h + v * f k := by
  unfold weighted
  have get : ∀ j, (h.set (k + 1) v).getD (j + 1) 0 = if j = k then v else h.getD (j + 1) 0 := by
    intro j
    rw [List.getD_eq_getElem?_getD, List.getElem?_set]
    by_cases hj : j = k
    · subst hj; simp [hl]
    · rw [if_neg (by omega), if_neg hj, List.getD_eq_getElem?_getD]
  simp only [get]
  clear get hl
  induction M with
  | zero => omega
  | succ M ih =>
    rw [List.range_succ, List.map_append, List.map_append, List.sum_append, List.sum_append]
    simp only [List.map_cons, List.map_nil, List.sum_cons, List.sum_nil, Nat.add_zero]
    rcases Nat.lt_or_ge k M with hlt | hge
    · have := ih hlt
      rw [if_neg (show ¬ M = k by omega)]
      omega
    · obtain rfl : k = M := by omega
      rw [if_pos rfl]
      have : ((List.range k).map fun j => (if j = k then v else h.getD (j + 1) 0) * f j) =
          (List.range k).map fun j => h.getD (j + 1) 0 * f j :=
        List.map_congr_left fun j hj => by rw [if_neg (by have := List.mem_range.1 hj; omega)]
      rw [this]
      omega

/-- What `longestUsed` finds: the longest length up to `j` that has a symbol. -/
theorem longestUsed_eq_some {h : List Nat} {j L : Nat} (hl : longestUsed h j = some L) :
    1 ≤ L ∧ L ≤ j ∧ 0 < h.getD L 0 ∧ ∀ k, L < k → k ≤ j → h.getD k 0 = 0 := by
  induction j with
  | zero => cases hl
  | succ j ih =>
    rw [longestUsed] at hl
    split at hl
    · rename_i hp
      injection hl with hl
      subst hl
      exact ⟨Nat.le_add_left _ _, Nat.le_refl _, hp, fun k h1 h2 => by omega⟩
    · rename_i hp
      obtain ⟨h1, h2, h3, h4⟩ := ih hl
      refine ⟨h1, Nat.le_succ_of_le h2, h3, fun k hk hkj => ?_⟩
      rcases Nat.lt_or_eq_of_le hkj with hlt | rfl
      · exact h4 k hk (Nat.le_of_lt_succ hlt)
      · exact Nat.eq_zero_of_not_pos hp

theorem longestUsed_eq_none {h : List Nat} {j : Nat} (hl : longestUsed h j = none) :
    ∀ k, 1 ≤ k → k ≤ j → h.getD k 0 = 0 := by
  induction j with
  | zero => intro k h1 h2; omega
  | succ j ih =>
    rw [longestUsed] at hl
    split at hl
    · cases hl
    · rename_i hp
      intro k h1 h2
      rcases Nat.lt_or_eq_of_le h2 with hlt | rfl
      · exact ih hl k h1 (Nat.le_of_lt_succ hlt)
      · exact Nat.eq_zero_of_not_pos hp

end Sys2Proof.Machine
end

