-- ==== Sys2Proof/Laws/Limit.lean ====
section
/-! SUPPORT. The rebalance loop of 41_prefix_code.md R204-R206 and the lengths it gives. -/

namespace Sys2Proof.Machine

/-! ### One step (R205) -/

theorem getD_set_ne {h : List Nat} {i j : Nat} (v : Nat) (hij : i ≠ j) : (h.set i v).getD j 0 = h.getD j 0 := by
  rw [List.getD_eq_getElem?_getD, List.getElem?_set_ne hij, ← List.getD_eq_getElem?_getD]

theorem getD_set_self {h : List Nat} {i : Nat} (v : Nat) (hi : i < h.length) : (h.set i v).getD i 0 = v := by
  rw [List.getD_eq_getElem?_getD, List.getElem?_set_self hi]; rfl

/-- R205, once: a step takes a symbol from M and one from some shorter j, and gives two to j + 1. -/
theorem rebalanceStep_spec {M : Nat} {h h' : List Nat} (hM : 1 ≤ M) (hl : h.length = M + 1)
    (hs : rebalanceStep M h = some h') :
    h'.length = M + 1 ∧ h'.getD 0 0 = h.getD 0 0 ∧ h.getD M 0 ≤ h'.getD M 0 + 1 ∧
      ∃ j, 1 ≤ j ∧ j < M ∧ ∀ f : Nat → Nat, weighted f M h' + f (M - 1) + f (j - 1) = weighted f M h + 2 * f j := by
  unfold rebalanceStep at hs
  split at hs
  · cases hs
  rename_i h0
  obtain ⟨j, hj, e⟩ := Option.map_eq_some_iff.1 hs
  dsimp only at e
  subst e
  obtain ⟨j1, j2, j3, -⟩ := longestUsed_eq_some hj
  have hjM : j < M := by omega
  have l1 : (h.set M (h.getD M 0 - 1)).length = M + 1 := by rw [List.length_set]; exact hl
  refine ⟨by rw [List.length_set, List.length_set]; exact l1, ?_, ?_, j, j1, hjM, fun f => ?_⟩
  · rw [getD_set_ne _ (by omega), getD_set_ne _ (by omega), getD_set_ne _ (by omega)]
  · have hM2 : ((h.set M (h.getD M 0 - 1)).set j ((h.set M (h.getD M 0 - 1)).getD j 0 - 1)).getD M 0 = h.getD M 0 - 1 := by
      rw [getD_set_ne _ (by omega), getD_set_self _ (by omega)]
    rcases Nat.lt_or_eq_of_le (show j + 1 ≤ M by omega) with hlt | heq
    · rw [getD_set_ne _ (by omega), hM2]; omega
    · rw [heq, hM2, getD_set_self _ (by rw [List.length_set, l1]; omega)]
      omega
  · have e1 := weighted_set f (M := M) (h := h) (k := M - 1) (by omega) (by omega) (h.getD M 0 - 1)
    rw [show M - 1 + 1 = M by omega] at e1
    have e2 := weighted_set f (M := M) (h := h.set M (h.getD M 0 - 1)) (k := j - 1) (by omega) (by omega)
      ((h.set M (h.getD M 0 - 1)).getD j 0 - 1)
    rw [show j - 1 + 1 = j by omega] at e2
    have e3 := weighted_set f (M := M) (h := (h.set M (h.getD M 0 - 1)).set j ((h.set M (h.getD M 0 - 1)).getD j 0 - 1)) (k := j)
      hjM (by rw [List.length_set]; omega)
      (((h.set M (h.getD M 0 - 1)).set j ((h.set M (h.getD M 0 - 1)).getD j 0 - 1)).getD (j + 1) 0 + 2)
    have m1 : (h.getD M 0 - 1) * f (M - 1) + f (M - 1) = h.getD M 0 * f (M - 1) := by
      rw [← Nat.succ_mul]; congr 1; omega
    have m2 : ((h.set M (h.getD M 0 - 1)).getD j 0 - 1) * f (j - 1) + f (j - 1) =
        (h.set M (h.getD M 0 - 1)).getD j 0 * f (j - 1) := by
      rw [← Nat.succ_mul]; congr 1; omega
    rw [Nat.add_mul] at e3
    omega

/-- R205: the total falls by exactly 1. -/
theorem rebalanceStep_total {M : Nat} {h h' : List Nat} (hM : 1 ≤ M) (hl : h.length = M + 1)
    (hs : rebalanceStep M h = some h') : histogramTotal M h' + 1 = histogramTotal M h := by
  obtain ⟨-, -, -, j, j1, j2, hw⟩ := rebalanceStep_spec hM hl hs
  have := hw fun k => 2 ^ (M - (k + 1))
  rw [← histogramTotal_eq, ← histogramTotal_eq] at this
  have p0 : 2 ^ (M - (M - 1 + 1)) = 1 := by rw [show M - (M - 1 + 1) = 0 by omega, Nat.pow_zero]
  have p1 : 2 ^ (M - (j - 1 + 1)) = 2 * 2 ^ (M - (j + 1)) := by
    rw [show M - (j - 1 + 1) = M - (j + 1) + 1 by omega, Nat.pow_succ]; omega
  simp only [p0, p1] at this
  omega

/-! ### The loop (R206) -/

/-- R206: while the total is above 2^M, with fewer than `h[M]` to go, a step is possible. -/
theorem rebalanceStep_isSome {M : Nat} {h : List Nat} (hM : 1 ≤ M) (few : weighted (fun _ => 1) M h ≤ 2 ^ M)
    (above : 2 ^ M < histogramTotal M h) (excess : histogramTotal M h < 2 ^ M + h.getD M 0) (hl : h.length = M + 1) :
    (rebalanceStep M h).isSome = true := by
  unfold rebalanceStep
  rw [if_neg (by omega), Option.isSome_map]
  cases hj : longestUsed (h.set M (h.getD M 0 - 1)) (M - 1) with
  | some j => rfl
  | none =>
    exfalso
    have hz := longestUsed_eq_none hj
    have : histogramTotal M h = weighted (fun _ => 1) M h := by
      rw [histogramTotal_eq]
      unfold weighted
      congr 1
      refine List.map_congr_left fun k hk => ?_
      have hk := List.mem_range.1 hk
      rcases Nat.lt_or_eq_of_le (show k + 1 ≤ M by omega) with hlt | heq
      · have := hz (k + 1) (by omega) (by omega)
        rw [getD_set_ne _ (by omega)] at this
        rw [this, Nat.zero_mul, Nat.zero_mul]
      · dsimp only
        rw [heq, Nat.sub_self, Nat.pow_zero]
    omega

/-- R205, R206: the loop reaches 2^M, keeping the number of symbols. -/
theorem rebalance_spec {M : Nat} (hM : 1 ≤ M) (fuel : Nat) {h : List Nat} (hl : h.length = M + 1)
    (few : weighted (fun _ => 1) M h ≤ 2 ^ M) (ge : 2 ^ M ≤ histogramTotal M h)
    (excess : histogramTotal M h = 2 ^ M ∨ histogramTotal M h < 2 ^ M + h.getD M 0)
    (hf : histogramTotal M h ≤ 2 ^ M + fuel) :
    ∃ h', rebalance M fuel (histogramTotal M h) h = some h' ∧ h'.length = M + 1 ∧ h'.getD 0 0 = h.getD 0 0 ∧
      weighted (fun _ => 1) M h' = weighted (fun _ => 1) M h ∧ histogramTotal M h' = 2 ^ M := by
  induction fuel generalizing h with
  | zero =>
    have e : histogramTotal M h = 2 ^ M := by omega
    exact ⟨h, by rw [rebalance, if_pos e], hl, rfl, rfl, e⟩
  | succ fuel ih =>
    rw [rebalance]
    by_cases e : histogramTotal M h = 2 ^ M
    · exact ⟨h, by rw [if_pos e], hl, rfl, rfl, e⟩
    · have hex := excess.resolve_left e
      obtain ⟨h', hs⟩ := Option.isSome_iff_exists.1 (rebalanceStep_isSome hM few (by omega) hex hl)
      obtain ⟨l', z', m', j, j1, j2, hw⟩ := rebalanceStep_spec hM hl hs
      have ht := rebalanceStep_total hM hl hs
      have hn := hw fun _ => 1
      obtain ⟨h'', r1, r2, r3, r4, r5⟩ := ih (h := h') l' (by omega) (by omega) (.inr (by omega)) (by omega)
      refine ⟨h'', ?_, r2, r3.trans z', by omega, r5⟩
      rw [if_neg e, hs, show histogramTotal M h - 1 = histogramTotal M h' by omega]
      exact r1

/-! ### The clamped histogram (R204) -/

theorem clampedHistogram_length (M : Nat) (lens : List Nat) : (clampedHistogram M lens).length = M + 1 := by
  simp [clampedHistogram]

theorem clampedHistogram_getD {M L : Nat} (hL : L ≤ M) (lens : List Nat) :
    (clampedHistogram M lens).getD L 0 = lens.countP fun l => min l M = L := by
  unfold clampedHistogram
  rw [List.getD_eq_getElem?_getD, List.getElem?_map, List.getElem?_range (by omega)]
  rfl

/-- A weighted sum of the histogram is the sum of the weights of the clamped lengths. -/
theorem weighted_clampedHistogram (f : Nat → Nat) {M : Nat} (hM : 1 ≤ M) {lens : List Nat} (hp : ∀ l ∈ lens, 1 ≤ l) :
    weighted f M (clampedHistogram M lens) = (lens.map fun l => f (min l M - 1)).sum := by
  have get : weighted f M (clampedHistogram M lens) =
      ((List.range M).map fun k => (lens.countP fun l => min l M = k + 1) * f k).sum := by
    unfold weighted
    congr 1
    refine List.map_congr_left fun k hk => ?_
    rw [clampedHistogram_getD (by have := List.mem_range.1 hk; omega)]
  rw [get]
  clear get
  have single : ∀ (n m : Nat), m < n → ((List.range n).map fun k => if m = k then f k else 0).sum = f m := by
    intro n m hm
    induction n with
    | zero => omega
    | succ n ih =>
      rw [List.range_succ, List.map_append, List.sum_append]
      rcases Nat.lt_or_ge m n with hlt | hge
      · rw [ih hlt]; simp [show m ≠ n by omega]
      · obtain rfl : m = n := by omega
        have : ((List.range m).map fun k => if m = k then f k else 0) = (List.range m).map fun _ => 0 :=
          List.map_congr_left fun k hk => by rw [if_neg (by have := List.mem_range.1 hk; omega)]
        rw [this]; simp
  have add : ∀ (n : Nat) (a b : Nat → Nat),
      ((List.range n).map fun k => a k + b k).sum = ((List.range n).map a).sum + ((List.range n).map b).sum := by
    intro n a b
    induction n with
    | zero => rfl
    | succ n ih =>
      simp only [List.range_succ, List.map_append, List.sum_append, ih, List.map_cons, List.map_nil, List.sum_cons, List.sum_nil]
      omega
  induction lens with
  | nil => simp
  | cons x lens ih =>
    have hx := hp x List.mem_cons_self
    rw [List.map_cons, List.sum_cons, ← ih fun l hl => hp l (List.mem_cons_of_mem _ hl), Nat.add_comm,
      ← single M (min x M - 1) (by omega), ← add]
    congr 1
    refine List.map_congr_left fun k hk => ?_
    rw [List.countP_cons]
    by_cases e : min x M = k + 1
    · rw [if_pos (by simpa using e), if_pos (by omega), Nat.add_mul, Nat.one_mul]
    · rw [if_neg (by simpa using e), if_neg (by omega)]
      simp

/-- The number of symbols of the clamped histogram. -/
theorem clampedHistogram_count {M : Nat} (hM : 1 ≤ M) {lens : List Nat} (hp : ∀ l ∈ lens, 1 ≤ l) :
    weighted (fun _ => 1) M (clampedHistogram M lens) = lens.length := by
  rw [weighted_clampedHistogram _ hM hp]; simp

/-- R204: the total of the clamped lengths. -/
theorem clampedHistogram_total {M : Nat} (hM : 1 ≤ M) {lens : List Nat} (hp : ∀ l ∈ lens, 1 ≤ l) :
    histogramTotal M (clampedHistogram M lens) = (lens.map fun l => 2 ^ (M - min l M)).sum := by
  rw [histogramTotal_eq, weighted_clampedHistogram _ hM hp]
  congr 1
  refine List.map_congr_left fun l hl => ?_
  have := hp l hl
  rw [show M - (min l M - 1 + 1) = M - min l M by omega]

/-- R206: clamping complete lengths gives a total of at least 2^M, above it by less than the number of clamped symbols. -/
theorem clampedHistogram_excess {M : Nat} (hM : 1 ≤ M) (hM' : M ≤ 32) {lens : List Nat} (hp : ∀ l ∈ lens, 1 ≤ l ∧ l ≤ 255)
    (complete : kraft 255 lens = 2 ^ 255) :
    2 ^ M ≤ histogramTotal M (clampedHistogram M lens) ∧
      (histogramTotal M (clampedHistogram M lens) = 2 ^ M ∨
        histogramTotal M (clampedHistogram M lens) < 2 ^ M + (clampedHistogram M lens).getD M 0) := by
  rw [clampedHistogram_total hM fun l hl => (hp l hl).1, clampedHistogram_getD (Nat.le_refl M)]
  have split255 : 2 ^ 255 = 2 ^ M * 2 ^ (255 - M) := by rw [← Nat.pow_add]; congr 1; omega
  have key : ∀ ls : List Nat, (∀ l ∈ ls, 1 ≤ l ∧ l ≤ 255) →
      kraft 255 ls ≤ (ls.map fun l => 2 ^ (M - min l M)).sum * 2 ^ (255 - M) ∧
      (ls.map fun l => 2 ^ (M - min l M)).sum * 2 ^ (255 - M) + (ls.countP fun l => M < l) ≤
        kraft 255 ls + (ls.countP fun l => M < l) * 2 ^ (255 - M) := by
    intro ls
    induction ls with
    | nil => intro _; simp [kraft]
    | cons x ls ih =>
      intro hx
      obtain ⟨i1, i2⟩ := ih fun l hl => hx l (List.mem_cons_of_mem _ hl)
      obtain ⟨x1, x2⟩ := hx x List.mem_cons_self
      have kc : kraft 255 (x :: ls) = 2 ^ (255 - x) + kraft 255 ls := by rw [kraft, List.map_cons, List.sum_cons]; rfl
      rw [kc, List.map_cons, List.sum_cons, Nat.add_mul, List.countP_cons]
      rcases Nat.lt_or_ge M x with hlt | hge
      · have q : (if (decide (M < x)) = true then 1 else 0) = 1 := if_pos (by simpa using hlt)
        rw [q, show M - min x M = 0 by omega, Nat.pow_zero, Nat.one_mul, Nat.add_mul, Nat.one_mul]
        have p1 : 1 ≤ 2 ^ (255 - x) := Nat.one_le_two_pow
        have p2 : 2 ^ (255 - x) ≤ 2 ^ (255 - M) := Nat.pow_le_pow_right (by decide) (by omega)
        omega
      · have q : (if (decide (M < x)) = true then 1 else 0) = 0 := if_neg (by simpa using hge)
        rw [q, show M - min x M = M - x by omega, ← Nat.pow_add, show M - x + (255 - M) = 255 - x by omega, Nat.add_zero]
        omega
  obtain ⟨k1, k2⟩ := key lens hp
  rw [complete, split255] at k1 k2
  have K1 : 1 ≤ 2 ^ (255 - M) := Nat.one_le_two_pow
  refine ⟨Nat.le_of_mul_le_mul_right k1 K1, ?_⟩
  have cnt : (lens.countP fun l => M < l) ≤ lens.countP fun l => min l M = M := by
    refine List.countP_mono_left fun l _ h => ?_
    simp only [decide_eq_true_eq] at h ⊢
    omega
  rcases Nat.eq_zero_or_pos (lens.countP fun l => M < l) with h0 | h0
  · rw [h0] at k2
    simp only [Nat.zero_mul, Nat.add_zero] at k2
    exact .inl (Nat.eq_of_mul_eq_mul_right K1 (Nat.le_antisymm k2 k1))
  · refine .inr (Nat.lt_of_lt_of_le ?_ (Nat.add_le_add_left cnt _))
    have : (lens.map fun l => 2 ^ (M - min l M)).sum * 2 ^ (255 - M) <
        (2 ^ M + lens.countP fun l => M < l) * 2 ^ (255 - M) := by rw [Nat.add_mul]; omega
    exact Nat.lt_of_mul_lt_mul_right this

/-! ### The lengths of a histogram (R207) -/

theorem mem_histogramLengths {M : Nat} {h : List Nat} {l : Nat} (hl : l ∈ histogramLengths M h) : 1 ≤ l ∧ l ≤ M := by
  unfold histogramLengths at hl
  obtain ⟨k, hk, hr⟩ := List.mem_flatMap.1 hl
  have := List.mem_range.1 hk
  rw [List.eq_of_mem_replicate hr]
  omega

theorem histogramLengths_sorted (M : Nat) (h : List Nat) : (histogramLengths M h).Pairwise fun a b => a ≤ b := by
  unfold histogramLengths
  rw [List.pairwise_flatMap]
  refine ⟨fun k _ => List.pairwise_replicate.2 (.inr (Nat.le_refl _)), ?_⟩
  refine List.Pairwise.imp (fun {a b} hab x hx y hy => ?_) List.pairwise_lt_range
  rw [List.eq_of_mem_replicate hx, List.eq_of_mem_replicate hy]
  omega

theorem histogramLengths_sum (g : Nat → Nat) (M : Nat) (h : List Nat) :
    ((histogramLengths M h).map g).sum = weighted (fun k => g (k + 1)) M h := by
  unfold histogramLengths weighted
  rw [List.map_flatMap, List.flatMap_def, List.sum_flatten, List.map_map]
  congr 1
  refine List.map_congr_left fun k _ => ?_
  simp

theorem histogramLengths_length (M : Nat) (h : List Nat) : (histogramLengths M h).length = weighted (fun _ => 1) M h := by
  have := histogramLengths_sum (fun _ => 1) M h
  simpa using this

/-- R208 (b): the lengths of a histogram with total 2^M are complete. -/
theorem histogramLengths_kraft (M : Nat) (h : List Nat) : kraft M (histogramLengths M h) = histogramTotal M h :=
  histogramLengths_sum (fun l => 2 ^ (M - l)) M h

end Sys2Proof.Machine
end

