-- ==== Sys2Proof/Laws/PerInstr.lean ====
section
/-! SUPPORT. Statements per command, about the command as syntax: the family `RoundTrip`. -/

namespace Sys2Proof.Laws.RoundTrip

/-- 30_encoding.md R103-R105: the command's word has RSVD 0 and the command's opcode, its own unit reads the command from it, and the
other unit does not; the command is well-formed at its own unit. -/
def Statement (i : Instr) : Prop :=
  reservedField (encode i) = 0 ∧ opcodeField (encode i) = i.opcode ∧ decode i.unit (encode i) = .legal i ∧
    i.wellFormedAt i.unit = true ∧ ∀ u, u ≠ i.unit → i.wellFormedAt u = false ∧ decode u (encode i) = .illegal .otherUnit

theorem htInit : Statement .htInit :=
  ⟨by decide, by decide, by decide, by decide, fun u h => by cases u <;> first | exact absurd rfl h | decide⟩

theorem htGet : Statement .htGet :=
  ⟨by decide, by decide, by decide, by decide, fun u h => by cases u <;> first | exact absurd rfl h | decide⟩

theorem htCount : Statement .htCount :=
  ⟨by decide, by decide, by decide, by decide, fun u h => by cases u <;> first | exact absurd rfl h | decide⟩

theorem htRdslot : Statement .htRdslot :=
  ⟨by decide, by decide, by decide, by decide, fun u h => by cases u <;> first | exact absurd rfl h | decide⟩

theorem pcSort : Statement .pcSort :=
  ⟨by decide, by decide, by decide, by decide, fun u h => by cases u <;> first | exact absurd rfl h | decide⟩

theorem pcGencodes : Statement .pcGencodes :=
  ⟨by decide, by decide, by decide, by decide, fun u h => by cases u <;> first | exact absurd rfl h | decide⟩

theorem pcLimit : Statement .pcLimit :=
  ⟨by decide, by decide, by decide, by decide, fun u h => by cases u <;> first | exact absurd rfl h | decide⟩

theorem pcClrflt : Statement .pcClrflt :=
  ⟨by decide, by decide, by decide, by decide, fun u h => by cases u <;> first | exact absurd rfl h | decide⟩

end Sys2Proof.Laws.RoundTrip
end

