-- ==== Sys2Proof/Tests/Slice0.lean ====
section
/-! SUPPORT. The model's own tests: ill-formed terms refused, words decoded bit by bit, one step per command with the expected
values of spec/95_test_vectors.md, and for each statement with hypotheses a state that meets them all. -/

namespace Sys2Proof.Tests

open Sys2Proof.Machine

/-! ### Ill-formed terms (WellFormed.lean) -/

theorem test_ht_command_at_pc_refused : Instr.htGet.wellFormedAt .pc = false := by decide
theorem test_pc_command_at_ht_refused : Instr.pcSort.wellFormedAt .ht = false := by decide
theorem test_max_loglen_zero_refused : Params.wellFormed { maxLoglen := 0, base := 0, srcVisibility := .coherent } = false := by decide
theorem test_max_loglen_33_refused : Params.wellFormed { maxLoglen := 33, base := 0, srcVisibility := .coherent } = false := by decide
theorem test_misaligned_base_refused : Params.wellFormed { maxLoglen := 32, base := 0x2000, srcVisibility := .explicit } = false := by
  decide

/-! ### Words bit by bit (30_encoding.md R100, R103) -/

theorem test_decode_get_bits : decode .ht 0b000000000000000000000000_00000010#32 = .legal .htGet := by decide
theorem test_decode_rdslot_bits : decode .ht 0b000000000000000000000000_00000100#32 = .legal .htRdslot := by decide
theorem test_decode_gencodes_bits : decode .pc 0b000000000000000000000000_00010010#32 = .legal .pcGencodes := by decide
theorem test_decode_clrflt_bits : decode .pc 0b000000000000000000000000_00010100#32 = .legal .pcClrflt := by decide
/-- X3: RSVD bit 8 set. -/
theorem test_decode_reserved_bit : decode .ht 0b000000000000000000000001_00000010#32 = .illegal .reservedBits := by decide
theorem test_decode_three_bytes : decodeBytes .ht [0x02#8, 0x00#8, 0x00#8] = .illegal .wrongLength := by decide

/-! ### States -/

/-- The reset state with this HT unit, and these bytes in the source buffer from offset 0. -/
def htState (h : HtUnit) (bytes : List Byte) : State :=
  { State.reset with ht := h, src := { visible := (List.range bytes.length).zip bytes, pending := [], raced := [] } }

/-- The reset state with this PC unit. -/
def pcState (p : PcUnit) : State := { State.reset with pc := p }

/-- The state a step answers. -/
def after (r : StepResult) : Option State :=
  match r with
  | .next t => some t
  | .fault _ => none
  | .refused _ => none

def aaaa : List Byte := [0x61#8, 0x61#8, 0x61#8, 0x61#8]
def bbbb : List Byte := [0x62#8, 0x62#8, 0x62#8, 0x62#8]

/-- SIZE entries 0, 1, ... with these lengths, `N` of them, and PC_MAXLEN. -/
def sizesState (lens : List Byte) (M : Word) : State :=
  pcState { PcUnit.reset with
    numsyms := BitVec.ofNat 32 lens.length
    maxlen := M
    size := (List.range lens.length).zip lens }

/-! ### One step per command -/

/-- I1: `ht.init 2, 0`. -/
theorem test_init_geometry : (after (step (State.withFetchWord (htState { HtUnit.reset Params.default with initLoglen := 2 } []) 32 0x01))).map
    (fun t => (t.ht.geomWord, t.ht.statusWord)) = some (0x00001E02#32, 0#32) := by decide

/-- I4: INIT_LOGLEN 33. -/
theorem test_init_33_faults : (after (step (State.withFetchWord (htState { HtUnit.reset Params.default with initLoglen := 33 } []) 32 0x01))).map
    (fun t => (t.ht.statusWord, t.ht.geomWord)) = some (0x00000602#32, 0x00001C04#32) := by decide

/-- G1, then G2: the candidate is stored at its home slot 1. -/
theorem test_get_inserts_at_home : (after (step (State.withFetchWord (htState { HtUnit.reset Params.default with
      loglen := 3, srcLen := 4, hash := 0x33333333#32, candOff := 0, len := 4 } aaaa) 32 0x02))).map
    (fun t => (t.ht.slots, t.ht.existed, t.ht.keycount)) =
      some ([(1, { hash := 0x33333333#32, offset := 0#32, len := 4#32 })], false, 1#32) := by decide

/-- G16's second GET: the table doubles and the old slots are placed in ascending order. -/
theorem test_get_doubles_the_table : (after (step (State.withFetchWord (htState { HtUnit.reset Params.default with
      loglen := 1, slots := [(1, { hash := 0x80000000#32, offset := 0#32, len := 4#32 })], keycount := 1, srcLen := 8
      hash := 0x80000001#32, candOff := 4, len := 4 } (aaaa ++ bbbb)) 32 0x02))).map
    (fun t => (t.ht.slots, t.ht.geomWord)) =
      some ([(2, { hash := 0x80000001#32, offset := 4#32, len := 4#32 }), (3, { hash := 0x80000000#32, offset := 0#32, len := 4#32 })],
        0x00001E02#32) := by decide

/-- D4 and K4's shape: of two listed slots only the one with a hash that is not 0 counts. -/
theorem test_count_skips_zero_hash : (after (step (State.withFetchWord (htState { HtUnit.reset Params.default with
      loglen := 3, slots := [(0, { hash := 0x00000001#32, offset := 0#32, len := 4#32 }), (1, { hash := 0#32, offset := 8#32, len := 4#32 })]
      keycount := 2 } []) 32 0x03))).map (fun t => t.ht.resCount) = some 1#32 := by decide

/-- D4: an empty slot with other fields set. -/
theorem test_rdslot_empty_slot : (after (step (State.withFetchWord (htState { HtUnit.reset Params.default with
      loglen := 3, slots := [(1, { hash := 0#32, offset := 8#32, len := 4#32 })], slotIdx := 1 } []) 32 0x04))).map
    (fun t => (t.ht.slotHash, t.ht.slotOff, t.ht.slotLen)) = some (0#32, 8#32, 4#32) := by decide

/-- D3: index 4 of a table of 4 slots. -/
theorem test_rdslot_past_the_end : (after (step (State.withFetchWord (htState { HtUnit.reset Params.default with
      loglen := 2, slotIdx := 4, slotOff := 9 } []) 32 0x04))).map
    (fun t => (t.ht.statusWord, t.ht.slotOff)) = some (0x00000702#32, 9#32) := by decide

/-- S1. -/
theorem test_sort_by_freq_then_sym : (after (step (State.withFetchWord (pcState { PcUnit.reset with
      numsyms := 5
      sym := [(0, 0x00050000#32), (1, 0x00020001#32), (2, 0x00050002#32), (3, 0x00010003#32), (4, 0x00020004#32)] }) 32 0x11))).map
    (fun t => (t.pc.sym.map (·.2), t.pc.result)) =
      some ([0x00010003#32, 0x00020001#32, 0x00020004#32, 0x00050000#32, 0x00050002#32], 1#32) := by decide

/-- S6. -/
theorem test_sort_1025_faults : (after (step (State.withFetchWord (pcState { PcUnit.reset with numsyms := 1025 }) 32 0x11))).map
    (fun t => (t.pc.statusWord, t.pc.sym)) = some (0x00000802#32, []) := by decide

/-- C4: unused symbols get code 0. -/
theorem test_gencodes_canonical : (after (step (State.withFetchWord (sizesState [0, 1, 0, 2, 3, 3] 0) 32 0x12))).map
    (fun t => (t.pc.code.map (·.2), t.pc.result)) = some ([0#32, 0#32, 0#32, 2#32, 6#32, 7#32], 1#32) := by decide

/-- C3: over-subscribed. -/
theorem test_gencodes_over_subscribed : (after (step (State.withFetchWord (sizesState [1, 1, 1] 0) 32 0x12))).map
    (fun t => (t.pc.code, t.pc.result)) = some ([], 0#32) := by decide

/-- M1. -/
theorem test_limit_skewed : (after (step (State.withFetchWord (sizesState [1, 2, 3, 4, 5, 6, 7, 8, 9, 9] 6) 32 0x13))).map
    (fun t => (t.pc.size.map (·.2), t.pc.result)) = some ([1#8, 2#8, 3#8, 5#8, 6#8, 6#8, 6#8, 6#8, 6#8, 6#8], 1#32) := by decide

/-- M6: five symbols do not fit two bits. -/
theorem test_limit_too_many_symbols : (after (step (State.withFetchWord (sizesState [1, 2, 3, 4, 4] 2) 32 0x13))).map
    (fun t => (t.pc.size.map (·.2), t.pc.result)) = some ([1#8, 2#8, 3#8, 4#8, 4#8], 0#32) := by decide

/-- X6: `pc.clrflt` after X5. -/
theorem test_clrflt : (after (step (State.withFetchWord (pcState { PcUnit.reset with faulted := true, faultCode := 1 }) 32 0x14))).map
    (fun t => t.pc.statusWord) = some 0#32 := by decide

/-! ### A state for each statement's hypotheses -/

/-- A table of 16 slots with one entry, and a candidate with its hash and its bytes at offset 4. -/
def oneEntry : State := htState { HtUnit.reset Params.default with
  slots := [(8, { hash := 0x80000001#32, offset := 0#32, len := 4#32 })], keycount := 1, srcLen := 8
  hash := 0x80000001#32, candOff := 4, len := 4 } (aaaa ++ aaaa)

/-- The same table, and a candidate with other bytes. -/
def newBytes : State := { oneEntry with src := { visible := (List.range 8).zip (aaaa ++ bbbb), pending := [], raced := [] } }

/-- A table of two slots with one entry, which the next insertion doubles: 2 is above the limit 1. -/
def fullTable : State := htState { HtUnit.reset Params.default with
  loglen := 1, slots := [(1, { hash := 0x80000000#32, offset := 0#32, len := 4#32 })], keycount := 1, srcLen := 8
  hash := 0x80000001#32, candOff := 4, len := 4 } (aaaa ++ bbbb)

/-- The same at the largest size. -/
def fullestTable : State := { fullTable with params := { maxLoglen := 1, base := 0, srcVisibility := .coherent } }

/-- An empty table of two slots: the next insertion meets the limit 1 exactly. -/
def atTheLimit : State := { fullTable with ht := { fullTable.ht with slots := [], keycount := 0 } }

/-- A zero hash under REPLICATE. -/
def zeroHash : State := { oneEntry with ht := { oneEntry.ht with hash := 0, zhPolicy := true } }

theorem nil_wf {α : Type} : Sparse.sorted ([] : List (Nat × α)) ∧ Sparse.below Config.maxSyms ([] : List (Nat × α)) := by
  simp [Sparse.sorted, Sparse.below]

theorem pcReset_inv : PcUnit.reset.Inv :=
  ⟨.inl rfl, nil_wf, nil_wf, nil_wf, fun _ => rfl, fun h => Bool.noConfusion h, fun _ h => Option.noConfusion rfl (heq_of_eq h)⟩

/-- An idle unfaulted HT unit meets the unit's invariant if its numbers do. -/
theorem htInv {P : Params} {h : HtUnit} (l1 : 1 ≤ h.loglen) (l2 : h.loglen ≤ P.maxLoglen) (wf : Slots.wf h.loglen h.slots)
    (o : occupied h.slots ≤ h.keycount.toNat) (k : h.keycount.toNat ≤ threshold h.loglen) (f : h.faulted = false)
    (c : h.faultCode = 0) (i : h.task = .idle) : h.Inv P where
  loglen_pos := l1
  loglen_le := l2
  slots_wf := wf
  occupied_le := o
  keycount_le _ := k
  code_of_unfaulted _ := c
  code_of_faulted ht := by rw [f] at ht; cases ht
  task_legal w hw := by rw [i] at hw; cases hw

theorem inv_of {s : State} (P : s.params.wellFormed = true) (h : s.ht.Inv s.params) (p : s.pc = PcUnit.reset)
    (v : Memory.wf s.src.visible) (w : s.src.pending = []) (r : s.src.raced = []) : s.Inv where
  params_wf := P
  ht_inv := h
  pc_inv := by rw [p]; exact pcReset_inv
  visible_wf := v
  pending_wf := by rw [w]; exact Memory.wf_nil
  raced_running _ := r

theorem oneEntry_inv : oneEntry.Inv :=
  inv_of (by decide) (htInv (by decide) (by decide) (by decide) (by decide) (by decide) rfl rfl rfl) rfl (by decide) rfl rfl
theorem newBytes_inv : newBytes.Inv :=
  inv_of (by decide) (htInv (by decide) (by decide) (by decide) (by decide) (by decide) rfl rfl rfl) rfl (by decide) rfl rfl
theorem fullTable_inv : fullTable.Inv :=
  inv_of (by decide) (htInv (by decide) (by decide) (by decide) (by decide) (by decide) rfl rfl rfl) rfl (by decide) rfl rfl
theorem fullestTable_inv : fullestTable.Inv :=
  inv_of (by decide) (htInv (by decide) (by decide) (by decide) (by decide) (by decide) rfl rfl rfl) rfl (by decide) rfl rfl
theorem atTheLimit_inv : atTheLimit.Inv :=
  inv_of (by decide) (htInv (by decide) (by decide) (by decide) (by decide) (by decide) rfl rfl rfl) rfl (by decide) rfl rfl
theorem zeroHash_inv : zeroHash.Inv :=
  inv_of (by decide) (htInv (by decide) (by decide) (by decide) (by decide) (by decide) rfl rfl rfl) rfl (by decide) rfl rfl
theorem reset_inv : State.reset.Inv :=
  inv_of (by decide) (htInv (by decide) (by decide) (by decide) (by decide) (by decide) rfl rfl rfl) rfl (by decide) rfl rfl

theorem oneEntry_ordered : oneEntry.ht.Ordered := ⟨by unfold robinHood occupiedAt; decide, by decide⟩
theorem newBytes_ordered : newBytes.ht.Ordered := oneEntry_ordered
theorem fullTable_ordered : fullTable.ht.Ordered := ⟨by unfold robinHood occupiedAt; decide, by decide⟩

theorem get_allowed {h : HtUnit} (l : 4 ≤ h.len.toNat) (r : h.candOff.toNat + h.len.toNat ≤ h.srcLen.toNat)
    (z : h.hash ≠ 0 ∨ h.zhPolicy = true) : h.GetAllowed := ⟨l, r, z⟩

theorem oneEntry_allowed : oneEntry.ht.GetAllowed := get_allowed (by decide) (by decide) (.inl (by decide))
theorem fullTable_allowed : fullTable.ht.GetAllowed := get_allowed (by decide) (by decide) (.inl (by decide))
theorem zeroHash_allowed : zeroHash.ht.GetAllowed := get_allowed (by decide) (by decide) (.inr rfl)
theorem atTheLimit_allowed : atTheLimit.ht.GetAllowed := get_allowed (by decide) (by decide) (.inl (by decide))
theorem oneEntry_settled : oneEntry.sourceSettled := by unfold State.sourceSettled; decide
theorem newBytes_settled : newBytes.sourceSettled := by unfold State.sourceSettled; decide
theorem fullTable_settled : fullTable.sourceSettled := by unfold State.sourceSettled; decide

theorem oneEntry_storedCopy : oneEntry.storedCopy 0 := by
  refine ⟨by decide, fun k hk => ⟨0x61#8, ?_⟩⟩
  have hk : k < 4 := hk
  interval_cases k <;> decide

def htWord (w : Word) (t : Timing) : Event := .write .w32 0x000 w t
def pcWord (w : Word) (t : Timing) : Event := .write .w32 0x100 w t

theorem witness_StepRunsTheDecodedCommand :
    ∃ s : State, decode .ht 0x2#32 = .legal .htGet ∧ s.schedule = .write .w32 (s.params.base + cmdOffset .ht) 0x2#32 .now :: [] ∧
      ∃ t : State, decode .pc 0x14#32 = .legal .pcClrflt ∧
        t.schedule = .write .w32 (t.params.base + cmdOffset .pc) 0x14#32 .now :: [] :=
  ⟨{ oneEntry with schedule := [htWord 0x2#32 .now] }, by decide, rfl, { State.reset with schedule := [pcWord 0x14#32 .now] },
    by decide, rfl⟩

theorem witness_StepRunsATableRow : decodeTableWord 32 0x01 = some .htInit ∧ decodeTableWord 32 0x14 = some .pcClrflt := by decide

theorem witness_DeferredCommandEqualsImmediate :
    (oneEntry.busy .ht = false ∧ oneEntry.src.raced = [] ∧ decode .ht 0x2#32 = .legal .htGet ∧ oneEntry.admits .htGet = true) ∧
      oneEntry.busy .pc = false ∧ decode .pc 0x11#32 = .legal .pcSort ∧ oneEntry.admits .pcSort = true := by
  refine ⟨⟨by decide, by decide, by decide, by decide⟩, by decide, by decide, by decide⟩

def busyHt : State := { oneEntry with ht := { oneEntry.ht with task := .running 0x2#32 } }
def busyPc : State := pcState { PcUnit.reset with task := some 0x11#32 }
def faultedHt : State := { oneEntry with ht := { oneEntry.ht with faulted := true, faultCode := 2 } }
def faultedPc : State := pcState { PcUnit.reset with faulted := true, faultCode := 8 }

theorem witness_IllegalWordFaultsOrIsDiscarded :
    decode .ht 0x102#32 = .illegal .reservedBits ∧ decode .pc 0x01#32 = .illegal .otherUnit ∧
      ({ oneEntry with schedule := [htWord 0x102#32 .now] } : State).schedule =
        .write .w32 (oneEntry.params.base + cmdOffset .ht) 0x102#32 .now :: [] ∧
      oneEntry.Ready .ht ∧ oneEntry.Ready .pc ∧ busyHt.busy .ht = true ∧ faultedHt.faulted .ht = true ∧
      busyPc.busy .pc = true ∧ faultedPc.faulted .pc = true :=
  ⟨by decide, by decide, rfl, ⟨by decide, by decide⟩, ⟨by decide, by decide⟩, by decide, by decide, by decide, by decide⟩

theorem witness_FaultedUnitDiscardsCommands :
    (faultedHt.faulted Instr.htGet.unit = true ∧ Instr.htGet ≠ .htInit ∧ Instr.htGet ≠ .pcClrflt) ∧
      faultedPc.faulted Instr.pcSort.unit = true ∧ Instr.pcSort ≠ .htInit ∧ Instr.pcSort ≠ .pcClrflt := by decide

theorem witness_BusyUnitDiscardsCommands :
    busyHt.busy Instr.htInit.unit = true ∧ busyPc.busy Instr.pcClrflt.unit = true := by decide

/-- A precise fault, and CAPACITY. -/
theorem witness_FaultsArePrecise :
    (∃ t, exec .htGet State.reset = .next t ∧ State.reset.faulted .ht = false ∧ t.faulted .ht = true) ∧
      ∃ t, exec .htGet fullestTable = .next t ∧ fullestTable.faulted .ht = false ∧ t.faulted .ht = true :=
  ⟨⟨_, rfl, rfl, rfl⟩, ⟨_, rfl, rfl, rfl⟩⟩

theorem witness_UnitsAreIndependent : Instr.htGet.unit = .ht ∧ Instr.pcLimit.unit = .pc := by decide

/-- The smallest and the largest legal INIT_LOGLEN, in a faulted unit too. -/
theorem witness_InitMakesAnEmptyTable :
    ∃ s t : State, (s.ht.busy = false ∧ 1 ≤ s.ht.initLoglen.toNat ∧ s.ht.initLoglen.toNat ≤ s.params.maxLoglen ∧ s.ht.initLoglen = 1) ∧
      t.ht.busy = false ∧ 1 ≤ t.ht.initLoglen.toNat ∧ t.ht.initLoglen.toNat ≤ t.params.maxLoglen ∧ t.ht.initLoglen = 32 ∧
        t.ht.faulted = true :=
  ⟨{ oneEntry with ht := { oneEntry.ht with initLoglen := 1 } }, { faultedHt with ht := { faultedHt.ht with initLoglen := 32 } },
    by decide, by decide⟩

theorem witness_InitOutOfRangeFaults :
    ∃ s t : State, (s.ht.busy = false ∧ s.ht.initLoglen.toNat = 0) ∧ t.ht.busy = false ∧ t.params.maxLoglen < t.ht.initLoglen.toNat ∧
      t.ht.initLoglen = 33 :=
  ⟨{ oneEntry with ht := { oneEntry.ht with initLoglen := 0 } }, { oneEntry with ht := { oneEntry.ht with initLoglen := 33 } },
    by decide, by decide⟩

/-- A length of 3; a range one byte too long; a zero hash with the range met exactly. -/
theorem witness_GetContractViolationsFault :
    ∃ a b c : State, (a.Ready .ht ∧ a.ht.len.toNat < 4 ∧ a.ht.len = 3) ∧
      (b.Ready .ht ∧ 4 ≤ b.ht.len.toNat ∧ b.ht.srcLen.toNat < b.ht.candOff.toNat + b.ht.len.toNat ∧ b.ht.srcLen = 7) ∧
      c.Ready .ht ∧ 4 ≤ c.ht.len.toNat ∧ c.ht.candOff.toNat + c.ht.len.toNat ≤ c.ht.srcLen.toNat ∧ c.ht.hash = 0 ∧
        c.ht.zhPolicy = false :=
  ⟨{ oneEntry with ht := { oneEntry.ht with len := 3 } }, { oneEntry with ht := { oneEntry.ht with srcLen := 7 } },
    { oneEntry with ht := { oneEntry.ht with hash := 0 } },
    ⟨⟨by decide, by decide⟩, by decide, by decide⟩, ⟨⟨by decide, by decide⟩, by decide, by decide, by decide⟩,
    ⟨by decide, by decide⟩, by decide, by decide, by decide, by decide⟩

/-- A match; an insertion that meets the limit; one that doubles; one that faults CAPACITY. -/
theorem witness_GetCompletes :
    (oneEntry.Inv ∧ oneEntry.Ready .ht ∧ oneEntry.ht.GetAllowed) ∧
      (atTheLimit.Inv ∧ atTheLimit.Ready .ht ∧ atTheLimit.ht.GetAllowed ∧
        atTheLimit.ht.keycount.toNat + 1 = threshold atTheLimit.ht.loglen) ∧
      (fullTable.Inv ∧ fullTable.Ready .ht ∧ fullTable.ht.GetAllowed ∧
        threshold fullTable.ht.loglen < fullTable.ht.keycount.toNat + 1 ∧ fullTable.ht.loglen < fullTable.params.maxLoglen) ∧
      fullestTable.Inv ∧ fullestTable.Ready .ht ∧ fullestTable.ht.GetAllowed ∧
        threshold fullestTable.ht.loglen < fullestTable.ht.keycount.toNat + 1 ∧
        fullestTable.ht.loglen = fullestTable.params.maxLoglen :=
  ⟨⟨oneEntry_inv, ⟨by decide, by decide⟩, oneEntry_allowed⟩, ⟨atTheLimit_inv, ⟨by decide, by decide⟩, atTheLimit_allowed, by decide⟩,
    ⟨fullTable_inv, ⟨by decide, by decide⟩, fullTable_allowed, by decide, by decide⟩,
    fullestTable_inv, ⟨by decide, by decide⟩, fullTable_allowed, by decide, by decide⟩

/-- The candidate's home slot is empty: no resize is due, or the table has its largest size. -/
theorem witness_GetCompletes_home :
    ((slotAt atTheLimit.ht.slots (atTheLimit.ht.hash.toNat / 2 ^ (32 - atTheLimit.ht.loglen))).hash = 0 ∧
        atTheLimit.ht.keycount.toNat + 1 ≤ threshold atTheLimit.ht.loglen) ∧
      ∃ s : State, s.Inv ∧ s.Ready .ht ∧ s.ht.GetAllowed ∧
        (slotAt s.ht.slots (s.ht.hash.toNat / 2 ^ (32 - s.ht.loglen))).hash = 0 ∧ s.ht.loglen = s.params.maxLoglen ∧
        threshold s.ht.loglen < s.ht.keycount.toNat + 1 :=
  ⟨by decide, { fullestTable with ht := { fullestTable.ht with hash := 1 } },
    inv_of (by decide) (htInv (by decide) (by decide) (by decide) (by decide) (by decide) rfl rfl rfl) rfl (by decide) rfl rfl,
    ⟨by decide, by decide⟩, get_allowed (by decide) (by decide) (.inl (by decide)), by decide, by decide, by decide⟩

theorem witness_GetKeepsEveryStoredEntry :
    (newBytes.Inv ∧ newBytes.Ready .ht ∧ newBytes.ht.GetAllowed ∧ ∃ t, exec .htGet newBytes = .next t ∧ t.ht.existed = false) ∧
      (fullTable.Inv ∧ fullTable.Ready .ht ∧ fullTable.ht.GetAllowed ∧ ∃ t, exec .htGet fullTable = .next t ∧ t.ht.loglen = 2) ∧
      (Slot.mk 0x80000001#32 0#32 4#32).hash ≠ 0 :=
  ⟨⟨newBytes_inv, ⟨by decide, by decide⟩, oneEntry_allowed, _, rfl, by decide⟩,
    ⟨fullTable_inv, ⟨by decide, by decide⟩, fullTable_allowed, _, rfl, by decide⟩, by decide⟩

theorem witness_GetFindsAStoredCopy :
    oneEntry.Inv ∧ oneEntry.ht.Ordered ∧ oneEntry.Ready .ht ∧ oneEntry.ht.GetAllowed ∧ 8 < 2 ^ oneEntry.ht.loglen ∧
      oneEntry.ht.hash ≠ 0 ∧ (slotAt oneEntry.ht.slots 8).hash = oneEntry.ht.hash ∧
      oneEntry.storedCopy (slotAt oneEntry.ht.slots 8).offset :=
  ⟨oneEntry_inv, oneEntry_ordered, ⟨by decide, by decide⟩, oneEntry_allowed, by decide, by decide, by decide, oneEntry_storedCopy⟩

theorem witness_GetMatchesOnlyEqualBytes :
    oneEntry.Inv ∧ oneEntry.Ready .ht ∧ oneEntry.ht.GetAllowed ∧ oneEntry.sourceSettled ∧
      ∃ t, exec .htGet oneEntry = .next t ∧ t.ht.existed = true :=
  ⟨oneEntry_inv, ⟨by decide, by decide⟩, oneEntry_allowed, oneEntry_settled, _, rfl, by decide⟩

/-- A match, an insertion, and an insertion that doubles the table. -/
theorem witness_RepeatedGetReturnsTheSameOffset :
    (oneEntry.Inv ∧ oneEntry.ht.Ordered ∧ oneEntry.Ready .ht ∧ oneEntry.ht.GetAllowed ∧ oneEntry.ht.hash ≠ 0 ∧
        oneEntry.sourceSettled ∧ ∃ t, exec .htGet oneEntry = .next t ∧ t.ht.faulted = false) ∧
      (newBytes.Inv ∧ newBytes.ht.Ordered ∧ newBytes.Ready .ht ∧ newBytes.ht.GetAllowed ∧ newBytes.ht.hash ≠ 0 ∧
        newBytes.sourceSettled ∧ ∃ t, exec .htGet newBytes = .next t ∧ t.ht.faulted = false) ∧
      fullTable.Inv ∧ fullTable.ht.Ordered ∧ fullTable.Ready .ht ∧ fullTable.ht.GetAllowed ∧ fullTable.ht.hash ≠ 0 ∧
        fullTable.sourceSettled ∧ ∃ t, exec .htGet fullTable = .next t ∧ t.ht.faulted = false :=
  ⟨⟨oneEntry_inv, oneEntry_ordered, ⟨by decide, by decide⟩, oneEntry_allowed, by decide, oneEntry_settled, _, rfl, by decide⟩,
    ⟨newBytes_inv, newBytes_ordered, ⟨by decide, by decide⟩, oneEntry_allowed, by decide, newBytes_settled, _, rfl, by decide⟩,
    fullTable_inv, fullTable_ordered, ⟨by decide, by decide⟩, fullTable_allowed, by decide, fullTable_settled, _, rfl, by decide⟩

theorem witness_GetOfZeroHashIsDropped :
    zeroHash.Inv ∧ zeroHash.Ready .ht ∧ zeroHash.ht.GetAllowed ∧ zeroHash.ht.hash = 0 :=
  ⟨zeroHash_inv, ⟨by decide, by decide⟩, zeroHash_allowed, rfl⟩

/-- A source buffer that differs at HT_SRC_LEN, the first offset that may differ. -/
theorem witness_GetReadsOnlyBelowSrcLen :
    (∀ off < oneEntry.ht.srcLen.toNat,
      (Source.settled { oneEntry.src with pending := [(8, 0x62#8)] } off) = oneEntry.src.settled off) ∧
      (Source.settled { oneEntry.src with pending := [(8, 0x62#8)] } 8) ≠ oneEntry.src.settled 8 := by decide

theorem witness_CapacityOnlyDoubles : Instr.htGet ≠ .htInit ∧ ∃ t, exec .htGet fullTable = .next t ∧ t.ht.loglen = 2 :=
  ⟨by decide, _, rfl, by decide⟩

theorem witness_CountScansTheTable : oneEntry.Ready .ht ∧ Slots.wf oneEntry.ht.loglen oneEntry.ht.slots :=
  ⟨⟨by decide, by decide⟩, oneEntry_inv.ht_inv.slots_wf⟩

theorem witness_CountIsTheKeycount : oneEntry.ht.Ordered ∧ oneEntry.Ready .ht := ⟨oneEntry_ordered, ⟨by decide, by decide⟩⟩

/-- The last slot, and the first index past it. -/
theorem witness_RdslotReadsTheSlot :
    ∃ s : State, s.Ready .ht ∧ s.ht.slotIdx.toNat < 2 ^ s.ht.loglen ∧ s.ht.slotIdx.toNat + 1 = 2 ^ s.ht.loglen :=
  ⟨{ oneEntry with ht := { oneEntry.ht with slotIdx := 15 } }, ⟨by decide, by decide⟩, by decide, by decide⟩

theorem witness_RdslotOutOfRangeFaults :
    ∃ s : State, s.Ready .ht ∧ 2 ^ s.ht.loglen ≤ s.ht.slotIdx.toNat ∧ s.ht.slotIdx.toNat = 2 ^ s.ht.loglen :=
  ⟨{ oneEntry with ht := { oneEntry.ht with slotIdx := 16 } }, ⟨by decide, by decide⟩, by decide, by decide⟩

theorem witness_HtCommandFrames :
    (∃ t, exec .htInit oneEntry = .next t) ∧ (∃ t, exec .htGet oneEntry = .next t) ∧ (∃ t, exec .htCount oneEntry = .next t) ∧
      ∃ t, exec .htRdslot oneEntry = .next t := ⟨⟨_, rfl⟩, ⟨_, rfl⟩, ⟨_, rfl⟩, ⟨_, rfl⟩⟩

/-- Two symbols of length 1, and PC_MAXLEN 2. -/
def twoSymbols : State := sizesState [1, 1] 2

theorem witness_PcCommandFrames :
    (∃ t, exec .pcSort twoSymbols = .next t) ∧ (∃ t, exec .pcGencodes twoSymbols = .next t) ∧
      (∃ t, exec .pcLimit twoSymbols = .next t) ∧ (∃ t, exec .pcClrflt twoSymbols = .next t) ∧
      twoSymbols.pc.numsyms.toNat ≤ 2 := ⟨⟨_, rfl⟩, ⟨_, rfl⟩, ⟨_, rfl⟩, ⟨_, rfl⟩, by decide⟩

/-- The smallest and the largest HT_MAX_LOGLEN. -/
theorem witness_ResetMeetsTheInvariant :
    Params.wellFormed { maxLoglen := 1, base := 0x4000, srcVisibility := .explicit } = true ∧
      Params.wellFormed { maxLoglen := 32, base := 0, srcVisibility := .coherent } = true := by decide

/-- A table with an entry, in a faulted unit, with the argument registers at their reset values. -/
theorem witness_ResetEqualsACompletedInit :
    ∃ s : State, s.params.wellFormed = true ∧ s.ht.busy = false ∧ s.ht.initLoglen = BitVec.ofNat 6 (min 4 s.params.maxLoglen) ∧
      s.ht.zhPolicy = false ∧ s.ht.srcLen = 0 ∧ s.ht.hash = 0 ∧ s.ht.candOff = 0 ∧ s.ht.len = 0 ∧ s.ht.slotIdx = 0 ∧
      s.ht.slots ≠ [] ∧ s.ht.faulted = true :=
  ⟨{ faultedHt with ht := { faultedHt.ht with
      initLoglen := 4, zhPolicy := false, srcLen := 0, hash := 0, candOff := 0, len := 0, slotIdx := 0 } }, by decide⟩

theorem fullTable_scheduled_inv (sch : List Event) : State.Inv { fullTable with schedule := sch } :=
  ⟨fullTable_inv.params_wf, fullTable_inv.ht_inv, fullTable_inv.pc_inv, fullTable_inv.visible_wf, fullTable_inv.pending_wf,
    fullTable_inv.raced_running⟩

theorem witness_StepKeepsTheInvariant :
    State.Inv { fullTable with schedule := [htWord 0x2#32 .now] } ∧
      ∃ t, step { fullTable with schedule := [htWord 0x2#32 .now] } = .next t ∧ t.ht.loglen = 2 :=
  ⟨fullTable_scheduled_inv _, _, rfl, by decide⟩

theorem witness_StepKeepsTheTableOrdered :
    State.Inv { fullTable with schedule := [htWord 0x2#32 .now] } ∧ fullTable.ht.Ordered ∧
      (State.performsHt { fullTable with schedule := [htWord 0x2#32 .now] } = some .htGet → fullTable.ht.zhPolicy = true →
        fullTable.ht.hash ≠ 0) ∧
      ∃ t, step { fullTable with schedule := [htWord 0x2#32 .now] } = .next t :=
  ⟨fullTable_scheduled_inv _, fullTable_ordered, fun _ _ => by decide, _, rfl⟩

/-- R274's boot order: under REPLICATE with HT_HASH still 0, writing HT_HASH performs no HT.GET, nor does offering one for later;
performing it, at once, by the engine or with no move scheduled, does. -/
theorem test_performsHt :
    State.performsHt { zeroHash with schedule := [.write .w32 0x010 0x5#32 .now] } = none ∧
      State.performsHt { zeroHash with schedule := [htWord 0x2#32 .later] } = none ∧
      State.performsHt { zeroHash with schedule := [htWord 0x2#32 .now] } = some .htGet ∧
      State.performsHt { busyHt with schedule := [.engine .ht] } = some .htGet ∧
      State.performsHt { busyHt with schedule := [] } = some .htGet := by
  refine ⟨?_, ?_, ?_, ?_, ?_⟩ <;> decide

theorem witness_EveryCommandEnds : fullTable.Inv ∧ fullestTable.Inv := ⟨fullTable_inv, fullestTable_inv⟩

/-- A step that goes on past a bus error, and a step that stops at the last address below BASE. -/
theorem witness_StepStopsOnlyBelowBase :
    (State.Inv { fullTable with schedule := [.read .w32 0x40] } ∧ ∃ t, step { fullTable with schedule := [.read .w32 0x40] } = .next t) ∧
      ∃ s : State, s.Inv ∧ s.schedule = [.read .w32 0x3FFF] ∧ 0x3FFF < s.params.base ∧ step s = .fault .notRouted :=
  ⟨⟨fullTable_scheduled_inv _, _, rfl⟩,
    { State.reset with params := { State.reset.params with base := 0x4000 }, schedule := [.read .w32 0x3FFF] },
    inv_of (by decide) (htInv (by decide) (by decide) (by decide) (by decide) (by decide) rfl rfl rfl) rfl (by decide) rfl rfl,
    rfl, by decide, rfl⟩

/-- The largest symbol count. -/
theorem witness_SortOrdersTheRecords :
    ∃ s : State, s.Ready .pc ∧ s.pc.numsyms.toNat ≤ 1024 ∧ s.pc.numsyms = 1024 :=
  ⟨pcState { PcUnit.reset with numsyms := 1024 }, ⟨by decide, by decide⟩, by decide, by decide⟩

theorem witness_SortIsIdempotent :
    State.reset.Inv ∧ State.reset.Ready .pc ∧ State.reset.pc.numsyms.toNat ≤ 1024 ∧ ∃ t, exec .pcSort State.reset = .next t :=
  ⟨reset_inv, ⟨by decide, by decide⟩, by decide, _, rfl⟩

theorem witness_TooManySymbolsFault :
    ∃ s : State, s.Ready .pc ∧ 1024 < s.pc.numsyms.toNat ∧ s.pc.numsyms = 1025 :=
  ⟨pcState { PcUnit.reset with numsyms := 1025 }, ⟨by decide, by decide⟩, by decide, by decide⟩

/-- A result of 0, and a fault. -/
theorem witness_FailingPcCommandWritesNoMemory :
    (Instr.pcGencodes.unit = .pc ∧ ∃ t, exec .pcGencodes (sizesState [1, 1, 1] 0) = .next t ∧ t.pc.result = 0) ∧
      ∃ t, exec .pcSort (pcState { PcUnit.reset with numsyms := 1025 }) = .next t ∧ t.pc.faulted = true :=
  ⟨⟨by decide, _, rfl, by decide⟩, _, rfl, by decide⟩

/-- C1, complete, and M3, which PC.LIMIT changes. -/
def fiveSymbols : State := sizesState [2, 2, 2, 3, 3] 3
def sevenSymbols : State := sizesState [1, 3, 3, 3, 4, 5, 5] 4

theorem fiveSymbols_codable : fiveSymbols.Codable fiveSymbols.pc.numsyms.toNat := ⟨by decide, by decide⟩

theorem witness_GencodesSucceedsExactlyOnCodableLengths :
    (fiveSymbols.Ready .pc ∧ fiveSymbols.pc.numsyms.toNat ≤ 1024 ∧ fiveSymbols.Codable fiveSymbols.pc.numsyms.toNat) ∧
      (sizesState [1, 33] 0).Ready .pc ∧ (sizesState [1, 33] 0).pc.numsyms.toNat ≤ 1024 ∧
      ¬ (sizesState [1, 33] 0).Codable (sizesState [1, 33] 0).pc.numsyms.toNat ∧
      ¬ (sizesState [1, 1, 1] 0).Codable (sizesState [1, 1, 1] 0).pc.numsyms.toNat :=
  ⟨⟨⟨by decide, by decide⟩, by decide, fiveSymbols_codable⟩, ⟨by decide, by decide⟩, by decide,
    fun h => absurd (h.short_enough 1 (by decide)) (by decide), fun h => absurd h.kraft_le (by decide)⟩

theorem witness_GencodesCodesArePrefixFree :
    fiveSymbols.Ready .pc ∧ fiveSymbols.pc.numsyms.toNat ≤ 1024 ∧ fiveSymbols.Codable fiveSymbols.pc.numsyms.toNat ∧
      fiveSymbols.used 5 0 ∧ fiveSymbols.used 5 4 ∧ fiveSymbols.lengthOf 0 ≤ fiveSymbols.lengthOf 4 :=
  ⟨⟨by decide, by decide⟩, by decide, fiveSymbols_codable, ⟨by decide, by decide⟩, ⟨by decide, by decide⟩, by decide⟩

/-- Symbol 0 is first; symbol 3 comes right after symbol 2. -/
theorem witness_GencodesFollowsTheRecurrence :
    fiveSymbols.Ready .pc ∧ fiveSymbols.pc.numsyms.toNat ≤ 1024 ∧ fiveSymbols.Codable fiveSymbols.pc.numsyms.toNat ∧
      (fiveSymbols.used 5 0 ∧ ∀ i < 5, ¬ (fiveSymbols.lengthOf i < fiveSymbols.lengthOf 0 ∨
        fiveSymbols.lengthOf i = fiveSymbols.lengthOf 0 ∧ i < 0)) ∧
      fiveSymbols.used 5 2 ∧ fiveSymbols.used 5 3 ∧ fiveSymbols.comesBefore 2 3 ∧
      (sizesState [0, 1] 0).lengthOf 0 = 0 :=
  ⟨⟨by decide, by decide⟩, by decide, fiveSymbols_codable, ⟨⟨by decide, by decide⟩, by decide⟩, ⟨by decide, by decide⟩,
    ⟨by decide, by decide⟩, .inl (by decide), by decide⟩

theorem sevenSymbols_limitable : sevenSymbols.Limitable sevenSymbols.pc.numsyms.toNat sevenSymbols.pc.maxlen.toNat :=
  ⟨by decide, by decide, by decide, by decide⟩
theorem fiveSymbols_limitable : fiveSymbols.Limitable fiveSymbols.pc.numsyms.toNat fiveSymbols.pc.maxlen.toNat :=
  ⟨by decide, by decide, by decide, by decide⟩

/-- M3, and M6 with its five symbols and a limit of two bits. -/
theorem witness_LimitSucceedsExactlyOnLimitableLengths :
    (sevenSymbols.Ready .pc ∧ sevenSymbols.pc.numsyms.toNat ≤ 1024 ∧
        sevenSymbols.Limitable sevenSymbols.pc.numsyms.toNat sevenSymbols.pc.maxlen.toNat) ∧
      (sizesState [1, 2, 3, 4, 4] 2).Ready .pc ∧ (sizesState [1, 2, 3, 4, 4] 2).pc.numsyms.toNat ≤ 1024 ∧
      ¬ (sizesState [1, 2, 3, 4, 4] 2).Limitable 5 2 ∧ ¬ (sizesState [1, 1] 0).Limitable 2 0 ∧ ¬ (sizesState [1, 1] 33).Limitable 2 33 :=
  ⟨⟨⟨by decide, by decide⟩, by decide, sevenSymbols_limitable⟩, ⟨by decide, by decide⟩, by decide,
    fun h => absurd h.few_enough (by decide), fun h => absurd h.limit_pos (by decide), fun h => absurd h.limit_le (by decide)⟩

theorem witness_LimitGivesACompleteCode :
    sevenSymbols.Ready .pc ∧ sevenSymbols.pc.numsyms.toNat ≤ 1024 ∧
      sevenSymbols.Limitable sevenSymbols.pc.numsyms.toNat sevenSymbols.pc.maxlen.toNat :=
  ⟨⟨by decide, by decide⟩, by decide, sevenSymbols_limitable⟩

theorem witness_LimitKeepsTheOrderOfLengths :
    sevenSymbols.Ready .pc ∧ sevenSymbols.pc.numsyms.toNat ≤ 1024 ∧
      sevenSymbols.Limitable sevenSymbols.pc.numsyms.toNat sevenSymbols.pc.maxlen.toNat ∧
      sevenSymbols.used 7 3 ∧ sevenSymbols.used 7 4 ∧ sevenSymbols.comesBefore 3 4 :=
  ⟨⟨by decide, by decide⟩, by decide, sevenSymbols_limitable, ⟨by decide, by decide⟩, ⟨by decide, by decide⟩, .inl (by decide)⟩

/-- The longest length is the limit. -/
theorem witness_LimitLeavesShortLengths :
    fiveSymbols.Ready .pc ∧ fiveSymbols.pc.numsyms.toNat ≤ 1024 ∧
      fiveSymbols.Limitable fiveSymbols.pc.numsyms.toNat fiveSymbols.pc.maxlen.toNat ∧
      ∀ i < fiveSymbols.pc.numsyms.toNat, fiveSymbols.lengthOf i ≤ fiveSymbols.pc.maxlen.toNat :=
  ⟨⟨by decide, by decide⟩, by decide, fiveSymbols_limitable, by decide⟩

theorem witness_RebalanceStepLowersTheTotalByOne :
    1 ≤ 4 ∧ [0, 1, 0, 3, 3].length = 4 + 1 ∧ ∃ h', rebalanceStep 4 [0, 1, 0, 3, 3] = some h' := ⟨by decide, by decide, _, rfl⟩

theorem witness_ClrfltClearsTheFault : faultedPc.pc.busy = false ∧ twoSymbols.pc.busy = false := by decide

theorem witness_MappedOffsets : 0x3C % 4 = 0 ∧ 0x40 % 4 = 0 ∧ 0xFFC % 4 = 0 ∧ 0x3FFC % 4 = 0 ∧ 1023 < 1024 := by decide

/-- The offsets where the mapped and the unmapped ranges meet. -/
theorem witness_BadAccessesGetABusError :
    AccessWidth.w64 ≠ .w32 ∧ 0x3D % 4 ≠ 0 ∧
      (0x40 % 4 = 0 ∧ 0x40 ≤ 0x40 ∧ 0x40 < 0x100) ∧ (0xFC % 4 = 0 ∧ 0x40 ≤ 0xFC ∧ 0xFC < 0x100) ∧
      (0x118 % 4 = 0 ∧ 0x118 ≤ 0x118 ∧ 0x118 < 0x1000) ∧ (0xFFC % 4 = 0 ∧ 0x118 ≤ 0xFFC ∧ 0xFFC < 0x1000) ∧
      0x4000 % 4 = 0 ∧ 0x4000 ≤ 0x4000 := by decide

/-- A register, a read-only register and an entry of each window. -/
theorem witness_WriteStoresTheWritableFields :
    placeAt 0x008 = some (.reg .htConfig) ∧ placeAt 0x01C = some (.reg .htResOff) ∧ placeAt 0x110 = some (.reg .pcResult) ∧
      placeAt 0x1000 = some (.sym 0) ∧ placeAt 0x2FFC = some (.size 1023) ∧ placeAt 0x3FFC = some (.code 1023) ∧
      Place.commandOf (.reg .htConfig) = none ∧ Place.commandOf (.size 1023) = none ∧ oneEntry.busy .ht = false ∧
      oneEntry.busy .pc = false ∧
      ({ oneEntry with schedule := [.write .w32 0x2FFC 0x1FF#32 .now] } : State).schedule =
        .write .w32 (oneEntry.params.base + 0x2FFC) 0x1FF#32 .now :: [] := by
  refine ⟨?_, ?_, ?_, ?_, ?_, ?_, ?_, ?_, ?_, ?_, ?_⟩ <;> decide

theorem witness_ReadReturnsTheValue :
    0x3FFC % 4 = 0 ∧ placeAt 0x3FFC = some (.code 1023) ∧ oneEntry.busy (Place.unit (.code 1023)) = false ∧
      ({ oneEntry with schedule := [.read .w32 0x3FFC] } : State).schedule = .read .w32 (oneEntry.params.base + 0x3FFC) :: [] := by
  refine ⟨?_, ?_, ?_, ?_⟩ <;> decide

/-- A command register, a STATUS register and another register of a busy unit. -/
theorem witness_BusyUnitAccesses :
    (0x000 % 4 = 0 ∧ placeAt 0x000 = some (.reg .htCmd) ∧ busyHt.busy (Place.unit (.reg .htCmd)) = true) ∧
      (placeAt 0x004 = some (.reg .htStatus) ∧ busyHt.busy (Place.unit (.reg .htStatus)) = true) ∧
      placeAt 0x1000 = some (.sym 0) ∧ busyPc.busy (Place.unit (.sym 0)) = true := by
  refine ⟨⟨?_, ?_, ?_⟩, ⟨?_, ?_⟩, ?_, ?_⟩ <;> decide

def explicitState : State := State.resetWith { maxLoglen := 32, base := 0, srcVisibility := .explicit }

/-- The HT unit of `oneEntry` with an accepted HT.GET, on a platform of either kind. -/
def runningState (vis : SrcVisibility) : State :=
  { busyHt with params := { busyHt.params with srcVisibility := vis } }

theorem runningState_inv (vis : SrcVisibility) : (runningState vis).Inv where
  params_wf := by cases vis <;> decide
  ht_inv := { oneEntry_inv.ht_inv with
    task_legal := fun w hw => by
      injection hw with hw
      subst hw
      exact ⟨.htGet, by decide, fun h => Bool.noConfusion (show false = true from h)⟩ }
  pc_inv := oneEntry_inv.pc_inv
  visible_wf := oneEntry_inv.visible_wf
  pending_wf := oneEntry_inv.pending_wf
  raced_running _ := rfl

/-- Each platform, idle and with a command in progress; the smallest range of offsets that holds the byte. -/
theorem witness_WrittenSourceBytesAreSeenWhenVisible :
    (oneEntry.Inv ∧ oneEntry.src.pending = [] ∧ oneEntry.params.srcVisibility = .coherent ∧ oneEntry.ht.running = false) ∧
      (explicitState.Inv ∧ explicitState.src.pending = [] ∧ explicitState.params.srcVisibility = .explicit ∧
        explicitState.ht.running = false) ∧
      (∀ vis, (runningState vis).Inv ∧ (runningState vis).src.pending = [] ∧ (runningState vis).params.srcVisibility = vis ∧
        (runningState vis).ht.running = true) ∧
      8 ≤ (8#32).toNat ∧ (8#32).toNat < 9 :=
  ⟨⟨oneEntry_inv, rfl, rfl, rfl⟩,
    ⟨inv_of (by decide) (htInv (by decide) (by decide) (by decide) (by decide) (by decide) rfl rfl rfl) rfl (by decide) rfl rfl,
      rfl, rfl, rfl⟩,
    fun vis => ⟨runningState_inv vis, rfl, rfl, rfl⟩, by decide⟩

/-- The duty H6 binds the write of HT.GET, performed at once or later, and leaves appended bytes at HT_SRC_LEN alone. -/
theorem test_H6_binds_the_write :
    ∀ timing, (¬ State.keepsH6 { oneEntry with src := { oneEntry.src with pending := [(7, 0x62#8)] } } (htWord 0x2#32 timing)) ∧
      State.keepsH6 { oneEntry with src := { oneEntry.src with pending := [(8, 0x62#8)] } } (htWord 0x2#32 timing) := by
  unfold State.keepsH6
  intro timing
  cases timing <;> decide

/-- R79, R275: an accepted HT.GET raises the watermark to HT_SRC_LEN, HT.INIT and a reset start it anew, an HT.INIT out of range does
not, and a host that then lowers HT_SRC_LEN may write from offset 0 again. -/
theorem test_watermark :
    oneEntry.usedAfter 3 (htWord 0x2#32 .later) = 8 ∧ oneEntry.usedAfter 9 (htWord 0x2#32 .now) = 9 ∧
      oneEntry.usedAfter 9 (htWord 0x1#32 .later) = 0 ∧ oneEntry.usedAfter 9 (.reset .now) = 0 ∧
      State.usedAfter { oneEntry with ht := { oneEntry.ht with initLoglen := 33 } } 9 (htWord 0x1#32 .now) = 9 ∧
      State.keepsH4 { oneEntry with ht := { oneEntry.ht with srcLen := 0 } } (.srcWrite 0 0x7A) ∧
      State.keepsH7 0 (.srcWrite 0 0x7A) ∧ ¬ State.keepsH7 9 (.srcWrite 0 0x7A) := by
  unfold State.keepsH4 State.keepsH7
  refine ⟨?_, ?_, ?_, ?_, ?_, ?_, ?_, ?_⟩ <;> decide

/-- The host appends the byte at the watermark itself. -/
theorem witness_DutifulHostKeepsUsedBytes :
    ({ oneEntry with schedule := [.srcWrite 8 0x7A] } : State).schedule = .srcWrite 8 0x7A :: [] ∧
      State.keepsH7 8 (.srcWrite 8 0x7A) ∧ (∀ c ∈ oneEntry.src.pending, 8 ≤ c.1) ∧
      (∃ t, step { oneEntry with schedule := [.srcWrite 8 0x7A] } = .next t) ∧
      ∃ s t : State, s.params.srcVisibility = .explicit ∧ s.schedule = .publish 0 9 :: [] ∧ State.keepsH7 8 (.publish 0 9) ∧
        s.src.pending ≠ [] ∧ (∀ c ∈ s.src.pending, 8 ≤ c.1) ∧ step s = .next t :=
  ⟨rfl, show 8 ≤ (8#32).toNat by decide, fun _ h => (by cases h), ⟨_, rfl⟩,
    { explicitState with src := { explicitState.src with pending := [(8, 0x7A#8)] }, schedule := [.publish 0 9] }, _, rfl, rfl, trivial,
    by decide, by decide, rfl⟩

theorem witness_ResetSetsEveryRegister :
    ({ faultedHt with schedule := [.reset .now] } : State).schedule = .reset .now :: [] := rfl

theorem witness_IdleBlockKeepsItsState :
    oneEntry.schedule = [] ∧ oneEntry.ht.busy = false ∧ oneEntry.pc.busy = false := by decide

end Sys2Proof.Tests
end

/-! PROOFS. Every step keeps the invariant, and every command ends. Both rest on one lemma: from a state whose parameters and
units meet their invariants each command answers a next state that does. -/

namespace Sys2Proof.Machine

/-! ### The units' invariants alone -/

/-- `State.Inv` without the source buffer. When the HT engine performs its command, raced bytes are still listed though the unit
is idle already (20_memory.md R80), so a command must keep this much from there too. -/
structure State.UnitsInv (s : State) : Prop where
  params_wf : s.params.wellFormed = true
  ht_inv : s.ht.Inv s.params
  pc_inv : s.pc.Inv

theorem State.Inv.units {s : State} (hi : s.Inv) : s.UnitsInv := ⟨hi.params_wf, hi.ht_inv, hi.pc_inv⟩

/-- The result is a next state whose units meet their invariants. -/
def EndsWell (r : StepResult) : Prop := ∃ t, r = .next t ∧ t.UnitsInv

/-- R8: HT_MAX_LOGLEN is in 1..32. -/
theorem Params.maxLoglen_bounds {P : Params} (hP : P.wellFormed = true) : 1 ≤ P.maxLoglen ∧ P.maxLoglen ≤ 32 := by
  unfold Params.wellFormed at hP
  simp only [Bool.and_eq_true, decide_eq_true_eq] at hP
  exact hP.1

/-- What `HtUnit.Inv` says of the table whatever the load, so that it also holds of a table that CAPACITY leaves overfull (R148). -/
structure HtUnit.TableInv (P : Params) (h : HtUnit) : Prop where
  loglen_pos : 1 ≤ h.loglen
  loglen_le : h.loglen ≤ P.maxLoglen
  slots_wf : Slots.wf h.loglen h.slots
  occupied_le : occupied h.slots ≤ h.keycount.toNat

theorem HtUnit.Inv.table {P : Params} {h : HtUnit} (hi : h.Inv P) : h.TableInv P :=
  ⟨hi.loglen_pos, hi.loglen_le, hi.slots_wf, hi.occupied_le⟩

/-- The codes of the HT unit's faults are 1 to 7 (R233). -/
theorem FaultCode.bits_le_seven {c : FaultCode} (hc : c ≠ .numsymsRange) : c.bits.toNat ≤ 7 := by
  cases c with
  | numsymsRange => exact absurd rfl hc
  | _ => decide

/-- R232: a faulted unit's load is not bounded, so a fault may be raised over any table. -/
theorem HtUnit.TableInv.raised {P : Params} {h : HtUnit} (hT : h.TableInv P) {c : FaultCode} (hc : c ≠ .numsymsRange) :
    HtUnit.Inv P { h with faulted := true, faultCode := c.bits, task := .idle } where
  loglen_pos := hT.loglen_pos
  loglen_le := hT.loglen_le
  slots_wf := hT.slots_wf
  occupied_le := hT.occupied_le
  keycount_le := nofun
  code_of_unfaulted := nofun
  code_of_faulted _ := ⟨c.bits_toNat.1, FaultCode.bits_le_seven hc⟩
  task_legal := nofun

/-- An unfaulted unit with no command in progress. -/
theorem HtUnit.TableInv.unfaulted {P : Params} {h : HtUnit} (hT : h.TableInv P) (load : h.keycount.toNat ≤ threshold h.loglen)
    (hf : h.faulted = false) (hc : h.faultCode = 0) (hrun : ∀ w, h.task ≠ .running w) : h.Inv P where
  loglen_pos := hT.loglen_pos
  loglen_le := hT.loglen_le
  slots_wf := hT.slots_wf
  occupied_le := hT.occupied_le
  keycount_le _ := load
  code_of_unfaulted _ := hc
  code_of_faulted h := by rw [hf] at h; cases h
  task_legal w h := absurd h (hrun w)

/-- R130, R272: the empty table of any legal size. -/
theorem HtUnit.tableInv_empty {P : Params} {h : HtUnit} (hpos : 1 ≤ h.loglen) (hle : h.loglen ≤ P.maxLoglen)
    (hs : h.slots = []) : h.TableInv P where
  loglen_pos := hpos
  loglen_le := hle
  slots_wf := by rw [hs]; exact Slots.wf_nil _
  occupied_le := by rw [hs]; exact Nat.zero_le _

theorem HtUnit.idle_not_running {h : HtUnit} (hi : h.task = .idle) (w : Word) : h.task ≠ .running w := by
  rw [hi]; exact HtTask.noConfusion

/-- Raising one of the HT unit's faults keeps the units' invariants. -/
theorem State.UnitsInv.raise_ht {s : State} (hi : s.UnitsInv) {c : FaultCode} (hc : c ≠ .numsymsRange) :
    (s.raise .ht c).UnitsInv := { hi with ht_inv := hi.ht_inv.table.raised hc }

/-- Raising one of the PC unit's faults keeps the units' invariants. -/
theorem State.UnitsInv.raise_pc {s : State} (hi : s.UnitsInv) {c : FaultCode} (hc : c = .illegalCmd ∨ c = .numsymsRange) :
    (s.raise .pc c).UnitsInv where
  params_wf := hi.params_wf
  ht_inv := hi.ht_inv
  pc_inv := { hi.pc_inv with
    code_of_unfaulted := nofun
    code_of_faulted := fun _ => hc.imp (congrArg FaultCode.bits) (congrArg FaultCode.bits)
    task_legal := nofun }

/-! ### What an admitted command finds -/

theorem State.idle_of_admits_ht {s : State} {i : Instr} (ha : s.admits i = true) (hu : i.unit = .ht) : s.ht.task = .idle := by
  have hb := (State.admits_iff.1 ha).1
  rw [hu] at hb
  exact HtUnit.busy_eq_false.1 hb

theorem State.idle_of_admits_pc {s : State} {i : Instr} (ha : s.admits i = true) (hu : i.unit = .pc) : s.pc.task = none := by
  have hb := (State.admits_iff.1 ha).1
  rw [hu] at hb
  exact PcUnit.busy_eq_false.1 hb

theorem State.unfaulted_of_admits {s : State} {i : Instr} (ha : s.admits i = true) (hr : isRecovery i = false) :
    s.faulted i.unit = false :=
  (State.admits_iff.1 ha).2.resolve_right (by rw [hr]; exact Bool.false_ne_true)

/-! ### HT.INIT, HT.COUNT and HT.RDSLOT -/

theorem State.UnitsInv.exec_htInit_endsWell {s : State} (hi : s.UnitsInv) (ha : s.admits .htInit = true) :
    EndsWell (exec .htInit s) := by
  rw [exec, execHtInit_of_admits ha]
  split
  · exact ⟨_, rfl, hi.raise_ht (by decide)⟩
  · rename_i hrange
    have hT : HtUnit.TableInv s.params (s.ht.initTable s.ht.initOperand) :=
      HtUnit.tableInv_empty (show 1 ≤ s.ht.initOperand by omega) (show s.ht.initOperand ≤ s.params.maxLoglen by omega) rfl
    have hrun := HtUnit.idle_not_running (State.idle_of_admits_ht ha rfl)
    exact ⟨_, rfl, { hi with ht_inv := HtUnit.TableInv.unfaulted { hT with } (Nat.zero_le _) rfl rfl hrun }⟩

theorem State.UnitsInv.exec_htCount_endsWell {s : State} (hi : s.UnitsInv) (ha : s.admits .htCount = true) :
    EndsWell (exec .htCount s) := by
  rw [exec, execHtCount_of_admits ha]
  exact ⟨_, rfl, { hi with ht_inv := { hi.ht_inv with } }⟩

theorem State.UnitsInv.exec_htRdslot_endsWell {s : State} (hi : s.UnitsInv) (ha : s.admits .htRdslot = true) :
    EndsWell (exec .htRdslot s) := by
  rw [exec, execHtRdslot_of_admits ha]
  split
  · exact ⟨_, rfl, hi.raise_ht (by decide)⟩
  · exact ⟨_, rfl, { hi with ht_inv := { hi.ht_inv with } }⟩

/-! ### HT.GET -/

/-- R146, R147: the doubled table's load limit is above the count that made it double. -/
theorem threshold_succ_le {L : Nat} (hL : 1 ≤ L) : threshold L + 1 ≤ threshold (L + 1) := by
  rw [threshold_eq, threshold_eq, Nat.pow_succ]
  have : 2 ^ 1 ≤ 2 ^ L := Nat.pow_le_pow_right (by decide) hL
  omega

/-- R147: a resize keeps the table's invariant at the next size. -/
theorem HtUnit.TableInv.resized {P : Params} {h : HtUnit} {slots' : List (Nat × Slot)} (hT : h.TableInv P)
    (hL : h.loglen + 1 ≤ 32) (hlt : h.loglen < P.maxLoglen) (hs : resize h.loglen h.slots = some slots') :
    HtUnit.TableInv P { h with loglen := h.loglen + 1, slots := slots' } := by
  obtain ⟨wf, count⟩ := resize_spec hL hT.slots_wf hs
  refine ⟨Nat.le_add_left 1 _, hlt, wf, ?_⟩
  have same : occupied slots' = occupied h.slots := by
    rw [occupied_eq_slotCount wf, occupied_eq_slotCount hT.slots_wf]
    exact count isOccupied fun t ht => by rw [isOccupied, ht]; rfl
  exact same ▸ hT.occupied_le

/-- R144, R153: an insertion occupies at most one more slot, so the counted table meets the table's invariant. -/
theorem HtUnit.TableInv.inserted {P : Params} {h : HtUnit} {hit : Nat → Slot → Bool} {e : Slot} {r : Probed} (hT : h.TableInv P)
    (hL : h.loglen ≤ 32) (hk : (h.keycount + 1).toNat = h.keycount.toNat + 1)
    (hp : probe h.loglen hit h.slots e true = some r) (hr : r.existed = false) :
    HtUnit.TableInv P { h with slots := r.slots, keycount := h.keycount + 1 } := by
  have wf := probe_wf hL hT.slots_wf hp
  refine ⟨hT.loglen_pos, hT.loglen_le, wf, ?_⟩
  have count := probe_slotCount (P := isOccupied) hL (fun t ht => by rw [isOccupied, ht]; rfl) hp hr
  rw [← occupied_eq_slotCount wf, ← occupied_eq_slotCount hT.slots_wf] at count
  have := (isOccupied e).toNat_le
  have := hT.occupied_le
  show occupied r.slots ≤ (h.keycount + 1).toNat
  omega

/-- R146-R148: the keycount step ends, and leaves a table within its load limit or a CAPACITY fault. -/
theorem State.countInsertion_endsWell {s : State} (hP : s.params.wellFormed = true) (hpc : s.pc.Inv)
    (hT : HtUnit.TableInv s.params { s.ht with keycount := s.ht.keycount + 1 })
    (load : (s.ht.keycount + 1).toNat ≤ threshold s.ht.loglen + 1)
    (hf : s.ht.faulted = false) (hc : s.ht.faultCode = 0) (hidle : s.ht.task = .idle) : EndsWell s.countInsertion := by
  have hrun := HtUnit.idle_not_running hidle
  have room : s.ht.loglen < s.params.maxLoglen → s.ht.loglen + 1 ≤ 32 := fun hlt =>
    le_trans hlt (Params.maxLoglen_bounds hP).2
  rcases State.countInsertion_cases room hT.slots_wf hT.loglen_le with
    ⟨hle, he⟩ | ⟨-, -, he⟩ | ⟨-, hlt, slots', hs, he⟩
  · exact ⟨_, he, hP, hT.unfaulted hle hf hc hrun, hpc⟩
  · exact ⟨_, he, hP, hT.raised (by decide), hpc⟩
  · have load' := le_trans load (threshold_succ_le hT.loglen_pos)
    exact ⟨_, he, hP, (hT.resized (room hlt) hlt hs).unfaulted load' hf hc hrun, hpc⟩

/-- R151, R145: after its probe HT.GET ends, having found an entry in an unchanged table or inserted one and counted it. -/
theorem State.UnitsInv.finishGet_endsWell {s : State} (hi : s.UnitsInv) (hidle : s.ht.task = .idle) (hf : s.ht.faulted = false)
    {r : Probed} (hp : s.probeCandidate = some r) : EndsWell (s.finishGet r) := by
  have hL := hi.ht_inv.loglen_le_32 hi.params_wf
  have hk := hi.ht_inv.keycount_succ hi.params_wf hf
  unfold State.finishGet
  rcases probe_cases hL hp with ⟨hr, -, same, -⟩ | ⟨hr, -⟩
  · rw [if_pos hr, same]
    exact ⟨_, rfl, { hi with ht_inv := { hi.ht_inv with } }⟩
  · rw [if_neg (by rw [hr]; exact Bool.false_ne_true)]
    have load : (s.ht.keycount + 1).toNat ≤ threshold s.ht.loglen + 1 := by
      have := hi.ht_inv.keycount_le hf
      omega
    exact State.countInsertion_endsWell hi.params_wf hi.pc_inv { hi.ht_inv.table.inserted hL hk hp hr with } load hf
      (hi.ht_inv.code_of_unfaulted hf) hidle

theorem State.UnitsInv.exec_htGet_endsWell {s : State} (hi : s.UnitsInv) (ha : s.admits .htGet = true) :
    EndsWell (exec .htGet s) := by
  have hf : s.ht.faulted = false := State.unfaulted_of_admits ha rfl
  rw [exec, execHtGet_of_admits ha]
  split
  · exact ⟨_, rfl, hi.raise_ht (by decide)⟩
  split
  · exact ⟨_, rfl, hi.raise_ht (by decide)⟩
  split
  · exact ⟨_, rfl, hi.raise_ht (by decide)⟩
  have ends : s.probeCandidate.isSome = true :=
    probe_isSome (hi.ht_inv.loglen_le_32 hi.params_wf) _ _ _ (hi.ht_inv.room hf)
  obtain ⟨r, hp⟩ := Option.isSome_iff_exists.1 ends
  rw [hp]
  exact hi.finishGet_endsWell (State.idle_of_admits_ht ha rfl) hf hp

/-! ### The PC commands -/

/-- R182: a result of 0 or 1 keeps the PC unit's invariant. -/
theorem State.UnitsInv.finish {s : State} (hi : s.UnitsInv) {r : Word} (hr : r = 0 ∨ r = 1) : (s.finish r).UnitsInv :=
  { hi with pc_inv := { hi.pc_inv with result_bit := hr } }

/-- R181: a computing command ends well if it does so for every admissible number of symbols. -/
theorem State.UnitsInv.withSymbolCount_endsWell {s : State} (hi : s.UnitsInv) {body : Nat → StepResult}
    (h : ∀ N ≤ Config.maxSyms, EndsWell (body N)) : EndsWell (s.withSymbolCount body) := by
  rcases Nat.lt_or_ge Config.maxSyms s.pc.symbolCount with hN | hN
  · rw [State.withSymbolCount_of_gt hN]
    exact ⟨_, rfl, hi.raise_pc (.inr rfl)⟩
  · rw [State.withSymbolCount_of_le hN]
    exact h _ hN

/-- R53-R55: writing an entry within a PC memory's size keeps the memory canonical. -/
theorem Sparse.wf_insert {α : Type} {n : Nat} {m : List (Nat × α)} (hm : Sparse.sorted m ∧ Sparse.below n m) {k : Nat}
    (hk : k < n) (v : α) : Sparse.sorted (Sparse.insert m k v) ∧ Sparse.below n (Sparse.insert m k v) :=
  ⟨Sparse.sorted_insert hm.1 k v, Sparse.below_insert hm.2 hk v⟩

theorem Sparse.wf_insertAll {α : Type} {n : Nat} {m kvs : List (Nat × α)} (hm : Sparse.sorted m ∧ Sparse.below n m)
    (hk : Sparse.below n kvs) : Sparse.sorted (Sparse.insertAll m kvs) ∧ Sparse.below n (Sparse.insertAll m kvs) :=
  ⟨Sparse.sorted_insertAll hm.1 kvs, Sparse.below_insertAll hm.2 hk⟩

/-- R207: PC.LIMIT gives new lengths to used symbols only. -/
theorem limitLengths_index_lt {s : State} {M N : Nat} {news : List (Nat × Nat)}
    (h : limitLengths M (s.usedSymbols N) = some news) : ∀ x ∈ news, x.1 < N := by
  intro x hx
  unfold limitLengths at h
  dsimp only at h
  split at h
  · cases h
  split at h
  · cases h
  split at h
  · cases h
  rw [Option.map_eq_some_iff] at h
  obtain ⟨h', -, rfl⟩ := h
  obtain ⟨y, hy, hyx⟩ := List.mem_map.1 (List.of_mem_zip (a := x.1) (b := x.2) hx).1
  rw [← hyx]
  exact (State.mem_usedSymbols.1 ((sortBy_perm _ _).mem_iff.1 hy)).1

theorem State.UnitsInv.exec_pcSort_endsWell {s : State} (hi : s.UnitsInv) (ha : s.admits .pcSort = true) :
    EndsWell (exec .pcSort s) := by
  rw [exec, execPcSort, State.perform_of_admits ha]
  refine hi.withSymbolCount_endsWell fun N hN => ⟨_, rfl, State.UnitsInv.finish ?_ (.inr rfl)⟩
  refine { hi with pc_inv := { hi.pc_inv with sym_wf := Sparse.wf_insertAll hi.pc_inv.sym_wf fun e he => ?_ } }
  exact lt_of_lt_of_le (List.mem_range.1 (List.of_mem_zip (a := e.1) (b := e.2) he).1) hN

theorem State.UnitsInv.exec_pcGencodes_endsWell {s : State} (hi : s.UnitsInv) (ha : s.admits .pcGencodes = true) :
    EndsWell (exec .pcGencodes s) := by
  rw [exec, execPcGencodes, State.perform_of_admits ha]
  refine hi.withSymbolCount_endsWell fun N hN => ?_
  dsimp only
  split
  · exact ⟨_, rfl, hi.finish (.inl rfl)⟩
  split
  · exact ⟨_, rfl, hi.finish (.inl rfl)⟩
  refine ⟨_, rfl, State.UnitsInv.finish ?_ (.inr rfl)⟩
  refine { hi with pc_inv := { hi.pc_inv with code_wf := Sparse.wf_insertAll hi.pc_inv.code_wf fun e he => ?_ } }
  obtain ⟨i, hr, rfl⟩ := List.mem_map.1 he
  exact lt_of_lt_of_le (List.mem_range.1 hr) hN

theorem State.UnitsInv.exec_pcLimit_endsWell {s : State} (hi : s.UnitsInv) (ha : s.admits .pcLimit = true) :
    EndsWell (exec .pcLimit s) := by
  rw [exec, execPcLimit, State.perform_of_admits ha]
  refine hi.withSymbolCount_endsWell fun N hN => ?_
  split
  · exact ⟨_, rfl, hi.finish (.inl rfl)⟩
  · rename_i news hnews
    refine ⟨_, rfl, State.UnitsInv.finish ?_ (.inr rfl)⟩
    refine { hi with pc_inv := { hi.pc_inv with size_wf := Sparse.wf_insertAll hi.pc_inv.size_wf fun e he => ?_ } }
    obtain ⟨x, hx, rfl⟩ := List.mem_map.1 he
    exact lt_of_lt_of_le (limitLengths_index_lt hnews x hx) hN

theorem State.UnitsInv.exec_pcClrflt_endsWell {s : State} (hi : s.UnitsInv) (ha : s.admits .pcClrflt = true) :
    EndsWell (exec .pcClrflt s) := by
  rw [exec, execPcClrflt_of_admits ha]
  refine ⟨_, rfl, { hi with pc_inv := { hi.pc_inv with
    code_of_unfaulted := fun _ => rfl, code_of_faulted := nofun, task_legal := fun w hw => ?_ } }⟩
  rw [State.clearFault_pc_pc_task, State.idle_of_admits_pc ha rfl] at hw
  cases hw

/-! ### Every command -/

/-- R153: every command ends in a next state whose units meet their invariants. -/
theorem State.UnitsInv.exec_endsWell {s : State} (hi : s.UnitsInv) (i : Instr) : EndsWell (exec i s) := by
  cases ha : s.admits i with
  | false => exact ⟨s, exec_of_not_admits ha, hi⟩
  | true =>
    cases i with
    | htInit => exact hi.exec_htInit_endsWell ha
    | htGet => exact hi.exec_htGet_endsWell ha
    | htCount => exact hi.exec_htCount_endsWell ha
    | htRdslot => exact hi.exec_htRdslot_endsWell ha
    | pcSort => exact hi.exec_pcSort_endsWell ha
    | pcGencodes => exact hi.exec_pcGencodes_endsWell ha
    | pcLimit => exact hi.exec_pcLimit_endsWell ha
    | pcClrflt => exact hi.exec_pcClrflt_endsWell ha

/-- A command that answers a next state keeps the units' invariants. -/
theorem State.UnitsInv.of_exec {s t : State} {i : Instr} (hi : s.UnitsInv) (h : exec i s = .next t) : t.UnitsInv := by
  obtain ⟨t', he, ht⟩ := hi.exec_endsWell i
  rw [h] at he
  injection he with he
  exact he ▸ ht

/-- Settles O32: every command answers a next state, because a table that meets the invariant has an empty slot. -/
theorem everyCommandEnds : Obligations.EveryCommandEnds := by
  unfold Obligations.EveryCommandEnds
  intro i s hi
  obtain ⟨t, ht, -⟩ := hi.units.exec_endsWell i
  exact ⟨t, ht⟩

/-! ### Moves keep the invariant -/

/-- R80: an idle HT unit races no byte. -/
theorem State.Inv.raced_of_idle {s : State} (hi : s.Inv) (h : s.ht.task = .idle) : s.src.raced = [] :=
  hi.raced_running (HtUnit.running_of_idle h)

/-- The source buffer's part of the invariant is kept when the buffer is and no byte is raced. -/
theorem State.UnitsInv.inv {t : State} (hu : t.UnitsInv) (hv : Memory.wf t.src.visible) (hp : Memory.wf t.src.pending)
    (hr : t.ht.running = false → t.src.raced = []) : t.Inv := { hu with visible_wf := hv, pending_wf := hp, raced_running := hr }

/-- A command keeps the invariant: it leaves the source buffer alone, and an HT command runs only while no byte is raced. -/
theorem State.Inv.of_exec {s t : State} {i : Instr} (hi : s.Inv) (h : exec i s = .next t) : t.Inv := by
  have hsrc := exec_src h
  refine (hi.units.of_exec h).inv (hsrc ▸ hi.visible_wf) (hsrc ▸ hi.pending_wf) ?_
  rw [hsrc]
  cases hu : i.unit with
  | pc => rw [exec_pc_frame hu h]; exact hi.raced_running
  | ht =>
    cases ha : s.admits i with
    | false =>
      rw [exec_of_not_admits ha] at h
      injection h with h
      exact h ▸ hi.raced_running
    | true => exact fun _ => hi.raced_of_idle (State.idle_of_admits_ht ha hu)

theorem State.Inv.offerIllegal {s : State} (hi : s.Inv) (u : UnitId) : (s.offerIllegal u).Inv := by
  unfold State.offerIllegal
  cases hb : s.busy u with
  | true => exact hi
  | false =>
    cases hf : s.faulted u with
    | true => exact hi
    | false =>
      cases u with
      | ht => exact { hi.units.raise_ht (c := .illegalCmd) (by decide), hi with
          raced_running := fun _ => hi.raced_of_idle (HtUnit.busy_eq_false.1 hb) }
      | pc => exact { hi with pc_inv := (hi.units.raise_pc (c := .illegalCmd) (.inl rfl)).pc_inv }

/-- R240: an accepted command is one that the unit admitted. -/
theorem State.Inv.start {s : State} (hi : s.Inv) {i : Instr} {u : UnitId} {w : Word} (hd : decode u w = .legal i)
    (ha : s.admits i = true) : (s.start u w).Inv := by
  have recovers : s.faulted u = true → isRecovery i = true := fun hf =>
    (State.admits_iff.1 ha).2.resolve_left (by rw [decode_unit hd, hf]; exact Bool.noConfusion)
  cases u with
  | ht =>
    refine { hi with ht_inv := { hi.ht_inv with task_legal := fun w' hw => ?_ }, raced_running := nofun }
    injection hw with hw
    exact ⟨i, hw ▸ hd, recovers⟩
  | pc =>
    refine { hi with pc_inv := { hi.pc_inv with task_legal := fun w' hw => ?_ } }
    injection hw with hw
    exact ⟨i, hw ▸ hd, recovers⟩

/-- R24: no register write touches a field that the invariant speaks of. -/
theorem State.Inv.writeReg {s : State} (hi : s.Inv) (v : Word) (r : Reg) : (s.writeReg v r).Inv := by
  cases r with
  | htConfig | htSrcLen | htHash | htCandOff | htLen | htSlotIdx => exact { hi with ht_inv := { hi.ht_inv with } }
  | pcNumsyms | pcMaxlen => exact { hi with pc_inv := { hi.pc_inv with } }
  | _ => exact hi

/-- R53-R55: a window entry has an index below 1024. -/
theorem State.Inv.writePlace {s : State} (hi : s.Inv) (v : Word) {p : Place} {off : Nat} (hp : placeAt off = some p) :
    (s.writePlace v p).Inv := by
  rcases placeAt_index hp with ⟨r, rfl⟩ | ⟨i, hlt, rfl | rfl | rfl⟩
  · exact hi.writeReg v r
  · exact { hi with pc_inv := { hi.pc_inv with sym_wf := Sparse.wf_insert hi.pc_inv.sym_wf hlt v } }
  · exact { hi with pc_inv := { hi.pc_inv with size_wf := Sparse.wf_insert hi.pc_inv.size_wf hlt _ } }
  · exact { hi with pc_inv := { hi.pc_inv with code_wf := Sparse.wf_insert hi.pc_inv.code_wf hlt v } }

/-- R80 (a): a source write races the HT command in progress only. -/
theorem State.Inv.srcWrite {s : State} (hi : s.Inv) (off : Word) (b : Byte) :
    State.Inv { s with src := s.src.hostWrite s.params.srcVisibility s.ht.running off.toNat b } := by
  obtain ⟨hv, hp⟩ := Source.hostWrite_wf hi.visible_wf hi.pending_wf s.params.srcVisibility s.ht.running off b
  refine { hi with visible_wf := hv, pending_wf := hp, raced_running := fun hrun => ?_ }
  show (s.src.hostWrite _ s.ht.running _ _).raced = []
  rw [show s.ht.running = false from hrun]
  exact hi.raced_running hrun

theorem State.Inv.publish {s : State} (hi : s.Inv) (lo up : Nat) :
    State.Inv { s with src := s.src.publish s.ht.running lo up } := by
  obtain ⟨hv, hp⟩ := Source.publish_wf hi.visible_wf hi.pending_wf s.ht.running lo up
  refine { hi with visible_wf := hv, pending_wf := hp, raced_running := fun hrun => ?_ }
  show (s.src.publish s.ht.running _ _).raced = []
  rw [show s.ht.running = false from hrun]
  exact hi.raced_running hrun

/-- R80 (b): the HT engine ends its command with every byte settled. -/
theorem State.Inv.htEngine {s t : State} (hi : s.Inv) (h : s.htEngine = .next t) : t.Inv := by
  have idle : State.UnitsInv { s with ht := { s.ht with task := .idle } } :=
    { hi with ht_inv := { hi.ht_inv with task_legal := nofun } }
  rcases State.htEngine_cases h with ⟨-, rfl⟩ | ⟨hc, rfl⟩ | ⟨w, t', hw, ho, rfl⟩
  · exact hi
  · exact idle.inv hi.visible_wf hi.pending_wf fun _ => hi.raced_running (by unfold HtUnit.running; rw [hc])
  · obtain ⟨i, hd, -⟩ := hi.ht_inv.task_legal w hw
    rw [State.offer_now hd] at ho
    have hsrc : t'.src = s.src := (exec_src ho :)
    exact State.UnitsInv.inv { idle.of_exec ho with } (hsrc ▸ hi.visible_wf) (hsrc ▸ hi.pending_wf) fun _ => rfl

theorem State.Inv.pcEngine {s t : State} (hi : s.Inv) (h : s.pcEngine = .next t) : t.Inv := by
  rcases State.pcEngine_cases h with ⟨-, rfl⟩ | ⟨w, hw, ho⟩
  · exact hi
  · obtain ⟨i, hd, -⟩ := hi.pc_inv.task_legal w hw
    rw [State.offer_now hd] at ho
    have idle : State.Inv { s with pc := { s.pc with task := none } } :=
      { hi with pc_inv := { hi.pc_inv with task_legal := nofun } }
    exact idle.of_exec ho

theorem PcUnit.reset_inv : PcUnit.reset.Inv where
  result_bit := .inl rfl
  sym_wf := ⟨List.Pairwise.nil, nofun⟩
  size_wf := ⟨List.Pairwise.nil, nofun⟩
  code_wf := ⟨List.Pairwise.nil, nofun⟩
  code_of_unfaulted _ := rfl
  code_of_faulted := nofun
  task_legal := nofun

/-- R8: the reset capacity is legal. -/
theorem Params.resetLoglen_bounds {P : Params} (hP : P.wellFormed = true) : 1 ≤ P.resetLoglen ∧ P.resetLoglen ≤ P.maxLoglen :=
  ⟨le_min (by decide) (Params.maxLoglen_bounds hP).1, min_le_right _ _⟩

theorem State.Inv.doReset {s : State} (hi : s.Inv) (timing : Timing) : (s.doReset timing).Inv := by
  obtain ⟨hpos, hle⟩ := Params.resetLoglen_bounds hi.params_wf
  have hT : (s.doReset timing).ht.TableInv s.params := HtUnit.tableInv_empty hpos hle rfl
  have hrun : ∀ w, (s.doReset timing).ht.task ≠ .running w := by
    intro w
    cases timing <;> exact HtTask.noConfusion
  exact {
    params_wf := hi.params_wf
    ht_inv := hT.unfaulted (Nat.zero_le _) rfl rfl hrun
    pc_inv := PcUnit.reset_inv
    visible_wf := hi.visible_wf
    pending_wf := hi.pending_wf
    raced_running := fun _ => rfl }

theorem step_keeps_inv {s t : State} (hi : s.Inv) (h : step s = .next t) : t.Inv :=
  step_keeps (Q := State.Inv)
    (free := fun _ _ _ _ hi => { hi with })
    (write := fun _ v _ _ hi hp _ _ => hi.writePlace v hp)
    (illegal := fun _ u hi => hi.offerIllegal u)
    (run := fun _ _ _ hi h => hi.of_exec h)
    (start := fun _ _ _ _ hi hd ha => hi.start hd ha)
    (src := fun _ off b hi => hi.srcWrite off b)
    (publish := fun _ lo up hi => hi.publish lo up)
    (htEngine := fun _ _ hi h => hi.htEngine h)
    (pcEngine := fun _ _ hi h => hi.pcEngine h)
    (reset := fun _ timing hi => hi.doReset timing)
    hi h

/-! ### The parameters are constant (R8) -/

theorem exec_params {i : Instr} {s t : State} (h : exec i s = .next t) : t.params = s.params := by
  cases hu : i.unit with
  | ht => rw [exec_ht_frame hu h]
  | pc => rw [exec_pc_frame hu h]

theorem State.offerIllegal_params (s : State) (u : UnitId) : (s.offerIllegal u).params = s.params := by
  unfold State.offerIllegal
  split
  · rfl
  · exact (s.raise_frame u .illegalCmd).1

theorem State.start_params (s : State) (u : UnitId) (w : Word) : (s.start u w).params = s.params := by cases u <;> rfl

theorem State.writePlace_params (s : State) (v : Word) (p : Place) : (s.writePlace v p).params = s.params := by
  cases p with
  | reg r => cases r <;> rfl
  | sym i | size i | code i => rfl

theorem State.offer_params {s t : State} {u : UnitId} {w : Word} {timing : Timing} (h : s.offer u w timing = .next t) :
    t.params = s.params := by
  rcases State.offer_cases h with ⟨-, rfl⟩ | ⟨i, -, he⟩ | ⟨i, -, -, rfl⟩ | rfl
  · exact s.offerIllegal_params u
  · exact exec_params he
  · exact s.start_params u w
  · rfl

theorem State.htEngine_params {s t : State} (h : s.htEngine = .next t) : t.params = s.params := by
  rcases State.htEngine_cases h with ⟨-, rfl⟩ | ⟨-, rfl⟩ | ⟨w, t', -, ho, rfl⟩
  · rfl
  · rfl
  · exact (State.offer_params ho :)

theorem State.pcEngine_params {s t : State} (h : s.pcEngine = .next t) : t.params = s.params := by
  rcases State.pcEngine_cases h with ⟨-, rfl⟩ | ⟨w, -, ho⟩
  · rfl
  · exact (State.offer_params ho :)

theorem step_params {s t : State} (h : step s = .next t) : t.params = s.params :=
  step_keeps (Q := fun t => t.params = s.params)
    (free := fun _ _ _ _ hq => hq)
    (write := fun s' v p _ hq _ _ _ => (s'.writePlace_params v p).trans hq)
    (illegal := fun s' u hq => (s'.offerIllegal_params u).trans hq)
    (run := fun _ _ _ hq h => (exec_params h).trans hq)
    (start := fun s' _ u w hq _ _ => (s'.start_params u w).trans hq)
    (src := fun _ _ _ hq => hq)
    (publish := fun _ _ _ hq => hq)
    (htEngine := fun _ _ hq h => (State.htEngine_params h).trans hq)
    (pcEngine := fun _ _ hq h => (State.pcEngine_params h).trans hq)
    (reset := fun _ _ hq => hq)
    rfl h

/-- Settles O30: every kind of move keeps the invariant, and none changes the parameters. -/
theorem stepKeepsTheInvariant : Obligations.StepKeepsTheInvariant := by
  unfold Obligations.StepKeepsTheInvariant
  exact fun _ _ hi h => ⟨step_keeps_inv hi h, step_params h⟩

end Sys2Proof.Machine


/-! PROOFS. The register map (10_state.md R23; O50): where each register and each window entry stands. -/

namespace Sys2Proof.Machine

/-- An array lists exactly the indexes at which something is found. -/
theorem Sparse.find_isSome_iff {α : Type} {m : List (Nat × α)} (h : Sparse.sorted m) {k : Nat} :
    (Sparse.find m k).isSome = true ↔ k ∈ m.map (·.1) := by
  simp only [Option.isSome_iff_exists, Sparse.find_eq_some_iff h, List.mem_map, Prod.exists, exists_eq_right, exists_and_right]

theorem regOffsets_sorted : Sparse.sorted regOffsets := by decide

/-- R23: the register offsets are the words of 0x000..0x03F and of 0x100..0x117. -/
theorem mem_regOffsets_iff {off : Nat} (ha : off % 4 = 0) :
    off ∈ regOffsets.map (·.1) ↔ off < 0x40 ∨ (0x100 ≤ off ∧ off < 0x118) := by
  simp only [regOffsets, List.map_cons, List.map_nil, List.mem_cons, List.not_mem_nil, or_false]
  omega

/-- R23: no register stands in a window. -/
theorem find_regOffsets_of_window {off : Nat} (ha : off % 4 = 0) (h : 0x1000 ≤ off) : Sparse.find regOffsets off = none :=
  Sparse.find_of_notMem fun hm => by
    have := (mem_regOffsets_iff ha).1 hm
    omega

/-- R23: a register stands only where its row of the table says. -/
theorem mem_regOffsets_of_placeAt {off : Nat} {r : Reg} (h : placeAt off = some (.reg r)) : (off, r) ∈ regOffsets := by
  unfold placeAt at h
  split at h
  next hf =>
    injection h with h
    injection h with h
    exact (Sparse.find_eq_some_iff regOffsets_sorted).1 (h ▸ hf)
  next => split_ifs at h <;> cases h

/-- R23: the HT unit's command register stands at its offset alone. -/
theorem offset_of_htCmd {off : Nat} (hp : placeAt off = some (.reg .htCmd)) : off = cmdOffset .ht := by
  simpa [regOffsets, cmdOffset] using mem_regOffsets_of_placeAt hp

/-- R23, R75: what is mapped. -/
theorem placeAt_isSome_iff {off : Nat} (ha : off % 4 = 0) :
    (placeAt off).isSome = true ↔ off < 0x40 ∨ (0x100 ≤ off ∧ off < 0x118) ∨ (0x1000 ≤ off ∧ off < 0x4000) := by
  have hreg := (Sparse.find_isSome_iff regOffsets_sorted).trans (mem_regOffsets_iff ha)
  unfold placeAt
  cases hf : Sparse.find regOffsets off with
  | some r =>
    have := hreg.1 (by rw [hf]; rfl)
    simp only [Option.isSome_some, true_iff]
    omega
  | none =>
    have : ¬ (off < 0x40 ∨ (0x100 ≤ off ∧ off < 0x118)) := mt hreg.2 (by rw [hf]; exact Bool.false_ne_true)
    dsimp only
    split_ifs <;> simp only [Option.isSome_some, Option.isSome_none, true_iff, Bool.false_eq_true, false_iff] <;> omega

theorem placeAt_sym {i : Nat} (hi : i < 1024) : placeAt (0x1000 + 4 * i) = some (.sym i) := by
  unfold placeAt
  rw [find_regOffsets_of_window (by omega) (by omega)]
  dsimp only
  rw [if_neg (by omega), if_pos (by omega), Nat.add_sub_cancel_left, Nat.mul_div_cancel_left i (by decide)]

theorem placeAt_size {i : Nat} (hi : i < 1024) : placeAt (0x2000 + 4 * i) = some (.size i) := by
  unfold placeAt
  rw [find_regOffsets_of_window (by omega) (by omega)]
  dsimp only
  rw [if_neg (by omega), if_neg (by omega), if_pos (by omega), Nat.add_sub_cancel_left,
    Nat.mul_div_cancel_left i (by decide)]

theorem placeAt_code {i : Nat} (hi : i < 1024) : placeAt (0x3000 + 4 * i) = some (.code i) := by
  unfold placeAt
  rw [find_regOffsets_of_window (by omega) (by omega)]
  dsimp only
  rw [if_neg (by omega), if_neg (by omega), if_neg (by omega), if_pos (by omega), Nat.add_sub_cancel_left,
    Nat.mul_div_cancel_left i (by decide)]

/-- Settles O50: the 22 register rows are looked up, and a window's entries stand 4 bytes apart above all of them. -/
theorem mappedOffsets : Obligations.MappedOffsets := by
  unfold Obligations.MappedOffsets
  exact ⟨fun off ha => placeAt_isSome_iff ha, rfl, rfl, rfl, rfl, rfl, rfl, rfl, rfl, rfl, rfl, rfl, rfl, rfl, rfl, rfl, rfl,
    rfl, rfl, rfl, rfl, rfl, rfl, fun i hi => ⟨placeAt_sym hi, placeAt_size hi, placeAt_code hi⟩⟩

end Sys2Proof.Machine


/-! PROOFS. The packed words (10_state.md R26, R30, R31, R38, R42, R48, R52, R53; O35, O48, O49): which field stands at which bits. -/

namespace Sys2Proof.Machine

/-! ### The status, geometry and parameter words

A field is read out of a packed word by dropping the parts below it and then the parts above it. The widths of the parts stay
written as sums, since an append is only seen in a word whose width is one. -/

/-- R26. -/
theorem HtUnit.statusWord_fields (h : HtUnit) :
    h.statusWord.getLsbD 0 = h.busy ∧ h.statusWord.getLsbD 1 = h.faulted ∧ h.statusWord.getLsbD 2 = h.existed ∧
      h.statusWord.extractLsb' 3 5 = 0 ∧ h.statusWord.extractLsb' 8 4 = h.faultCode ∧
      h.statusWord.extractLsb' 12 20 = 0 := by
  unfold HtUnit.statusWord
  simp [BitVec.getLsbD_append, BitVec.extractLsb'_append_eq_of_le, BitVec.extractLsb'_append_eq_of_add_le, -Nat.reduceAdd,
    -BitVec.getLsbD_eq_getElem]

/-- R48. -/
theorem PcUnit.statusWord_fields (p : PcUnit) :
    p.statusWord.getLsbD 0 = p.busy ∧ p.statusWord.getLsbD 1 = p.faulted ∧ p.statusWord.extractLsb' 2 6 = 0 ∧
      p.statusWord.extractLsb' 8 4 = p.faultCode ∧ p.statusWord.extractLsb' 12 20 = 0 := by
  unfold PcUnit.statusWord
  simp [BitVec.getLsbD_append, BitVec.extractLsb'_append_eq_of_le, BitVec.extractLsb'_append_eq_of_add_le, -Nat.reduceAdd,
    -BitVec.getLsbD_eq_getElem]

/-- R38. -/
theorem HtUnit.geomWord_fields (h : HtUnit) :
    h.geomWord.extractLsb' 0 6 = BitVec.ofNat 6 h.loglen ∧ h.geomWord.extractLsb' 6 2 = 0 ∧
      h.geomWord.extractLsb' 8 6 = BitVec.ofNat 6 (32 - h.loglen) ∧ h.geomWord.extractLsb' 14 18 = 0 := by
  unfold HtUnit.geomWord
  simp [BitVec.extractLsb'_append_eq_of_le, BitVec.extractLsb'_append_eq_of_add_le, -Nat.reduceAdd]

/-- R42. -/
theorem htParamWord_fields (P : Params) :
    (htParamWord P).extractLsb' 0 6 = BitVec.ofNat 6 P.maxLoglen ∧ (htParamWord P).extractLsb' 6 2 = 0 ∧
      (htParamWord P).extractLsb' 8 8 = 4#8 ∧ (htParamWord P).extractLsb' 16 16 = 0 := by
  unfold htParamWord Config.minLen
  simp [BitVec.extractLsb'_append_eq_of_le, BitVec.extractLsb'_append_eq_of_add_le, -Nat.reduceAdd]

/-- Settles O48: the fields of the two STATUS words. -/
theorem statusFields : Obligations.StatusFields := by
  unfold Obligations.StatusFields
  intro s
  obtain ⟨busy, faulted, existed, gap, code, top⟩ := s.ht.statusWord_fields
  exact ⟨busy, faulted, existed, gap, code, top, s.pc.statusWord_fields⟩

/-- Settles O49: the fields of the HT unit's two words; PC_PARAM is a constant. -/
theorem geometryAndParameterFields : Obligations.GeometryAndParameterFields := by
  unfold Obligations.GeometryAndParameterFields
  intro s
  obtain ⟨loglen, gap, hshift, top⟩ := s.ht.geomWord_fields
  obtain ⟨maxLoglen, gap', minLen, top'⟩ := htParamWord_fields s.params
  exact ⟨loglen, gap, hshift, top, maxLoglen, gap', minLen, top', rfl⟩

/-! ### HT_CONFIG -/

/-- The low `n` bits of a word, zero-extended. -/
theorem setWidth_extractLsb'_zero (v : Word) (n : Nat) :
    (v.extractLsb' 0 n).setWidth 32 = v &&& BitVec.ofNat 32 (2 ^ n - 1) := by
  refine BitVec.eq_of_getLsbD_eq fun i hi => ?_
  rw [BitVec.getLsbD_setWidth, BitVec.getLsbD_extractLsb', BitVec.getLsbD_and, BitVec.getLsbD_ofNat,
    Nat.testBit_two_pow_sub_one]
  simp [hi, Bool.and_comm]

/-- R30, R31: INIT_LOGLEN stands at bits 5:0, ZH_POLICY at bit 8. -/
theorem HtUnit.configWord_eq (h : HtUnit) :
    h.configWord = h.initLoglen.setWidth 32 ||| (if h.zhPolicy then 0x100#32 else 0) := by
  have packed : ∀ (policy : Bool) (loglen : BitVec 6), (0#23 ++ BitVec.ofBool policy ++ 0#2 ++ loglen : Word) =
      loglen.setWidth 32 ||| (if policy then 0x100#32 else 0) := by decide
  exact packed h.zhPolicy h.initLoglen

/-- R24, R30, R31: what is read after a write of HT_CONFIG. -/
theorem HtUnit.configWord_writeConfig (h : HtUnit) (v : Word) : (h.writeConfig v).configWord = v &&& 0x13F#32 := by
  have low : (v.extractLsb' 0 6).setWidth 32 = v &&& 0x3F#32 := setWidth_extractLsb'_zero v 6
  have bit8 : v &&& 0x100#32 = if v.getLsbD 8 then 0x100#32 else 0 := BitVec.and_twoPow v 8
  rw [HtUnit.configWord_eq, HtUnit.writeConfig_initLoglen, HtUnit.writeConfig_zhPolicy, low, ← bit8,
    ← BitVec.and_or_distrib_left]
  rfl

/-! ### Symbol frequency records -/

/-- R53: a record is its two halves. -/
theorem toNat_eq_freqField_symField (a : Word) : a.toNat = 2 ^ 16 * (freqField a).toNat + (symField a).toNat := by
  have ha := a.isLt
  rw [freqField, symField, BitVec.extractLsb'_toNat, BitVec.extractLsb'_toNat, Nat.shiftRight_eq_div_pow, Nat.shiftRight_zero,
    Nat.mod_eq_of_lt (a := a.toNat / 2 ^ 16) (by omega), Nat.div_add_mod]

/-- Settles O35: the key compares the high half first and then the low half, as the order of numbers does. -/
theorem recordOrderIsWordOrder : Obligations.RecordOrderIsWordOrder := by
  unfold Obligations.RecordOrderIsWordOrder
  intro a b
  have ha := (symField a).isLt
  have hb := (symField b).isLt
  rw [recordLe_iff, toNat_eq_freqField_symField a, toNat_eq_freqField_symField b]
  omega

end Sys2Proof.Machine

/-! PROOFS. Reads and writes of an idle unit by the host (10_state.md R24, 20_memory.md R72; O52, O53): what a write stores,
what it leaves, and what a read returns. -/

namespace Sys2Proof.Machine

/-! ### What a place write leaves -/

/-- R24: a register write leaves what every other register reads; one of a read-only register leaves all. -/
theorem State.readReg_writeReg_ne (s : State) (v : Word) {r q : Reg} (h : q ≠ r) : (s.writeReg v r).readReg q = s.readReg q := by
  cases r with
  | htConfig | htSrcLen | htHash | htCandOff | htLen | htSlotIdx | pcNumsyms | pcMaxlen =>
    cases q <;> first | exact absurd rfl h | rfl
  | _ => rfl

/-- R24, R72: a write leaves what every other register or entry reads. -/
theorem State.readPlace_writePlace_ne (s : State) (v : Word) {p q : Place} (h : q ≠ p) :
    (s.writePlace v p).readPlace q = s.readPlace q := by
  cases p with
  | reg r =>
    cases q with
    | reg r' => exact s.readReg_writeReg_ne v fun e => h (congrArg Place.reg e)
    | sym j | size j | code j => cases r <;> rfl
  | sym i =>
    cases q with
    | sym j => simp [State.writePlace, State.readPlace, State.symAt, Sparse.find_insert_ne _ v fun e => h (congrArg Place.sym e)]
    | reg r => cases r <;> rfl
    | size j | code j => rfl
  | size i =>
    cases q with
    | size j =>
      simp [State.writePlace, State.readPlace, State.sizeAt, Sparse.find_insert_ne _ _ fun e => h (congrArg Place.size e)]
    | reg r => cases r <;> rfl
    | sym j | code j => rfl
  | code i =>
    cases q with
    | code j =>
      simp [State.writePlace, State.readPlace, State.codeAt, Sparse.find_insert_ne _ v fun e => h (congrArg Place.code e)]
    | reg r => cases r <;> rfl
    | sym j | size j => rfl

/-- R53, R72: a SYM entry reads as the word written. -/
theorem State.readPlace_writePlace_sym (s : State) (v : Word) (i : Nat) :
    (s.writePlace v (.sym i)).readPlace (.sym i) = v := by
  simp [State.writePlace, State.readPlace, State.symAt]

/-- R54, R72: a SIZE entry reads as the low byte written. -/
theorem State.readPlace_writePlace_size (s : State) (v : Word) (i : Nat) :
    (s.writePlace v (.size i)).readPlace (.size i) = v &&& 0xFF#32 := by
  have low : (v.extractLsb' 0 8).setWidth 32 = v &&& 0xFF#32 := setWidth_extractLsb'_zero v 8
  simp [State.writePlace, State.readPlace, State.sizeAt, low]

/-- R55, R72: a CODE entry reads as the word written. -/
theorem State.readPlace_writePlace_code (s : State) (v : Word) (i : Nat) :
    (s.writePlace v (.code i)).readPlace (.code i) = v := by
  simp [State.writePlace, State.readPlace, State.codeAt]

/-- R24, R282: a place write changes writable fields only. -/
theorem State.writePlace_frame (s : State) (v : Word) (p : Place) : s.writePlace v p = { s with
    ht := { s.ht with
      initLoglen := (s.writePlace v p).ht.initLoglen, zhPolicy := (s.writePlace v p).ht.zhPolicy,
      srcLen := (s.writePlace v p).ht.srcLen, hash := (s.writePlace v p).ht.hash,
      candOff := (s.writePlace v p).ht.candOff, len := (s.writePlace v p).ht.len,
      slotIdx := (s.writePlace v p).ht.slotIdx }
    pc := { s.pc with
      numsyms := (s.writePlace v p).pc.numsyms, maxlen := (s.writePlace v p).pc.maxlen, sym := (s.writePlace v p).pc.sym,
      size := (s.writePlace v p).pc.size, code := (s.writePlace v p).pc.code } } := by
  cases p with
  | reg r => cases r <;> rfl
  | sym i | size i | code i => rfl

/-! ### The steps of a read and of a write -/

/-- R24, R72: a write to an idle unit's place that is no command register. -/
theorem step_write {s : State} {off : Nat} {p : Place} {v : Word} {timing : Timing} {rest : List Event} (ha : off % 4 = 0)
    (hp : placeAt off = some p) (hc : p.commandOf = none) (hb : s.busy p.unit = false)
    (hs : s.schedule = .write .w32 (s.params.base + off) v timing :: rest) :
    step s = .next (State.writePlace { s with schedule := rest, response := .done } v p) := by
  have idle : State.busy { s with schedule := rest } p.unit = false :=
    (s.busy_answered rest s.response s.freeCount p.unit).trans hb
  unfold step
  rw [hs]
  dsimp only
  rw [State.move, State.hostWrite, locate_of ha hp]
  dsimp only
  rw [hc]
  dsimp only
  rw [idle, if_neg Bool.false_ne_true]

/-- R72: a read of an idle unit's place. -/
theorem step_read {s : State} {off : Nat} {p : Place} {rest : List Event} (ha : off % 4 = 0)
    (hp : placeAt off = some p) (hb : s.busy p.unit = false)
    (hs : s.schedule = .read .w32 (s.params.base + off) :: rest) :
    step s = .next { s with schedule := rest, response := .data (s.readPlace p) } := by
  have idle : State.busy { s with schedule := rest } p.unit = false :=
    (s.busy_answered rest s.response s.freeCount p.unit).trans hb
  have value : State.readPlace { s with schedule := rest } p = s.readPlace p :=
    s.readPlace_answered rest s.response s.freeCount p
  unfold step
  rw [hs]
  dsimp only
  rw [State.move, State.hostRead, locate_of ha hp]
  dsimp only
  rw [idle, value]
  rfl

/-- Settles O52: the step is the place's write; a written HT_CONFIG keeps its two fields, a SIZE entry its byte, every other writable
place the word, and a read-only register what it was. -/
theorem writeStoresTheWritableFields : Obligations.WriteStoresTheWritableFields := by
  unfold Obligations.WriteStoresTheWritableFields
  intro s off p v timing rest ha hp hc hb hs
  refine ⟨_, step_write ha hp hc hb hs, fun q hq => ?_, State.writePlace_frame _ v p, ?_⟩
  · exact (State.readPlace_writePlace_ne _ v hq).trans (s.readPlace_answered rest .done s.freeCount q)
  · cases p with
    | reg r =>
      cases r with
      | htConfig => exact s.ht.configWord_writeConfig v
      | _ => rfl
    | sym i => exact State.readPlace_writePlace_sym _ v i
    | size i => exact State.readPlace_writePlace_size _ v i
    | code i => exact State.readPlace_writePlace_code _ v i

/-- Settles O53: the step is the place's read; only HT_CONFIG's value is packed otherwise than the statement writes it. -/
theorem readReturnsTheValue : Obligations.ReadReturnsTheValue := by
  unfold Obligations.ReadReturnsTheValue
  intro s off p rest ha hp hb hs
  refine ⟨step_read ha hp hb hs, ?_⟩
  cases p with
  | reg r =>
    cases r with
    | htConfig => exact s.ht.configWord_eq
    | _ => rfl
  | sym i | size i | code i => rfl

end Sys2Proof.Machine

/-! PROOFS. When a command is performed (60_exceptions.md R240; O4, O6): at once it is `exec` of the decoded word, and later its engine's
move does the same. -/

namespace Sys2Proof.Machine

/-! ### Offered words -/

theorem State.offer_illegal {u : UnitId} {w : Word} {why : IllegalWord} (h : decode u w = .illegal why) (s : State)
    (timing : Timing) : s.offer u w timing = .next (s.offerIllegal u) := by
  unfold State.offer; rw [h]

theorem State.offer_later {u : UnitId} {w : Word} {i : Instr} (h : decode u w = .legal i) (s : State) :
    s.offer u w .later = .next (if s.admits i then s.start u w else s) := by
  unfold State.offer; rw [h]

/-- An illegal word's effect does not depend on the schedule. -/
theorem State.offerIllegal_scheduled (s : State) (u : UnitId) (sch : List Event) :
    { s.offerIllegal u with schedule := sch } = State.offerIllegal { s with schedule := sch } u := by
  have hb : State.busy { s with schedule := sch } u = s.busy u := s.busy_answered sch s.response s.freeCount u
  have hf : State.faulted { s with schedule := sch } u = s.faulted u := s.faulted_answered sch s.response s.freeCount u
  unfold State.offerIllegal
  rw [hb, hf]
  split
  · rfl
  · cases u <;> rfl

theorem State.offerIllegal_schedule (s : State) (u : UnitId) : (s.offerIllegal u).schedule = s.schedule := by
  unfold State.offerIllegal
  split
  · rfl
  · cases u <;> rfl

/-- R106: an illegal word makes no unit busy. -/
theorem State.offerIllegal_busy {s : State} {u : UnitId} (h : s.busy u = false) : (s.offerIllegal u).busy u = false := by
  unfold State.offerIllegal
  split
  · exact h
  · cases u <;> rfl

theorem State.start_busy (s : State) (u : UnitId) (w : Word) : (s.start u w).busy u = true := by cases u <;> rfl

/-- Settles O4: the write offers the word, and a legal word performed at once is its command. -/
theorem stepRunsTheDecodedCommand : Obligations.StepRunsTheDecodedCommand := by
  unfold Obligations.StepRunsTheDecodedCommand
  intro s u w i rest hd hs
  exact (step_cmd hs).trans (State.offer_now hd _)

/-! ### The engines' moves -/

theorem step_engine {s : State} {u : UnitId} {rest : List Event} (h : s.schedule = .engine u :: rest) :
    step s = State.move { s with schedule := rest } (.engine u) := by
  unfold step; rw [h]

/-- R27: the engine of a unit that is not busy does nothing. -/
theorem State.move_engine_idle {s : State} {u : UnitId} (h : s.busy u = false) : s.move (.engine u) = .next s := by
  cases u with
  | ht => rw [State.move, State.htEngine, HtUnit.busy_eq_false.1 h]
  | pc => rw [State.move, State.pcEngine, PcUnit.busy_eq_false.1 h]

/-- R80: with no raced byte there is none to settle. -/
theorem Source.settle_of_raced_nil {src : Source} (h : src.raced = []) : src.settle = src := by
  unfold Source.settle; rw [← h]

/-- R27, R88 (2): the engine of a unit that has accepted a command performs it. -/
theorem State.move_engine_start {s : State} {u : UnitId} {w : Word} {i : Instr} (hd : decode u w = .legal i)
    (hb : s.busy u = false) (hr : u = .ht → s.src.raced = []) : (s.start u w).move (.engine u) = exec i s := by
  cases u with
  | ht =>
    have idle : { s.start .ht w with ht := { (s.start .ht w).ht with task := .idle } } = s := by
      have := HtUnit.busy_eq_false.1 hb
      unfold State.start; rw [← this]
    rw [State.move, State.htEngine, State.start_ht_ht_task]
    dsimp only
    rw [idle, State.offer_now hd]
    cases he : exec i s with
    | next t => dsimp only; rw [exec_src he, Source.settle_of_raced_nil (hr rfl), ← exec_src he]
    | fault f => rfl
    | refused r => rfl
  | pc =>
    have idle : { s.start .pc w with pc := { (s.start .pc w).pc with task := none } } = s := by
      have := PcUnit.busy_eq_false.1 hb
      unfold State.start; rw [← this]
    rw [State.move, State.pcEngine, State.start_pc_pc_task]
    dsimp only
    rw [idle, State.offer_now hd]

/-- Settles O6: an illegal word and a command that is not admitted leave the engine idle; an admitted command is what the engine
then performs. -/
theorem deferredCommandEqualsImmediate : Obligations.DeferredCommandEqualsImmediate := by
  unfold Obligations.DeferredCommandEqualsImmediate
  intro s u w rest hb hr
  have offered : step { s with schedule := .write .w32 (s.params.base + cmdOffset u) w .later :: (.engine u :: rest) } =
      State.offer { s with schedule := .engine u :: rest, response := .done } u w .later := step_cmd rfl
  have now : step { s with schedule := .write .w32 (s.params.base + cmdOffset u) w .now :: rest } =
      State.offer { s with schedule := rest, response := .done } u w .now := step_cmd rfl
  have idle : ∀ sch, State.busy { s with schedule := sch, response := .done } u = false := fun sch =>
    (s.busy_answered sch .done s.freeCount u).trans hb
  rw [offered, now]
  cases hd : decode u w with
  | illegal why =>
    refine ⟨_, State.offer_illegal hd _ _, nofun, ?_⟩
    rw [State.offer_illegal hd, step_engine (State.offerIllegal_schedule _ _), State.offerIllegal_scheduled]
    exact State.move_engine_idle (State.offerIllegal_busy (idle rest))
  | legal i =>
    have admits : ∀ sch, State.admits { s with schedule := sch, response := .done } i = s.admits i := fun sch => by
      unfold State.admits
      rw [s.busy_answered sch .done s.freeCount, s.faulted_answered sch .done s.freeCount]
    refine ⟨_, State.offer_later hd _, fun j hj ha => ?_, ?_⟩
    · injection hj with hj
      rw [admits, hj, if_pos ha]
      exact State.start_busy _ u w
    · rw [State.offer_now hd, admits]
      cases ha : s.admits i with
      | false =>
        rw [if_neg Bool.false_ne_true, step_engine rfl, exec_of_not_admits ((admits rest).trans ha)]
        exact State.move_engine_idle (idle rest)
      | true =>
        have started : step (State.start { s with schedule := .engine u :: rest, response := .done } u w) =
            State.move (State.start { s with schedule := rest, response := .done } u w) (.engine u) := by
          cases u <;> exact step_engine rfl
        rw [if_pos rfl, started]
        exact State.move_engine_start hd (idle rest) hr

end Sys2Proof.Machine


/-! PROOFS. The table under every command and every move (O22, O24, O29, O31, O58): its capacity, its robin-hood order and its exact
keycount (10_state.md R44, R46; 40_hash_table.md R144), and its reset (70_reset_and_hazards.md R270). -/

namespace Sys2Proof.Machine

/-! ### The capacity -/

/-- R147: the keycount step keeps the capacity or doubles it. -/
theorem State.countInsertion_loglen {s t : State} (h : s.countInsertion = .next t) :
    t.ht.loglen = s.ht.loglen ∨ t.ht.loglen = s.ht.loglen + 1 := by
  unfold State.countInsertion at h
  dsimp only at h
  split at h
  · split at h
    · injection h with h; subst h; exact .inl rfl
    · split at h
      · cases h
      · injection h with h; subst h; exact .inr rfl
  · injection h with h; subst h; exact .inl rfl

theorem State.finishGet_loglen {s t : State} {r : Probed} (h : s.finishGet r = .next t) :
    t.ht.loglen = s.ht.loglen ∨ t.ht.loglen = s.ht.loglen + 1 := by
  unfold State.finishGet at h
  dsimp only at h
  split at h
  · injection h with h; subst h; exact .inl rfl
  · exact (State.countInsertion_loglen h :)

/-- Everything an admitted HT.GET can do when it does not stop: fault at one of its checks, or probe and write its results. -/
theorem exec_htGet_next_cases {s t : State} (ha : s.admits .htGet = true) (h : exec .htGet s = .next t) :
    (∃ c, t = s.raise .ht c) ∨
      (¬ s.ht.zeroHashRefused = true ∧ ∃ r, s.probeCandidate = some r ∧ s.finishGet r = .next t) := by
  rw [exec, execHtGet_of_admits ha] at h
  split at h
  · injection h with h; exact .inl ⟨_, h.symm⟩
  split at h
  · injection h with h; exact .inl ⟨_, h.symm⟩
  split at h
  · injection h with h; exact .inl ⟨_, h.symm⟩
  next accepted =>
    cases hp : s.probeCandidate with
    | none => rw [hp] at h; cases h
    | some r => rw [hp] at h; exact .inr ⟨accepted, r, rfl, h⟩

theorem exec_htGet_loglen {s t : State} (ha : s.admits .htGet = true) (h : exec .htGet s = .next t) :
    t.ht.loglen = s.ht.loglen ∨ t.ht.loglen = s.ht.loglen + 1 := by
  rcases exec_htGet_next_cases ha h with ⟨c, rfl⟩ | ⟨-, r, -, hf⟩
  · exact .inl rfl
  · exact State.finishGet_loglen hf

/-- Settles O22: of the commands of the HT unit but HT.INIT only HT.GET writes the capacity, in its keycount step; the PC unit's
do not touch the HT unit. -/
theorem capacityOnlyDoubles : Obligations.CapacityOnlyDoubles := by
  unfold Obligations.CapacityOnlyDoubles
  intro i s t hi h
  cases ha : s.admits i with
  | false => rw [exec_of_not_admits ha] at h; injection h with h; subst h; exact .inl rfl
  | true =>
    cases i with
    | htInit => exact absurd rfl hi
    | htGet => exact (exec_htGet_loglen ha h).imp_right fun hl => ⟨rfl, hl⟩
    | htCount => rw [exec, execHtCount_of_admits ha] at h; injection h with h; subst h; exact .inl rfl
    | htRdslot =>
      rw [exec, execHtRdslot_of_admits ha] at h
      split at h <;> (injection h with h; subst h; exact .inl rfl)
    | pcSort | pcGencodes | pcLimit | pcClrflt => rw [exec_pc_frame rfl h]; exact .inl rfl

/-- Settles O24: HT.COUNT's result is the number of occupied slots, and that is the keycount. -/
theorem countIsTheKeycount : Obligations.CountIsTheKeycount := by
  unfold Obligations.CountIsTheKeycount
  intro s hO hr
  rw [exec, execHtCount_of_admits (hr.admits rfl), hO.count_exact, BitVec.ofNat_toNat, BitVec.setWidth_eq]

/-! ### The order and the count: probes and resizes -/

/-- R46 (a): an insertion of a hash that is not 0 occupies exactly one more slot. -/
theorem occupied_probe {L : Nat} (hL : L ≤ 32) {hit : Nat → Slot → Bool} {slots : List (Nat × Slot)} {e : Slot} {cand : Bool}
    {r : Probed} (wf : Slots.wf L slots) (he : e.hash ≠ 0) (hp : probe L hit slots e cand = some r) (hr : r.existed = false) :
    occupied r.slots = occupied slots + 1 := by
  have count := probe_slotCount (P := isOccupied) hL (fun t ht => by rw [isOccupied, ht]; rfl) hp hr
  have one : isOccupied e = true := bne_iff_ne.2 he
  rw [one, ← occupied_eq_slotCount wf, ← occupied_eq_slotCount (probe_wf hL wf hp)] at count
  exact count

/-- R147: a resize occupies as many slots as before. -/
theorem occupied_resize {L : Nat} (hL : L + 1 ≤ 32) {slots slots' : List (Nat × Slot)} (wf : Slots.wf L slots)
    (h : resize L slots = some slots') : occupied slots' = occupied slots := by
  obtain ⟨wf', count⟩ := resize_spec hL wf h
  rw [occupied_eq_slotCount wf', occupied_eq_slotCount wf]
  exact count isOccupied fun t ht => by rw [isOccupied, ht]; rfl

/-! ### The order: HT.GET -/

/-- R137: a hash that HT.GET lets through is not 0, unless the policy is REPLICATE. -/
theorem HtUnit.hash_ne_zero_of_accepted {h : HtUnit} (accepted : ¬ h.zeroHashRefused = true)
    (hz : h.zhPolicy = true → h.hash ≠ 0) :
    h.hash ≠ 0 := by
  intro h0
  cases hp : h.zhPolicy with
  | true => exact hz hp h0
  | false => exact accepted (by simp [HtUnit.zeroHashRefused, h0, hp])

/-- R146-R148: the keycount step, over an ordered table that holds one entry more than it counts, leaves an ordered table. -/
theorem State.countInsertion_ordered {s t : State} (hP : s.params.wellFormed = true) (hle : s.ht.loglen ≤ s.params.maxLoglen)
    (wf : Slots.wf s.ht.loglen s.ht.slots)
    (hO : HtUnit.Ordered { s.ht with keycount := s.ht.keycount + 1 }) (h : s.countInsertion = .next t) : t.ht.Ordered := by
  have room : s.ht.loglen < s.params.maxLoglen → s.ht.loglen + 1 ≤ 32 := fun hlt =>
    le_trans hlt (Params.maxLoglen_bounds hP).2
  rcases State.countInsertion_cases room wf hle with ⟨-, he⟩ | ⟨-, -, he⟩ | ⟨-, hlt, slots', hs, he⟩ <;>
    (rw [he] at h; injection h with h; subst h)
  · exact hO
  · exact { hO with }
  · exact ⟨resize_robinHood (room hlt) wf hs, (occupied_resize (room hlt) wf hs).trans hO.count_exact⟩

/-- R144, R146, R151: after the probe of a hash that is not 0 HT.GET leaves an ordered table. -/
theorem State.finishGet_ordered {s t : State} (hi : s.UnitsInv) (hO : s.ht.Ordered) (hf : s.ht.faulted = false)
    (hz : s.ht.hash ≠ 0) {r : Probed} (hp : s.probeCandidate = some r) (h : s.finishGet r = .next t) : t.ht.Ordered := by
  have hL := hi.ht_inv.loglen_le_32 hi.params_wf
  have wf := hi.ht_inv.slots_wf
  unfold State.finishGet at h
  rcases probe_cases hL hp with ⟨found, -, same, -⟩ | ⟨inserted, -⟩
  · rw [if_pos found, same] at h
    injection h with h
    subst h
    exact { hO with }
  · rw [if_neg (by rw [inserted]; exact Bool.false_ne_true)] at h
    have order : robinHood s.ht.loglen r.slots := probe_robinHood hL hO.robin_hood hz (hi.ht_inv.room hf) hp
    have count : occupied r.slots = (s.ht.keycount + 1).toNat := by
      rw [occupied_probe hL wf hz hp inserted, hO.count_exact, hi.ht_inv.keycount_succ hi.params_wf hf]
    exact State.countInsertion_ordered
      (s := { s with
        ht := { s.ht.writeGetResult r.existed r.offset with slots := r.slots }
        freeCount := s.freeCount + 1 })
      hi.params_wf hi.ht_inv.loglen_le (probe_wf hL wf hp) ⟨order, count⟩ h

/-- R136-R151: an HT.GET keeps the table ordered, unless its hash is 0 under REPLICATE. -/
theorem State.exec_htGet_ordered {s t : State} (hi : s.UnitsInv) (hO : s.ht.Ordered) (ha : s.admits .htGet = true)
    (hz : s.ht.zhPolicy = true → s.ht.hash ≠ 0) (h : exec .htGet s = .next t) : t.ht.Ordered := by
  rcases exec_htGet_next_cases ha h with ⟨c, rfl⟩ | ⟨accepted, r, hp, hf⟩
  · exact { hO with }
  · exact s.finishGet_ordered hi hO (State.unfaulted_of_admits ha rfl) (HtUnit.hash_ne_zero_of_accepted accepted hz) hp hf

/-! ### The order: every command -/

/-- The empty table of any size, whose keycount is 0, is ordered. -/
theorem HtUnit.ordered_empty {h : HtUnit} (hs : h.slots = []) (hk : h.keycount = 0) : h.Ordered where
  robin_hood := by rw [hs]; exact robinHood_nil _
  count_exact := by rw [hs, hk]; rfl

/-- Every command but an HT.GET of hash 0 under REPLICATE keeps the table ordered. -/
theorem State.exec_ordered {s t : State} {i : Instr} (hi : s.UnitsInv) (hO : s.ht.Ordered)
    (hz : i = .htGet → s.admits .htGet = true → s.ht.zhPolicy = true → s.ht.hash ≠ 0) (h : exec i s = .next t) :
    t.ht.Ordered := by
  cases ha : s.admits i with
  | false => rw [exec_of_not_admits ha] at h; injection h with h; exact h ▸ hO
  | true =>
    cases i with
    | htInit =>
      rw [exec, execHtInit_of_admits ha] at h
      split at h <;> (injection h with h; subst h)
      · exact { hO with }
      · exact HtUnit.ordered_empty rfl rfl
    | htGet => exact s.exec_htGet_ordered hi hO ha (hz rfl ha) h
    | htCount => rw [exec, execHtCount_of_admits ha] at h; injection h with h; subst h; exact { hO with }
    | htRdslot =>
      rw [exec, execHtRdslot_of_admits ha] at h
      split at h <;> (injection h with h; subst h; exact { hO with })
    | pcSort | pcGencodes | pcLimit | pcClrflt => rw [exec_pc_frame rfl h]; exact hO

/-! ### The order: every move -/

theorem State.offerIllegal_ordered {s : State} (hO : s.ht.Ordered) (u : UnitId) : (s.offerIllegal u).ht.Ordered := by
  unfold State.offerIllegal
  split
  · exact hO
  · cases u with
    | ht => exact { hO with }
    | pc => exact hO

theorem State.start_ordered {s : State} (hO : s.ht.Ordered) (u : UnitId) (w : Word) : (s.start u w).ht.Ordered := by
  cases u with
  | ht => exact { hO with }
  | pc => exact hO

/-- R240: an offered word keeps the table ordered, unless it performs an HT.GET of hash 0 under REPLICATE at once. -/
theorem State.offer_ordered {s t : State} {u : UnitId} {w : Word} {timing : Timing} (hi : s.UnitsInv) (hO : s.ht.Ordered)
    (hz : timing = .now → decode u w = .legal .htGet → s.admits .htGet = true → s.ht.zhPolicy = true → s.ht.hash ≠ 0)
    (h : s.offer u w timing = .next t) : t.ht.Ordered := by
  cases hd : decode u w with
  | illegal why => rw [State.offer_illegal hd] at h; injection h with h; exact h ▸ State.offerIllegal_ordered hO u
  | legal i =>
    cases timing with
    | now =>
      rw [State.offer_now hd] at h
      exact s.exec_ordered hi hO (fun e => hz rfl (e ▸ hd)) h
    | later =>
      rw [State.offer_later hd] at h
      injection h with h
      split at h
      · exact h ▸ State.start_ordered hO u w
      · exact h ▸ hO

/-- R24: no register write touches the table. -/
theorem State.writePlace_ordered {s : State} (hO : s.ht.Ordered) (v : Word) (p : Place) : (s.writePlace v p).ht.Ordered := by
  cases p with
  | reg r =>
    cases r with
    | htConfig | htSrcLen | htHash | htCandOff | htLen | htSlotIdx => exact { hO with }
    | _ => exact hO
  | sym i | size i | code i => exact hO

theorem Place.eq_htCmd {p : Place} (h : p.commandOf = some .ht) : p = .reg .htCmd := by
  unfold Place.commandOf at h
  split at h
  · rfl
  all_goals cases h

/-- A word written to HT_CMD that decodes to a command the unit admits is an accepted command. -/
theorem State.acceptsHt_of_locate {s : State} {width : AccessWidth} {addr : Nat} {p : Place} {v : Word} {timing : Timing}
    {i : Instr} (hl : locate s.params width addr = .place p) (hc : p.commandOf = some .ht) (hd : decode .ht v = .legal i)
    (ha : s.admits i = true) : s.acceptsHt (.write width addr v timing) = some i := by
  obtain ⟨hbase, rfl, -, hp⟩ := locate_eq_place hl
  have haddr : addr = s.params.base + cmdOffset .ht := by
    have := offset_of_htCmd (Place.eq_htCmd hc ▸ hp)
    omega
  simp only [State.acceptsHt, if_pos haddr, hd, if_pos ha]

/-- R240: a host write keeps the table ordered, unless it is accepted as an HT.GET of hash 0 under REPLICATE and performed at once. -/
theorem State.hostWrite_ordered {s t : State} {width : AccessWidth} {addr : Nat} {v : Word} {timing : Timing} (hi : s.UnitsInv)
    (hO : s.ht.Ordered)
    (hz : timing = .now → s.acceptsHt (.write width addr v timing) = some .htGet → s.ht.zhPolicy = true → s.ht.hash ≠ 0)
    (h : s.hostWrite width addr v timing = .next t) : t.ht.Ordered := by
  unfold State.hostWrite at h
  cases hl : locate s.params width addr with
  | elsewhere => rw [hl] at h; cases h
  | busError => rw [hl] at h; injection h with h; exact h ▸ hO
  | place p =>
    rw [hl] at h
    dsimp only at h
    cases hc : p.commandOf with
    | some u =>
      rw [hc] at h
      refine State.offer_ordered (s := { s with response := .done }) { hi with } hO (fun now hd ha => hz now ?_) h
      obtain rfl : u = .ht := (decode_unit hd).symm
      exact State.acceptsHt_of_locate hl hc hd ha
    | none =>
      rw [hc] at h
      dsimp only at h
      split at h <;> (injection h with h; subst h)
      · exact hO
      · exact State.writePlace_ordered (s := { s with response := .done }) hO v p

/-- R27: the HT engine keeps the table ordered, unless the command it ends is an HT.GET of hash 0 under REPLICATE. -/
theorem State.htEngine_ordered {s t : State} (hi : s.UnitsInv) (hO : s.ht.Ordered)
    (hz : s.ht.task.command = some .htGet → s.ht.zhPolicy = true → s.ht.hash ≠ 0) (h : s.htEngine = .next t) :
    t.ht.Ordered := by
  have idle : State.UnitsInv { s with ht := { s.ht with task := .idle } } :=
    { hi with ht_inv := { hi.ht_inv with task_legal := nofun } }
  rcases State.htEngine_cases h with ⟨-, rfl⟩ | ⟨-, rfl⟩ | ⟨w, t', hw, ho, rfl⟩
  · exact hO
  · exact { hO with }
  · refine State.offer_ordered (t := t') idle { hO with } (fun _ hd _ => hz ?_) ho
    rw [hw, HtTask.command, hd]

/-- R48: the PC engine does not touch the table. -/
theorem State.pcEngine_ordered {s t : State} (hO : s.ht.Ordered) (h : s.pcEngine = .next t) : t.ht.Ordered := by
  rcases State.pcEngine_cases h with ⟨-, rfl⟩ | ⟨w, -, ho⟩
  · exact hO
  · rcases State.offer_cases ho with ⟨-, rfl⟩ | ⟨i, hd, he⟩ | ⟨i, -, -, rfl⟩ | rfl
    · exact State.offerIllegal_ordered (s := { s with pc := { s.pc with task := none } }) hO .pc
    · rw [exec_pc_frame (decode_unit hd) he]; exact hO
    · exact hO
    · exact hO

/-- Settles O31: every move of the schedule keeps the order, and so does an engine that ends its command with no move left. -/
theorem stepKeepsTheTableOrdered : Obligations.StepKeepsTheTableOrdered := by
  unfold Obligations.StepKeepsTheTableOrdered
  intro s t hi hO hz h
  rcases step_cases h with ⟨e, rest, hs, h⟩ | ⟨hs, h | h⟩
  · rw [State.performsHt, hs] at hz
    have units : State.UnitsInv { s with schedule := rest } := { hi.units with }
    cases e with
    | read width addr => obtain ⟨r, n, rfl⟩ := State.hostRead_cases h; exact hO
    | write width addr v timing =>
      refine State.hostWrite_ordered units hO (fun htiming ha => hz ?_) h
      subst htiming
      exact ha
    | srcWrite off b => injection h with h; subst h; exact hO
    | publish lo up => injection h with h; subst h; exact hO
    | engine u =>
      cases u with
      | ht => exact State.htEngine_ordered units hO hz h
      | pc => exact State.pcEngine_ordered (s := { s with schedule := rest }) hO h
    | reset timing => injection h with h; subst h; exact HtUnit.ordered_empty rfl rfl
  · rw [State.performsHt, hs] at hz
    exact State.htEngine_ordered hi.units hO hz h
  · exact State.pcEngine_ordered hO h

/-! ### Reset -/

/-- R59, R270: the HT unit as reset leaves it, with the clear done. -/
theorem HtUnit.reset_inv {P : Params} (hP : P.wellFormed = true) : (HtUnit.reset P).Inv P := by
  obtain ⟨hpos, hle⟩ := Params.resetLoglen_bounds hP
  exact (HtUnit.tableInv_empty hpos hle rfl).unfaulted (Nat.zero_le _) rfl rfl (HtUnit.idle_not_running rfl)

/-- Settles O29: both units have their reset values, the table is empty and nothing has been written. -/
theorem resetMeetsTheInvariant : Obligations.ResetMeetsTheInvariant := by
  unfold Obligations.ResetMeetsTheInvariant
  intro P hP
  refine ⟨?_, HtUnit.ordered_empty rfl rfl⟩
  exact {
    params_wf := hP
    ht_inv := HtUnit.reset_inv hP
    pc_inv := PcUnit.reset_inv
    visible_wf := Memory.wf_nil
    pending_wf := Memory.wf_nil
    raced_running := fun _ => rfl }

/-- Settles O58: the step is the reset move. -/
theorem resetSetsEveryRegister : Obligations.ResetSetsEveryRegister := by
  unfold Obligations.ResetSetsEveryRegister
  intro s rest hs
  have moved : step s = .next (State.doReset { s with schedule := rest } .now) := by unfold step; rw [hs]; rfl
  exact ⟨_, moved, rfl, rfl, rfl, rfl, rfl, rfl, rfl, rfl, rfl, rfl⟩

end Sys2Proof.Machine


/-! PROOFS. Command words and their bytes (30_encoding.md R100-R106, 20_memory.md R70; O2). -/

namespace Sys2Proof

/-! ### Words -/

/-- R100: a command word is its two fields. -/
theorem reservedField_append_opcodeField (w : Word) : (reservedField w ++ opcodeField w : BitVec 32) = w := by
  unfold reservedField opcodeField
  exact BitVec.extractLsb'_append_extractLsb'_eq_extractLsb' (by rfl) |>.trans BitVec.extractLsb'_eq_self

/-- R100, R105: the fields of a word that is a command. -/
theorem fields_of_decode {u : UnitId} {w : Word} {i : Instr} (h : decode u w = .legal i) :
    reservedField w = 0 ∧ opcodeField w = i.opcode := by
  unfold decode at h
  split at h
  · cases h
  next hr =>
  refine ⟨Decidable.not_not.1 hr, ?_⟩
  split_ifs at h with h1 h2 h3 h4 h5 h6 h7 h8 <;> cases h
  exacts [h1.2, h2.2, h3.2, h4.2, h5.2, h6.2, h7.2, h8.2]

/-- R103: a unit reads each of its commands from the command's word. -/
theorem decode_encode (i : Instr) : decode i.unit (encode i) = .legal i := by cases i <;> decide

/-- R103-R105: the words that are commands at a unit. -/
theorem decode_eq_legal_iff {u : UnitId} {w : Word} {i : Instr} : decode u w = .legal i ↔ i.unit = u ∧ w = encode i := by
  constructor
  · intro h
    obtain ⟨reserved, opcode⟩ := fields_of_decode h
    refine ⟨Machine.decode_unit h, ?_⟩
    rw [← reservedField_append_opcodeField w, reserved, opcode]
    rfl
  · rintro ⟨rfl, rfl⟩
    exact decode_encode i

/-! ### Bytes -/

/-- R70: the word of four bytes has these bytes. -/
theorem bytesOfWord_append (b0 b1 b2 b3 : Byte) : bytesOfWord (b3 ++ b2 ++ b1 ++ b0) = [b0, b1, b2, b3] := by
  simp [bytesOfWord, BitVec.extractLsb'_append_eq_of_le, BitVec.extractLsb'_append_eq_of_add_le, -Nat.reduceAdd]

/-- R70: a word is made of its bytes. -/
theorem wordOfBytes_bytesOfWord (w : Word) : wordOfBytes (bytesOfWord w) = some w := by
  unfold wordOfBytes bytesOfWord
  simp only [Option.some.injEq]
  rw [BitVec.extractLsb'_append_extractLsb'_eq_extractLsb' (by rfl), BitVec.extractLsb'_append_extractLsb'_eq_extractLsb' (by rfl),
    BitVec.extractLsb'_append_extractLsb'_eq_extractLsb' (by rfl)]
  exact BitVec.extractLsb'_eq_self

/-- R70: only the bytes of a word, lowest address first, give it. -/
theorem wordOfBytes_eq_some_iff {bs : List Byte} {w : Word} : wordOfBytes bs = some w ↔ bs = bytesOfWord w := by
  constructor
  · intro h
    unfold wordOfBytes at h
    split at h
    · injection h with h
      rw [← h, bytesOfWord_append]
    · cases h
  · rintro rfl
    exact wordOfBytes_bytesOfWord w

/-- R100: bytes are a command exactly if the word they give is. -/
theorem decodeBytes_eq_legal_iff {u : UnitId} {bs : List Byte} {i : Instr} :
    decodeBytes u bs = .legal i ↔ ∃ w, wordOfBytes bs = some w ∧ decode u w = .legal i := by
  unfold decodeBytes
  cases wordOfBytes bs <;> simp

/-- Settles O2: the bytes give a word exactly if they are the word's, and the word is read as the command exactly if it is its. -/
theorem decodeOfBytesInvertsEncode : Obligations.DecodeOfBytesInvertsEncode := by
  unfold Obligations.DecodeOfBytesInvertsEncode
  intro u bs i
  simp only [decodeBytes_eq_legal_iff, wordOfBytes_eq_some_iff, decode_eq_legal_iff]
  constructor
  · rintro ⟨w, rfl, hu, rfl⟩
    exact ⟨hu, rfl⟩
  · rintro ⟨hu, rfl⟩
    exact ⟨encode i, rfl, hu, rfl⟩

end Sys2Proof


/-! PROOFS. Commands of the two units (60_exceptions.md R240, R251; 20_memory.md R76, R83; O9, O11, O21): a busy unit discards them, and a
command touches neither the other unit nor a source byte it has no use for. -/

namespace Sys2Proof.Machine

/-- Settles O9: a busy unit admits no command. -/
theorem busyUnitDiscardsCommands : Obligations.BusyUnitDiscardsCommands := by
  unfold Obligations.BusyUnitDiscardsCommands
  exact fun _ _ hb => exec_of_not_admits (State.admits_of_busy hb)

/-- Two changes of the state that agree on the next state of a result change the result alike. -/
theorem mapNext_congr {f g : State → State} {r : StepResult} (h : ∀ t, r = .next t → f t = g t) : mapNext f r = mapNext g r := by
  cases r with
  | next t => exact congrArg _ (h t rfl)
  | fault _ | refused _ => rfl

/-! ### HT commands -/

/-- The state with another PC unit and another source buffer around the HT unit. -/
def State.surround (p : PcUnit) (src : Source) (s : State) : State := { s with pc := p, src := src }

theorem State.surround_ht (p : PcUnit) (src : Source) (s : State) : (s.surround p src).ht = s.ht := rfl
theorem State.surround_src (p : PcUnit) (src : Source) (s : State) : (s.surround p src).src = src := rfl
theorem State.surround_params (p : PcUnit) (src : Source) (s : State) : (s.surround p src).params = s.params := rfl
theorem State.surround_freeCount (p : PcUnit) (src : Source) (s : State) : (s.surround p src).freeCount = s.freeCount := rfl

/-- R240: only its own unit decides whether an HT command is admitted. -/
theorem State.admits_surround {i : Instr} (hu : i.unit = .ht) (s : State) (p : PcUnit) (src : Source) :
    (s.surround p src).admits i = s.admits i := by
  unfold State.admits
  rw [hu]
  rfl

/-- R76, R142: a comparison with a candidate within HT_SRC_LEN reads no byte at or past it. -/
theorem State.bytesMatch_surround {s : State} {src : Source}
    (agree : ∀ off < s.ht.srcLen.toNat, src.settled off = s.src.settled off) (p : PcUnit) {c n : Word}
    (inRange : c.toNat + n.toNat ≤ s.ht.srcLen.toNat) (draw visit : Nat) (o : Word) :
    (s.surround p src).bytesMatch draw visit o c n = s.bytesMatch draw visit o c n := by
  have read : ∀ k stored off, off < s.ht.srcLen.toNat → src.byte draw visit k stored off = s.src.byte draw visit k stored off :=
    fun k stored off hoff => by rw [Source.byte, agree off hoff, Source.byte]
  unfold State.bytesMatch
  rw [State.surround_ht, State.surround_src]
  split
  next => rfl
  next stored =>
    rw [Bool.eq_iff_iff, List.all_eq_true, List.all_eq_true]
    refine forall₂_congr fun k hk => ?_
    have hk := List.mem_range.1 hk
    rw [read k true (o.toNat + k) (by omega), read k false (c.toNat + k) (by omega)]

/-- R76, R135: the probe of a candidate within HT_SRC_LEN reads no byte at or past it. -/
theorem State.probeCandidate_surround {s : State} {src : Source}
    (agree : ∀ off < s.ht.srcLen.toNat, src.settled off = s.src.settled off) (p : PcUnit)
    (inRange : ¬ s.ht.candOutOfRange = true) : (s.surround p src).probeCandidate = s.probeCandidate := by
  have le : s.ht.candOff.toNat + s.ht.len.toNat ≤ s.ht.srcLen.toNat := by
    simpa [HtUnit.candOutOfRange] using inRange
  simp only [State.probeCandidate, State.surround_ht, State.surround_freeCount, State.bytesMatch_surround agree p le]

/-- R146-R148: the keycount step looks at the HT unit and the parameters only. -/
theorem State.countInsertion_surround (s : State) (p : PcUnit) (src : Source) :
    (s.surround p src).countInsertion = mapNext (State.surround p src) s.countInsertion := by
  unfold State.countInsertion
  dsimp only
  rw [State.surround_ht, State.surround_params]
  split
  · split
    · rfl
    · cases resize s.ht.loglen s.ht.slots <;> rfl
  · rfl

/-- R151: HT.GET's results are written to the HT unit, whatever stands beside it. -/
theorem State.finishGet_surround (s : State) (p : PcUnit) (src : Source) (r : Probed) :
    (s.surround p src).finishGet r = mapNext (State.surround p src) (s.finishGet r) := by
  unfold State.finishGet
  dsimp only
  split
  · rfl
  · exact State.countInsertion_surround { s with
      ht := { s.ht.writeGetResult r.existed r.offset with slots := r.slots }, freeCount := s.freeCount + 1 } p src

/-- R76, R92, R251: an HT command depends on no PC unit and on no source byte but the settled ones below HT_SRC_LEN, and it leaves
both as they are. -/
theorem exec_surround {i : Instr} (hu : i.unit = .ht) {s : State} {src : Source}
    (agree : ∀ off < s.ht.srcLen.toNat, src.settled off = s.src.settled off) (p : PcUnit) :
    exec i (s.surround p src) = mapNext (State.surround p src) (exec i s) := by
  have same := s.admits_surround hu p src
  cases ha : s.admits i with
  | false => rw [exec_of_not_admits ha, exec_of_not_admits (same.trans ha)]; rfl
  | true =>
    rw [ha] at same
    cases i with
    | htInit =>
      rw [exec, exec, execHtInit_of_admits ha, execHtInit_of_admits same, State.surround_ht, State.surround_params]
      split <;> rfl
    | htGet =>
      rw [exec, exec, execHtGet_of_admits ha, execHtGet_of_admits same, State.surround_ht]
      split
      · rfl
      split
      · rfl
      next inRange =>
      split
      · rfl
      rw [State.probeCandidate_surround agree p inRange]
      cases s.probeCandidate with
      | none => rfl
      | some r => exact s.finishGet_surround p src r
    | htCount => rw [exec, exec, execHtCount_of_admits ha, execHtCount_of_admits same]; rfl
    | htRdslot =>
      rw [exec, exec, execHtRdslot_of_admits ha, execHtRdslot_of_admits same, State.surround_ht]
      split <;> rfl
    | pcSort | pcGencodes | pcLimit | pcClrflt => cases hu

theorem exec_ht_pc {i : Instr} {s t : State} (hu : i.unit = .ht) (h : exec i s = .next t) : t.pc = s.pc := by
  rw [exec_ht_frame hu h]

/-- Settles O21: HT.GET is an HT command, so it depends on the settled bytes below HT_SRC_LEN alone. -/
theorem getReadsOnlyBelowSrcLen : Obligations.GetReadsOnlyBelowSrcLen := by
  unfold Obligations.GetReadsOnlyBelowSrcLen
  intro s src agree
  have given : exec .htGet (s.surround s.pc src) = mapNext (State.surround s.pc src) (exec .htGet s) :=
    exec_surround rfl agree s.pc
  refine given.trans (mapNext_congr fun t ht => ?_)
  rw [State.surround, ← exec_ht_pc rfl ht]

/-! ### PC commands -/

/-- The state with another HT unit and another source buffer beside the PC unit. -/
def State.adjoin (h : HtUnit) (src : Source) (s : State) : State := { s with ht := h, src := src }

theorem State.adjoin_pc (h : HtUnit) (src : Source) (s : State) : (s.adjoin h src).pc = s.pc := rfl
theorem State.usedSymbols_adjoin (h : HtUnit) (src : Source) (s : State) (N : Nat) :
    (s.adjoin h src).usedSymbols N = s.usedSymbols N := rfl

/-- R240: only its own unit decides whether a PC command is admitted. -/
theorem State.admits_adjoin {i : Instr} (hu : i.unit = .pc) (s : State) (h : HtUnit) (src : Source) :
    (s.adjoin h src).admits i = s.admits i := by
  unfold State.admits
  rw [hu]
  rfl

/-- R181: a computing command that is admitted faults when there are too many symbols. -/
theorem exec_tooManySymbols {i : Instr} {s : State} (hu : i.unit = .pc) (hi : i ≠ .pcClrflt) (ha : s.admits i = true)
    (hN : Config.maxSyms < s.pc.symbolCount) : exec i s = .next (s.raise .pc .numsymsRange) := by
  cases i with
  | pcSort => rw [exec, execPcSort, State.perform_of_admits ha, State.withSymbolCount_of_gt hN]
  | pcGencodes => rw [exec, execPcGencodes, State.perform_of_admits ha, State.withSymbolCount_of_gt hN]
  | pcLimit => rw [exec, execPcLimit, State.perform_of_admits ha, State.withSymbolCount_of_gt hN]
  | pcClrflt => exact absurd rfl hi
  | htInit | htGet | htCount | htRdslot => cases hu

/-- R92, R239: a PC command depends on the PC unit alone, and it leaves the HT unit and the source buffer as they are. -/
theorem exec_adjoin {i : Instr} (hu : i.unit = .pc) (s : State) (h : HtUnit) (src : Source) :
    exec i (s.adjoin h src) = mapNext (State.adjoin h src) (exec i s) := by
  have same := s.admits_adjoin hu h src
  cases ha : s.admits i with
  | false => rw [exec_of_not_admits ha, exec_of_not_admits (same.trans ha)]; rfl
  | true =>
    rw [ha] at same
    have tooMany (hi : i ≠ .pcClrflt) (hN : Config.maxSyms < s.pc.symbolCount) :
        exec i (s.adjoin h src) = mapNext (State.adjoin h src) (exec i s) := by
      rw [exec_tooManySymbols hu hi ha hN, exec_tooManySymbols hu hi same hN]; rfl
    have bound := Nat.lt_or_ge Config.maxSyms s.pc.symbolCount
    cases i with
    | pcSort =>
      rcases bound with hN | hN
      · exact tooMany nofun hN
      · rw [exec, exec, execPcSort_of_admits ha hN, execPcSort_of_admits same hN]; rfl
    | pcGencodes =>
      rcases bound with hN | hN
      · exact tooMany nofun hN
      · rw [exec, exec, execPcGencodes_of_admits ha hN, execPcGencodes_of_admits same hN, State.adjoin_pc,
          State.usedSymbols_adjoin]
        split
        · rfl
        · split <;> rfl
    | pcLimit =>
      rcases bound with hN | hN
      · exact tooMany nofun hN
      · rw [exec, exec, execPcLimit_of_admits ha hN, execPcLimit_of_admits same hN, State.adjoin_pc, State.usedSymbols_adjoin]
        split <;> rfl
    | pcClrflt => rw [exec, exec, execPcClrflt_of_admits ha, execPcClrflt_of_admits same]; rfl
    | htInit | htGet | htCount | htRdslot => cases hu

/-- Settles O11: an HT command commutes with another PC unit, the source buffer staying as it is, and a PC command with another HT
unit and source buffer. -/
theorem unitsAreIndependent : Obligations.UnitsAreIndependent := by
  unfold Obligations.UnitsAreIndependent
  intro i s
  refine ⟨fun hu p => ?_, fun hu h src => exec_adjoin hu s h src⟩
  have given : exec i (s.surround p s.src) = mapNext (State.surround p s.src) (exec i s) :=
    exec_surround hu (fun _ _ => rfl) p
  refine given.trans (mapNext_congr fun t ht => ?_)
  rw [State.surround, ← exec_src ht]

end Sys2Proof.Machine


/-! PROOFS. Host accesses that get a bus error, that reach a busy unit, or that miss the block (20_memory.md R73-R75, R83; O33, O51, O54). -/

namespace Sys2Proof.Machine

theorem step_cons {s : State} {e : Event} {rest : List Event} (h : s.schedule = e :: rest) :
    step s = State.move { s with schedule := rest } e := by
  unfold step; rw [h]

theorem step_scheduled (s : State) (e : Event) (rest : List Event) :
    step { s with schedule := e :: rest } = State.move { s with schedule := rest } e := step_cons rfl

/-! ### Bus errors -/

/-- R73-R75: an access that is not 32 bits wide, misaligned or unmapped reaches nothing. -/
theorem locate_busError {P : Params} {width : AccessWidth} {off : Nat}
    (bad : width ≠ .w32 ∨ off % 4 ≠ 0 ∨ (0x40 ≤ off ∧ off < 0x100) ∨ (0x118 ≤ off ∧ off < 0x1000) ∨ 0x4000 ≤ off) :
    locate P width (P.base + off) = .busError := by
  unfold locate
  rw [if_neg (by omega), Nat.add_sub_cancel_left]
  split
  · rfl
  next hw =>
  split
  · rfl
  next ha =>
  have ha : off % 4 = 0 := Decidable.not_not.1 ha
  have unmapped : placeAt off = none := by
    rw [← Option.not_isSome_iff_eq_none, placeAt_isSome_iff ha]
    have := bad.resolve_left hw
    omega
  rw [unmapped]

/-- Settles O51: the access reaches nothing, so both kinds answer the bus error. -/
theorem badAccessesGetABusError : Obligations.BadAccessesGetABusError := by
  unfold Obligations.BadAccessesGetABusError
  intro s width off v timing rest bad
  have nothing := locate_busError (P := s.params) bad
  constructor
  · rw [step_scheduled, State.move, State.hostRead, nothing]
    rfl
  · rw [step_scheduled, State.move, State.hostWrite, nothing]
    rfl

/-! ### Busy units -/

/-- R83 (a), R240: a write to a busy unit is answered and discarded, that of a command register too. -/
theorem State.hostWrite_busy {s : State} {off : Nat} {p : Place} (ha : off % 4 = 0) (hp : placeAt off = some p)
    (hb : s.busy p.unit = true) (v : Word) (timing : Timing) :
    s.hostWrite .w32 (s.params.base + off) v timing = .next { s with response := .done } := by
  unfold State.hostWrite
  rw [locate_of ha hp]
  dsimp only
  cases hc : p.commandOf with
  | some u =>
    have busy : State.busy { s with response := .done } u = true := by
      rw [← Place.unit_of_commandOf hc]
      exact (s.busy_answered s.schedule .done s.freeCount p.unit).trans hb
    exact State.offer_busy busy v timing
  | none => exact if_pos hb

/-- R83 (b): a STATUS register reads true, its unit busy or not. -/
theorem State.hostRead_status {s : State} {off : Nat} {p : Place} (ha : off % 4 = 0) (hp : placeAt off = some p)
    (status : p.isStatus = true) :
    s.hostRead .w32 (s.params.base + off) = .next { s with response := .data (s.readPlace p) } := by
  unfold State.hostRead
  rw [locate_of ha hp]
  dsimp only
  rw [status, Bool.not_true, Bool.and_false, if_neg Bool.false_ne_true]

/-- R83 (c): another place of a busy unit reads as a free value. -/
theorem State.hostRead_busy {s : State} {off : Nat} {p : Place} (ha : off % 4 = 0) (hp : placeAt off = some p)
    (hb : s.busy p.unit = true) (status : p.isStatus = false) :
    s.hostRead .w32 (s.params.base + off) =
      .next { s with response := .data (Config.busyRead s.freeCount), freeCount := s.freeCount + 1 } := by
  unfold State.hostRead
  rw [locate_of ha hp]
  dsimp only
  rw [hb, status, Bool.not_false, Bool.and_self, if_pos rfl]

theorem Place.isStatus_iff {p : Place} : p.isStatus = true ↔ p = .reg .htStatus ∨ p = .reg .pcStatus := by
  cases p with
  | reg r => cases r <;> simp [Place.isStatus]
  | sym i | size i | code i => simp [Place.isStatus]

/-- Settles O54: each access is the one of the busy unit, made with the move taken off the schedule. -/
theorem busyUnitAccesses : Obligations.BusyUnitAccesses := by
  unfold Obligations.BusyUnitAccesses
  intro s off p v timing rest ha hp hb
  have busy : State.busy { s with schedule := rest } p.unit = true :=
    (s.busy_answered rest s.response s.freeCount p.unit).trans hb
  have value : State.readPlace { s with schedule := rest } p = s.readPlace p :=
    s.readPlace_answered rest s.response s.freeCount p
  refine ⟨?_, fun status => ?_, fun notHt notPc => ⟨Config.busyRead s.freeCount, s.freeCount + 1, ?_⟩⟩ <;> rw [step_scheduled]
  · exact State.hostWrite_busy (s := { s with schedule := rest }) ha hp busy v timing
  · rw [← value]
    exact State.hostRead_status (s := { s with schedule := rest }) ha hp (Place.isStatus_iff.2 status)
  · have other : p.isStatus = false := Bool.eq_false_iff.2 fun h => (Place.isStatus_iff.1 h).elim notHt notPc
    exact State.hostRead_busy (s := { s with schedule := rest }) ha hp busy other

/-! ### Where a step stops -/

/-- R240: a word offered to a unit is no stop. -/
theorem State.UnitsInv.offer_ends {s : State} (hi : s.UnitsInv) (u : UnitId) (w : Word) (timing : Timing) :
    ∃ t, s.offer u w timing = .next t := by
  cases hd : decode u w with
  | illegal why => exact ⟨_, State.offer_illegal hd s timing⟩
  | legal i =>
    cases timing with
    | now =>
      obtain ⟨t, ht, -⟩ := hi.exec_endsWell i
      exact ⟨t, (State.offer_now hd s).trans ht⟩
    | later => exact ⟨_, State.offer_later hd s⟩

/-- R153, R27: the HT engine ends its command. -/
theorem State.UnitsInv.htEngine_ends {s : State} (hi : s.UnitsInv) : ∃ t, s.htEngine = .next t := by
  unfold State.htEngine
  cases s.ht.task with
  | idle => exact ⟨_, rfl⟩
  | clearing => exact ⟨_, rfl⟩
  | running w =>
    have idle : State.UnitsInv { s with ht := { s.ht with task := .idle } } :=
      { hi with ht_inv := { hi.ht_inv with task_legal := nofun } }
    obtain ⟨t, ht⟩ := idle.offer_ends .ht w .now
    dsimp only
    rw [ht]
    exact ⟨_, rfl⟩

/-- R48: the PC engine ends its command. -/
theorem State.UnitsInv.pcEngine_ends {s : State} (hi : s.UnitsInv) : ∃ t, s.pcEngine = .next t := by
  unfold State.pcEngine
  cases s.pc.task with
  | none => exact ⟨_, rfl⟩
  | some w =>
    have idle : State.UnitsInv { s with pc := { s.pc with task := none } } :=
      { hi with pc_inv := { hi.pc_inv with task_legal := nofun } }
    exact idle.offer_ends .pc w .now

/-- A host write stops at an address below BASE and nowhere else. -/
theorem State.UnitsInv.hostWrite_ends {s : State} (hi : s.UnitsInv) {addr : Nat} (h : s.params.base ≤ addr) (width : AccessWidth)
    (v : Word) (timing : Timing) : ∃ t, s.hostWrite width addr v timing = .next t := by
  unfold State.hostWrite
  cases hl : locate s.params width addr with
  | elsewhere => exact absurd (locate_eq_elsewhere.1 hl) (Nat.not_lt.2 h)
  | busError => exact ⟨_, rfl⟩
  | place p =>
    dsimp only
    cases p.commandOf with
    | some u => exact State.UnitsInv.offer_ends (s := { s with response := .done }) { hi with } u v timing
    | none => dsimp only; split <;> exact ⟨_, rfl⟩

/-- The access of a move that the platform does not route to the block (log 5). -/
def Event.Misses (P : Params) (e : Event) : Prop :=
  ∃ width addr, addr < P.base ∧ (e = .read width addr ∨ ∃ v timing, e = .write width addr v timing)

/-- R73-R75, R153: a move answers a next state, unless it misses the block. -/
theorem State.UnitsInv.move_ends {s : State} (hi : s.UnitsInv) (e : Event) :
    (∃ t, s.move e = .next t) ∨ s.move e = .fault .notRouted ∧ e.Misses s.params := by
  cases e with
  | read width addr =>
    rcases Nat.lt_or_ge addr s.params.base with below | above
    · refine .inr ⟨?_, width, addr, below, .inl rfl⟩
      rw [State.move, State.hostRead, locate_eq_elsewhere.2 below]
    · exact .inl (State.hostRead_of_le above)
  | write width addr v timing =>
    rcases Nat.lt_or_ge addr s.params.base with below | above
    · refine .inr ⟨?_, width, addr, below, .inr ⟨v, timing, rfl⟩⟩
      rw [State.move, State.hostWrite, locate_eq_elsewhere.2 below]
    · exact .inl (hi.hostWrite_ends above width v timing)
  | srcWrite off b => exact .inl ⟨_, rfl⟩
  | publish lo up => exact .inl ⟨_, rfl⟩
  | engine u =>
    cases u with
    | ht => exact .inl hi.htEngine_ends
    | pc => exact .inl hi.pcEngine_ends
  | reset timing => exact .inl ⟨_, rfl⟩

/-- Settles O33: with no move left the engines end, and the next move answers a next state or misses the block. -/
theorem stepStopsOnlyBelowBase : Obligations.StepStopsOnlyBelowBase := by
  unfold Obligations.StepStopsOnlyBelowBase
  intro s hi
  cases hs : s.schedule with
  | nil =>
    refine .inl ?_
    unfold step State.drain
    rw [hs]
    dsimp only
    split
    · exact hi.units.htEngine_ends
    · exact hi.units.pcEngine_ends
  | cons e rest =>
    rw [step_cons hs]
    have units : State.UnitsInv { s with schedule := rest } := { hi.units with }
    refine (units.move_ends e).imp_right fun ⟨stops, width, addr, below, access⟩ => ⟨stops, width, addr, rest, below, ?_⟩
    rcases access with rfl | ⟨v, timing, rfl⟩
    · exact .inl rfl
    · exact .inr ⟨v, timing, rfl⟩

end Sys2Proof.Machine


/-! PROOFS. The source buffer (20_memory.md R76-R90, R283; O55, O56): when a byte the host writes is seen, and what a dutiful host leaves. -/

namespace Sys2Proof.Machine

/-! ### What a write and a publication leave to be read -/

/-- R80, R283: a byte is bound once no newer one waits and none races. -/
theorem Source.settled_of_calm {src : Source} {off : Nat} (raced : off ∉ src.raced) (pending : Sparse.find src.pending off = none) :
    src.settled off = some (src.seen off) := by
  unfold Source.settled
  rw [if_neg]
  rintro (h | h)
  · exact raced h
  · rw [pending] at h; cases h

theorem Source.settled_of_raced {src : Source} {off : Nat} (raced : off ∈ src.raced) : src.settled off = none :=
  if_pos (.inl raced)

theorem Source.settled_of_pending {src : Source} {off : Nat} {b : Byte} (pending : Sparse.find src.pending off = some b) :
    src.settled off = none := if_pos (.inr (by rw [pending]; rfl))

/-- What is bound at an offset depends on that offset's bytes and race alone. -/
theorem Source.settled_congr {a b : Source} {off : Nat} (visible : Sparse.find a.visible off = Sparse.find b.visible off)
    (pending : Sparse.find a.pending off = Sparse.find b.pending off) (raced : off ∈ a.raced ↔ off ∈ b.raced) :
    a.settled off = b.settled off := by
  unfold Source.settled Source.seen
  simp only [visible, pending, raced]

/-- R80, R283: a write changes what is bound at its own offset only. -/
theorem Source.settled_hostWrite_ne (src : Source) (vis : SrcVisibility) (r : Bool) (off : Nat) (b : Byte) {o : Nat} (h : o ≠ off) :
    (src.hostWrite vis r off b).settled o = src.settled o := by
  have raced : o ∈ (src.hostWrite vis r off b).raced ↔ o ∈ src.raced := by
    cases r with
    | false => rfl
    | true => rw [Source.hostWrite_running_raced, List.mem_cons, or_iff_right h]
  cases vis with
  | coherent => exact Source.settled_congr (Sparse.find_insert_ne _ b h) rfl raced
  | explicit => exact Source.settled_congr rfl (Sparse.find_insert_ne _ b h) raced

/-- R80 (a): a byte written while an HT command runs is not bound for it. -/
theorem Source.settled_hostWrite_running (src : Source) (vis : SrcVisibility) (off : Nat) (b : Byte) :
    (src.hostWrite vis true off b).settled off = none := Source.settled_of_raced List.mem_cons_self

/-- R283: on a platform that is not coherent a byte that is written waits. -/
theorem Source.settled_hostWrite_explicit (src : Source) (r : Bool) (off : Nat) (b : Byte) :
    (src.hostWrite .explicit r off b).settled off = none := Source.settled_of_pending (Sparse.find_insert_self _ off b)

/-- R80 (b), R90: with no race left and nothing waiting, a byte written on a coherent platform is bound. -/
theorem Source.settled_settle_hostWrite {src : Source} (hp : src.pending = []) (r : Bool) (off : Nat) (b : Byte) :
    (src.hostWrite .coherent r off b).settle.settled off = some b := by
  rw [Source.settled_of_calm List.not_mem_nil (by simp [hp])]
  simp [Source.seen]

/-- R90: when nothing else waits, publishing a range that holds a written byte is the coherent platform's write, but that the byte may
be listed as raced once more. -/
theorem Source.publish_hostWrite {src : Source} (hp : src.pending = []) {off lo up : Nat} (hlo : lo ≤ off) (hup : off < up)
    (r : Bool) (b : Byte) : (src.hostWrite .explicit r off b).publish r lo up =
      { src.hostWrite .coherent r off b with raced := if r then off :: off :: src.raced else src.raced } := by
  cases r <;> simp [Source.publish, Source.hostWrite, Source.covered, Sparse.insert, Sparse.insertAll, hp, hlo, hup]

/-- R90: after that publication the same bytes are bound as after the coherent platform's write. -/
theorem Source.settled_publish_hostWrite {src : Source} (hp : src.pending = []) {off lo up : Nat} (hlo : lo ≤ off) (hup : off < up)
    (r : Bool) (b : Byte) (o : Nat) :
    ((src.hostWrite .explicit r off b).publish r lo up).settled o = (src.hostWrite .coherent r off b).settled o := by
  rw [Source.publish_hostWrite hp hlo hup]
  refine Source.settled_congr rfl rfl ?_
  cases r <;> simp [Source.hostWrite]

/-- R80 (b), R90: once the HT command has ended, the two leave the same source buffer. -/
theorem Source.settle_publish_hostWrite {src : Source} (hp : src.pending = []) {off lo up : Nat} (hlo : lo ≤ off) (hup : off < up)
    (r : Bool) (b : Byte) :
    ((src.hostWrite .explicit r off b).publish r lo up).settle = (src.hostWrite .coherent r off b).settle := by
  rw [Source.publish_hostWrite hp hlo hup]
  rfl

/-! ### What a move leaves of the source buffer -/

theorem State.offerIllegal_src (s : State) (u : UnitId) : (s.offerIllegal u).src = s.src := by
  unfold State.offerIllegal
  split
  · rfl
  · exact (s.raise_frame u .illegalCmd).2.1

theorem State.start_src (s : State) (u : UnitId) (w : Word) : (s.start u w).src = s.src := by cases u <;> rfl

theorem State.writePlace_src (s : State) (v : Word) (p : Place) : (s.writePlace v p).src = s.src := by
  rw [State.writePlace_frame]

/-- R78: no word offered to a unit changes the source buffer. -/
theorem State.offer_src {s t : State} {u : UnitId} {w : Word} {timing : Timing} (h : s.offer u w timing = .next t) :
    t.src = s.src := by
  rcases State.offer_cases h with ⟨-, rfl⟩ | ⟨i, -, he⟩ | ⟨i, -, -, rfl⟩ | rfl
  · exact s.offerIllegal_src u
  · exact exec_src he
  · exact s.start_src u w
  · rfl

/-- R80 (b): the HT engine that ends a command settles the source buffer. -/
theorem State.htEngine_src {s t : State} (h : s.htEngine = .next t) (running : s.ht.running = true) : t.src = s.src.settle := by
  unfold HtUnit.running at running
  rcases State.htEngine_cases h with ⟨idle, -⟩ | ⟨clearing, -⟩ | ⟨w, t', -, ho, rfl⟩
  · rw [idle] at running; cases running
  · rw [clearing] at running; cases running
  · exact congrArg Source.settle (State.offer_src ho :)

/-- R80 (b): but for its races, the HT engine leaves the source buffer. -/
theorem State.htEngine_settle {s t : State} (h : s.htEngine = .next t) : t.src.settle = s.src.settle := by
  rcases State.htEngine_cases h with ⟨-, rfl⟩ | ⟨-, rfl⟩ | ⟨w, t', -, ho, rfl⟩
  · rfl
  · rfl
  · have kept : t'.src = s.src := (State.offer_src ho :)
    exact (congrArg Source.settle kept :)

theorem State.pcEngine_src {s t : State} (h : s.pcEngine = .next t) : t.src = s.src := by
  rcases State.pcEngine_cases h with ⟨-, rfl⟩ | ⟨w, -, ho⟩
  · rfl
  · exact (State.offer_src ho :)

theorem State.hostWrite_src {s t : State} {width : AccessWidth} {addr : Nat} {v : Word} {timing : Timing}
    (h : s.hostWrite width addr v timing = .next t) : t.src = s.src := by
  rcases State.hostWrite_cases h with ⟨u, ho⟩ | ⟨r, rfl⟩ | ⟨p, off, -, -, -, rfl⟩
  · exact (State.offer_src ho :)
  · rfl
  · exact State.writePlace_src _ v p

/-- Everything a move can do to the source buffer (R78): the host writes a byte of it or publishes some, or at most races end. -/
theorem State.move_src_cases {s t : State} {e : Event} (h : s.move e = .next t) :
    (∃ off b, e = .srcWrite off b ∧ t.src = s.src.hostWrite s.params.srcVisibility s.ht.running off.toNat b) ∨
    (∃ lo up, e = .publish lo up ∧ t.src = s.src.publish s.ht.running lo up) ∨ t.src.settle = s.src.settle := by
  cases e with
  | srcWrite off b => injection h with h; exact .inl ⟨off, b, rfl, h ▸ rfl⟩
  | publish lo up => injection h with h; exact .inr (.inl ⟨lo, up, rfl, h ▸ rfl⟩)
  | read width addr => obtain ⟨r, n, rfl⟩ := State.hostRead_cases h; exact .inr (.inr rfl)
  | write width addr v timing => exact .inr (.inr (congrArg Source.settle (State.hostWrite_src h)))
  | engine u =>
    cases u with
    | ht => exact .inr (.inr (State.htEngine_settle h))
    | pc => exact .inr (.inr (congrArg Source.settle (State.pcEngine_src h)))
  | reset timing => injection h with h; exact .inr (.inr (h ▸ rfl))

theorem State.move_srcWrite {s : State} {vis : SrcVisibility} {r : Bool} (hv : s.params.srcVisibility = vis)
    (hr : s.ht.running = r) (off : Word) (b : Byte) :
    s.move (.srcWrite off b) = .next { s with src := s.src.hostWrite vis r off.toNat b } := by
  rw [State.move, hv, hr]

theorem State.move_publish {s : State} {r : Bool} (hr : s.ht.running = r) (src : Source) (lo up : Nat) :
    State.move { s with src := src } (.publish lo up) = .next { s with src := src.publish r lo up } := by
  rw [State.move, hr]

/-- R80 (b): whatever its source buffer, the HT engine that runs a command ends it and settles the buffer. -/
theorem State.UnitsInv.engine_settles {s : State} (hi : s.UnitsInv) (running : s.ht.running = true) (src : Source) :
    ∃ t, State.move { s with src := src } (.engine .ht) = .next t ∧ t.src = src.settle := by
  obtain ⟨t, ht⟩ := State.UnitsInv.htEngine_ends (s := { s with src := src }) { hi with }
  exact ⟨t, ht, State.htEngine_src ht running⟩

/-- Settles O55: an idle unit races nothing, so the byte is bound when it is visible; a racing one is bound when the command ends. -/
theorem writtenSourceBytesAreSeenWhenVisible : Obligations.WrittenSourceBytesAreSeenWhenVisible := by
  unfold Obligations.WrittenSourceBytesAreSeenWhenVisible
  intro s off b lo up hi hp hlo hup
  have others : ∀ vis r o, o ≠ off.toNat → (s.src.hostWrite vis r off.toNat b).settled o = s.src.settled o :=
    fun vis r _ h => s.src.settled_hostWrite_ne vis r off.toNat b h
  have published : ∀ r o, ((s.src.hostWrite .explicit r off.toNat b).publish r lo up).settled o =
      (s.src.hostWrite .coherent r off.toNat b).settled o := fun r => Source.settled_publish_hostWrite hp hlo hup r b
  have ended : ∀ r, (s.src.hostWrite .coherent r off.toNat b).settle.settled off.toNat = some b :=
    fun r => Source.settled_settle_hostWrite hp r off.toNat b
  have bound (idle : s.ht.running = false) : (s.src.hostWrite .coherent false off.toNat b).settled off.toNat = some b := by
    rw [← ended false, Source.settle_of_raced_nil (src := s.src.hostWrite .coherent false off.toNat b) (hi.raced_running idle)]
  refine ⟨fun coherent idle => ?_, fun explicit idle => ?_, fun coherent running => ?_, fun explicit running => ?_⟩
  · exact ⟨_, State.move_srcWrite coherent idle off b, bound idle, others .coherent false⟩
  · refine ⟨_, _, State.move_srcWrite explicit idle off b, s.src.settled_hostWrite_explicit false off.toNat b,
      others .explicit false, State.move_publish idle _ lo up, ?_, fun o h => ?_⟩
    · exact (published false off.toNat).trans (bound idle)
    · exact (published false o).trans (others .coherent false o h)
  · obtain ⟨t, ht, hsrc⟩ := hi.units.engine_settles running (s.src.hostWrite .coherent true off.toNat b)
    exact ⟨_, t, State.move_srcWrite coherent running off b, s.src.settled_hostWrite_running .coherent off.toNat b,
      others .coherent true, ht, hsrc ▸ ended true⟩
  · obtain ⟨t, ht, hsrc⟩ :=
      hi.units.engine_settles running ((s.src.hostWrite .explicit true off.toNat b).publish true lo up)
    refine ⟨_, _, t, State.move_srcWrite explicit running off b, s.src.settled_hostWrite_running .explicit off.toNat b,
      State.move_publish running _ lo up, ?_, fun o h => ?_, ht, ?_⟩
    · exact (published true off.toNat).trans (s.src.settled_hostWrite_running .coherent off.toNat b)
    · exact (published true o).trans (others .coherent true o h)
    · rw [hsrc, Source.settle_publish_hostWrite hp hlo hup]
      exact ended true

/-! ### The host's duty H7 (60_exceptions.md R250) -/

/-- The source buffer `src'` has the visible bytes of `src` below the watermark, and none waiting there. -/
def Source.KeptBelow (used : Nat) (src src' : Source) : Prop :=
  (∀ off < used, Sparse.find src'.visible off = Sparse.find src.visible off) ∧ ∀ c ∈ src'.pending, used ≤ c.1

theorem Source.keptBelow_of_settle_eq {used : Nat} {src src' : Source} (hp : ∀ c ∈ src.pending, used ≤ c.1)
    (h : src'.settle = src.settle) : Source.KeptBelow used src src' := by
  injection h with visible pending
  exact ⟨fun _ _ => by rw [visible], pending ▸ hp⟩

/-- R79: a write at or above the watermark keeps what stands below it. -/
theorem Source.keptBelow_hostWrite {used : Nat} {src : Source} (hp : ∀ c ∈ src.pending, used ≤ c.1) {off : Nat} (h : used ≤ off)
    (vis : SrcVisibility) (r : Bool) (b : Byte) : Source.KeptBelow used src (src.hostWrite vis r off b) := by
  cases vis with
  | coherent => exact ⟨fun o ho => Sparse.find_insert_ne _ b (Nat.ne_of_lt (ho.trans_le h)), hp⟩
  | explicit =>
    refine ⟨fun _ _ => rfl, fun c hc => ?_⟩
    rcases Sparse.mem_insert hc with rfl | hc
    · exact h
    · exact hp c hc

/-- R90: a publication touches the offsets of waiting bytes only. -/
theorem Source.keptBelow_publish {used : Nat} {src : Source} (hp : ∀ c ∈ src.pending, used ≤ c.1) (r : Bool) (lo up : Nat) :
    Source.KeptBelow used src (src.publish r lo up) := by
  refine ⟨fun o ho => Sparse.find_insertAll_of_notMem _ _ fun hm => ?_, fun c hc => hp c (List.mem_of_mem_filter hc)⟩
  obtain ⟨c, hc, rfl⟩ := List.mem_map.1 hm
  exact Nat.not_lt.2 (hp c (List.mem_of_mem_filter hc)) ho

/-- Settles O56: H7 keeps a source write at or above the watermark, and only waiting bytes are published. -/
theorem dutifulHostKeepsUsedBytes : Obligations.DutifulHostKeepsUsedBytes := by
  unfold Obligations.DutifulHostKeepsUsedBytes
  intro s t used e rest hs duty hp h
  rw [step_cons hs] at h
  show Source.KeptBelow used s.src t.src
  rcases State.move_src_cases h with ⟨off, b, rfl, hsrc⟩ | ⟨lo, up, -, hsrc⟩ | hsrc
  · exact hsrc ▸ Source.keptBelow_hostWrite hp duty _ _ b
  · exact hsrc ▸ Source.keptBelow_publish hp _ lo up
  · exact Source.keptBelow_of_settle_eq hp hsrc

end Sys2Proof.Machine


/-! PROOFS. What a unit's command register reads as a command (30_encoding.md R103-R106; O1, O3, O5, O7): the words of its commands, which
the next step runs, and no other, which faults or is discarded. -/

namespace Sys2Proof

/-- Settles O1: a command's two fields make up its word. -/
theorem decodeReadsExactlyTheCommandWords : Obligations.DecodeReadsExactlyTheCommandWords := by
  unfold Obligations.DecodeReadsExactlyTheCommandWords
  exact fun _ _ _ => decode_eq_legal_iff

/-- Settles O3, word by word; the bytes are those of HT.GET's word. -/
theorem wordsDecodeAsTheOpcodeMapSays : Obligations.WordsDecodeAsTheOpcodeMapSays := by
  unfold Obligations.WordsDecodeAsTheOpcodeMapSays
  have getBytes : decodeBytes .ht (encodeBytes .htGet) = .legal .htGet := (decodeOfBytesInvertsEncode _ _ _).2 ⟨rfl, rfl⟩
  exact ⟨decode_htInit_word, decode_htGet_word, decode_htCount_word, decode_htRdslot_word, decode_pcSort_word,
    decode_pcGencodes_word, decode_pcLimit_word, decode_pcClrflt_word, by decide, by decide, by decide, by decide, getBytes⟩

/-- R111: a row of the opcode table that is read as a command is a 32-bit word that its unit decodes to the command. -/
theorem decodeTableWord_eq_some {nbits w : Nat} {i : Instr} (h : decodeTableWord nbits w = some i) :
    ∃ v, tableWord nbits w = some v ∧ decode (unitOfWord v) v = .legal i := by
  unfold decodeTableWord at h
  cases hv : tableWord nbits w with
  | none => rw [hv] at h; cases h
  | some v =>
    rw [hv] at h
    dsimp only at h
    cases hd : decodeBytes (unitOfWord v) (bytesOfWord v) with
    | illegal why => rw [hd] at h; cases h
    | legal j =>
      rw [hd] at h
      injection h with h
      obtain ⟨v', hv', legal⟩ := decodeBytes_eq_legal_iff.1 hd
      rw [wordOfBytes_bytesOfWord] at hv'
      injection hv' with hv'
      exact ⟨v, rfl, by rw [← h, ← legal, hv']⟩

end Sys2Proof

namespace Sys2Proof.Machine

/-- Settles O5: the row's move is the host write of the row's word to its unit, so the step runs the decoded command. -/
theorem stepRunsATableRow : Obligations.StepRunsATableRow := by
  unfold Obligations.StepRunsATableRow
  intro s nbits w i h
  obtain ⟨v, hv, legal⟩ := decodeTableWord_eq_some h
  refine stepRunsTheDecodedCommand (s.withFetchWord nbits w) _ v i s.schedule legal ?_
  rw [State.withFetchWord, rowMove, hv]

/-- R240: a busy or faulted unit discards an illegal word. -/
theorem State.offerIllegal_discarded {s : State} {u : UnitId} (h : s.busy u = true ∨ s.faulted u = true) :
    s.offerIllegal u = s :=
  if_pos (by simpa using h)

/-- R106: a ready unit faults at an illegal word. -/
theorem State.offerIllegal_ready {s : State} {u : UnitId} (h : s.Ready u) : s.offerIllegal u = s.raise u .illegalCmd :=
  if_neg (by simp [h.not_busy, h.not_faulted])

/-- Settles O7: the write offers the word, with any timing, and the unit is busy or faulted, or is ready and faults. -/
theorem illegalWordFaultsOrIsDiscarded : Obligations.IllegalWordFaultsOrIsDiscarded := by
  unfold Obligations.IllegalWordFaultsOrIsDiscarded
  intro s u w why timing rest hd hs
  have offered : step s = .next (State.offerIllegal { s with schedule := rest, response := .done } u) :=
    (step_cmd hs).trans (State.offer_illegal hd _ timing)
  have busy := s.busy_answered rest .done s.freeCount u
  have faulted := s.faulted_answered rest .done s.freeCount u
  have ready (hr : s.Ready u) :
      step s = .next (State.raise { s with schedule := rest, response := .done } u .illegalCmd) := by
    rw [offered, State.offerIllegal_ready ⟨busy.trans hr.not_busy, faulted.trans hr.not_faulted⟩]
  refine ⟨fun h => ?_, ?_, ?_⟩
  · rw [offered, State.offerIllegal_discarded (by rwa [busy, faulted])]
  · rintro rfl hr
    rw [ready hr, State.raise_ht_idle (busy.trans hr.not_busy)]
    rfl
  · rintro rfl hr
    rw [ready hr, State.raise_pc_idle (busy.trans hr.not_busy)]
    rfl

end Sys2Proof.Machine


/-! PROOFS. What each command leaves unchanged (30_encoding.md R102, 60_exceptions.md R234, 70_reset_and_hazards.md R282; O27, O28). -/

namespace Sys2Proof.Machine

/-! ### HT commands -/

/-- R131, R133: HT.INIT keeps the argument registers. -/
theorem exec_htInit_frame {s t : State} (h : exec .htInit s = .next t) : t = { s with ht := { t.ht with
    initLoglen := s.ht.initLoglen, zhPolicy := s.ht.zhPolicy, srcLen := s.ht.srcLen, hash := s.ht.hash,
    candOff := s.ht.candOff, len := s.ht.len, slotIdx := s.ht.slotIdx, task := s.ht.task } } := by
  cases ha : s.admits .htInit with
  | false => rw [exec_of_not_admits ha] at h; injection h with h; subst h; rfl
  | true =>
    rw [exec, execHtInit_of_admits ha] at h
    split at h
    · rw [State.raise_ht_idle (State.admits_iff.1 ha).1] at h
      injection h with h; subst h; rfl
    · injection h with h; subst h; rfl

/-- R147, R151, R234: the unit `h` with what an HT.GET may write taken from `h'`. -/
def HtUnit.withGetEffects (h h' : HtUnit) : HtUnit := { h with
  loglen := h'.loglen, slots := h'.slots, keycount := h'.keycount, existed := h'.existed, resOff := h'.resOff
  faulted := h'.faulted, faultCode := h'.faultCode }

/-- R146-R148: the keycount step keeps to what an HT.GET may write. -/
theorem State.countInsertion_withGetEffects {s t : State} (idle : s.ht.busy = false) (h : s.countInsertion = .next t) :
    t = { s with ht := s.ht.withGetEffects t.ht } := by
  unfold State.countInsertion at h
  dsimp only at h
  split at h
  · split at h
    · injection h with h; subst h; exact State.raise_ht_idle (by exact idle) .capacity
    · split at h
      · cases h
      · injection h with h; subst h; rfl
  · injection h with h; subst h; rfl

/-- R151: after its probe HT.GET writes its results and uses up free values, and counts an insertion. -/
theorem State.finishGet_withGetEffects {s t : State} {r : Probed} (idle : s.ht.busy = false) (h : s.finishGet r = .next t) :
    t = { s with freeCount := t.freeCount, ht := s.ht.withGetEffects t.ht } := by
  unfold State.finishGet at h
  dsimp only at h
  split at h
  · injection h with h; subst h; rfl
  · have counted := State.countInsertion_withGetEffects (by exact idle) h
    rw [counted]
    rfl

/-- R151, R234: HT.GET faults at a check, or probes and keeps to what it may write. -/
theorem exec_htGet_frame {s t : State} (h : exec .htGet s = .next t) :
    t = { s with freeCount := t.freeCount, ht := s.ht.withGetEffects t.ht } := by
  cases ha : s.admits .htGet with
  | false => rw [exec_of_not_admits ha] at h; injection h with h; subst h; rfl
  | true =>
    have idle : s.ht.busy = false := (State.admits_iff.1 ha).1
    rcases exec_htGet_next_cases ha h with ⟨c, rfl⟩ | ⟨-, r, -, hf⟩
    · rw [State.raise_ht_idle idle]; rfl
    · exact State.finishGet_withGetEffects idle hf

/-- R155: HT.COUNT writes HT_RES_COUNT only. -/
theorem exec_htCount_frame {s t : State} (h : exec .htCount s = .next t) :
    t = { s with ht := { s.ht with resCount := t.ht.resCount } } := by
  cases ha : s.admits .htCount with
  | false => rw [exec_of_not_admits ha] at h; injection h with h; subst h; rfl
  | true => rw [exec, execHtCount_of_admits ha] at h; injection h with h; subst h; rfl

/-- R158, R159: HT.RDSLOT writes the three results of the slot, or faults. -/
theorem exec_htRdslot_frame {s t : State} (h : exec .htRdslot s = .next t) : t = { s with ht := { s.ht with
    slotHash := t.ht.slotHash, slotOff := t.ht.slotOff, slotLen := t.ht.slotLen, faulted := t.ht.faulted,
    faultCode := t.ht.faultCode } } := by
  cases ha : s.admits .htRdslot with
  | false => rw [exec_of_not_admits ha] at h; injection h with h; subst h; rfl
  | true =>
    rw [exec, execHtRdslot_of_admits ha] at h
    split at h
    · rw [State.raise_ht_idle (State.admits_iff.1 ha).1] at h
      injection h with h; subst h; rfl
    · injection h with h; subst h; rfl

/-- Settles O27, command by command. -/
theorem htCommandFrames : Obligations.HtCommandFrames := by
  unfold Obligations.HtCommandFrames
  exact fun s t => ⟨exec_htInit_frame, exec_htGet_frame, exec_htCount_frame, exec_htRdslot_frame⟩

/-! ### PC commands -/

/-- R181, R240: a command that computes on the symbols writes the fault only, if anything, or runs on an admissible number of them. -/
theorem exec_computing_cases {i : Instr} {s t : State} (h : exec i s = .next t) (hu : i.unit = .pc) (hi : i ≠ .pcClrflt) :
    (∃ f c, t = { s with pc := { s.pc with faulted := f, faultCode := c } }) ∨
      (s.admits i = true ∧ s.pc.symbolCount ≤ Config.maxSyms) := by
  cases ha : s.admits i with
  | false =>
    rw [exec_of_not_admits ha] at h
    injection h with h
    exact .inl ⟨s.pc.faulted, s.pc.faultCode, h.symm⟩
  | true =>
    rcases Nat.lt_or_ge Config.maxSyms s.pc.symbolCount with hN | hN
    · have idle := (State.admits_iff.1 ha).1
      rw [hu] at idle
      rw [exec_tooManySymbols hu hi ha hN, State.raise_pc_idle idle] at h
      injection h with h
      exact .inl ⟨_, _, h.symm⟩
    · exact .inr ⟨rfl, hN⟩

/-- Writes below `n` leave the entries from `n` on. -/
theorem Sparse.find_insertAll_of_below {α : Type} {n : Nat} {kvs : List (Nat × α)} (h : Sparse.below n kvs)
    (m : List (Nat × α)) {i : Nat} (hi : n ≤ i) : Sparse.find (Sparse.insertAll m kvs) i = Sparse.find m i := by
  refine Sparse.find_insertAll_of_notMem _ _ fun hm => ?_
  obtain ⟨e, he, rfl⟩ := List.mem_map.1 hm
  exact Nat.not_lt.2 hi (h e he)

/-- R184, R185: PC.SORT writes PC_RESULT, the fault and the sorted SYM entries. -/
theorem exec_pcSort_frame {s t : State} (h : exec .pcSort s = .next t) :
    t = { s with pc := { s.pc with
      result := t.pc.result, faulted := t.pc.faulted, faultCode := t.pc.faultCode, sym := t.pc.sym } } ∧
    ∀ i, s.pc.numsyms.toNat ≤ i → t.symAt i = s.symAt i := by
  rcases exec_computing_cases h rfl nofun with ⟨f, c, rfl⟩ | ⟨ha, hN⟩
  · exact ⟨rfl, fun _ _ => rfl⟩
  rw [exec, execPcSort_of_admits ha hN] at h
  injection h with h
  subst h
  refine ⟨rfl, fun i hi => congrArg (Option.getD · _) (Sparse.find_insertAll_of_below (fun e he => ?_) _ hi)⟩
  exact List.mem_range.1 (List.of_mem_zip (a := e.1) (b := e.2) he).1

/-- R184, R190, R192: PC.GENCODES writes PC_RESULT, the fault and the CODE entries of the symbols. -/
theorem exec_pcGencodes_frame {s t : State} (h : exec .pcGencodes s = .next t) :
    t = { s with pc := { s.pc with
      result := t.pc.result, faulted := t.pc.faulted, faultCode := t.pc.faultCode, code := t.pc.code } } ∧
    ∀ i, s.pc.numsyms.toNat ≤ i → t.codeAt i = s.codeAt i := by
  rcases exec_computing_cases h rfl nofun with ⟨f, c, rfl⟩ | ⟨ha, hN⟩
  · exact ⟨rfl, fun _ _ => rfl⟩
  rw [exec, execPcGencodes_of_admits ha hN] at h
  split at h
  · injection h with h; subst h; exact ⟨rfl, fun _ _ => rfl⟩
  split at h
  · injection h with h; subst h; exact ⟨rfl, fun _ _ => rfl⟩
  injection h with h
  subst h
  refine ⟨rfl, fun i hi => congrArg (Option.getD · _) (Sparse.find_insertAll_of_below (fun e he => ?_) _ hi)⟩
  obtain ⟨k, hk, rfl⟩ := List.mem_map.1 he
  exact List.mem_range.1 hk

/-- R200, R207: PC.LIMIT gives a new length to a used symbol only. -/
theorem limitLengths_index_used {M : Nat} {used news : List (Nat × Nat)} (h : limitLengths M used = some news)
    {x : Nat × Nat} (hx : x ∈ news) : x.1 ∈ used.map (·.2) := by
  unfold limitLengths at h
  dsimp only at h
  split at h
  · cases h
  split at h
  · cases h
  split at h
  · cases h
  obtain ⟨lens, -, rfl⟩ := Option.map_eq_some_iff.1 h
  have sorted := (List.of_mem_zip (a := x.1) (b := x.2) hx).1
  exact ((sortBy_perm symbolLe used).map (·.2)).mem_iff.1 sorted

/-- R190, R207: a symbol from PC_NUMSYMS on and a symbol of length 0 get no new length. -/
theorem limitLengths_index_ne {s : State} {M N : Nat} {news : List (Nat × Nat)}
    (h : limitLengths M (s.usedSymbols N) = some news) {i : Nat} (unused : N ≤ i ∨ s.sizeAt i = 0) {x : Nat × Nat}
    (hx : x ∈ news) : x.1 ≠ i := by
  rintro rfl
  obtain ⟨y, hy, hyx⟩ := List.mem_map.1 (limitLengths_index_used h hx)
  obtain ⟨below, length, nonzero⟩ := State.mem_usedSymbols.1 hy
  rw [hyx] at below length
  rcases unused with above | zero
  · exact Nat.not_lt.2 above below
  · exact nonzero (by rw [length, zero]; rfl)

/-- R184, R207: PC.LIMIT writes PC_RESULT, the fault and the SIZE entries of the used symbols. -/
theorem exec_pcLimit_frame {s t : State} (h : exec .pcLimit s = .next t) :
    t = { s with pc := { s.pc with
      result := t.pc.result, faulted := t.pc.faulted, faultCode := t.pc.faultCode, size := t.pc.size } } ∧
    ∀ i, s.pc.numsyms.toNat ≤ i ∨ s.sizeAt i = 0 → t.sizeAt i = s.sizeAt i := by
  rcases exec_computing_cases h rfl nofun with ⟨f, c, rfl⟩ | ⟨ha, hN⟩
  · exact ⟨rfl, fun _ _ => rfl⟩
  rw [exec, execPcLimit_of_admits ha hN] at h
  split at h
  · injection h with h; subst h; exact ⟨rfl, fun _ _ => rfl⟩
  next news hnews =>
  injection h with h
  subst h
  refine ⟨rfl, fun i unused => congrArg (Option.getD · _) (Sparse.find_insertAll_of_notMem _ _ fun hm => ?_)⟩
  simp only [List.map_map, List.mem_map] at hm
  obtain ⟨x, hx, hxi⟩ := hm
  exact limitLengths_index_ne hnews unused hx hxi

/-- R210: PC.CLRFLT writes the fault only. -/
theorem exec_pcClrflt_frame {s t : State} (h : exec .pcClrflt s = .next t) :
    t = { s with pc := { s.pc with faulted := t.pc.faulted, faultCode := t.pc.faultCode } } := by
  cases ha : s.admits .pcClrflt with
  | false => rw [exec_of_not_admits ha] at h; injection h with h; subst h; rfl
  | true => rw [exec, execPcClrflt_of_admits ha] at h; injection h with h; subst h; rfl

/-- Settles O28, command by command. -/
theorem pcCommandFrames : Obligations.PcCommandFrames := by
  unfold Obligations.PcCommandFrames
  exact fun s t => ⟨exec_pcSort_frame, exec_pcGencodes_frame, exec_pcLimit_frame, exec_pcClrflt_frame⟩

end Sys2Proof.Machine


/-! PROOFS. HT.INIT, HT.COUNT and HT.RDSLOT (40_hash_table.md R130-R134, R155-R159; O12, O13, O23, O25, O26), HT.GET's checks (R136, R137;
O14), and the faults of every command (60_exceptions.md R232; O10). -/

namespace Sys2Proof.Machine

/-! ### HT.INIT -/

/-- R240: an idle HT unit admits HT.INIT, faulted or not. -/
theorem State.admits_htInit {s : State} (idle : s.ht.busy = false) : s.admits .htInit = true :=
  State.admits_iff.2 ⟨idle, .inr rfl⟩

/-- Settles O12: an operand in range passes the check, and the slot store is then the empty list. -/
theorem initMakesAnEmptyTable : Obligations.InitMakesAnEmptyTable := by
  unfold Obligations.InitMakesAnEmptyTable
  intro s idle pos le
  have inRange : ¬ (s.ht.initOperand < 1 ∨ s.params.maxLoglen < s.ht.initOperand) := by
    unfold HtUnit.initOperand; omega
  refine ⟨_, ?_, fun p _ => slotAt_nil p, rfl⟩
  rw [exec, execHtInit_of_admits (State.admits_htInit idle), if_neg inRange]
  rfl

/-- Settles O13: an operand out of range fails the check, and the fault is raised in an idle unit. -/
theorem initOutOfRangeFaults : Obligations.InitOutOfRangeFaults := by
  unfold Obligations.InitOutOfRangeFaults
  intro s idle out
  have outOfRange : s.ht.initOperand < 1 ∨ s.params.maxLoglen < s.ht.initOperand := by
    unfold HtUnit.initOperand; omega
  rw [exec, execHtInit_of_admits (State.admits_htInit idle), if_pos outOfRange, State.raise_ht_idle idle]
  rfl

/-! ### HT.COUNT and HT.RDSLOT -/

/-- Settles O23: in a canonical store the occupied slots that are listed are those a scan finds. -/
theorem countScansTheTable : Obligations.CountScansTheTable := by
  unfold Obligations.CountScansTheTable
  intro s hr wf
  rw [exec, execHtCount_of_admits (hr.admits rfl), occupied_eq_countP_range wf]

/-- Settles O25: an index below the capacity passes the check. -/
theorem rdslotReadsTheSlot : Obligations.RdslotReadsTheSlot := by
  unfold Obligations.RdslotReadsTheSlot
  intro s hr inRange
  have accepted : ¬ 2 ^ s.ht.loglen ≤ s.ht.slotOperand := Nat.not_le.2 inRange
  rw [exec, execHtRdslot_of_admits (hr.admits rfl), if_neg accepted]
  rfl

/-- Settles O26: an index from the capacity on fails the check, and the fault is raised in an idle unit. -/
theorem rdslotOutOfRangeFaults : Obligations.RdslotOutOfRangeFaults := by
  unfold Obligations.RdslotOutOfRangeFaults
  intro s hr out
  have refused : 2 ^ s.ht.loglen ≤ s.ht.slotOperand := out
  rw [exec, execHtRdslot_of_admits (hr.admits rfl), if_pos refused, State.raise_ht_idle hr.not_busy]
  rfl

/-! ### HT.GET's checks -/

theorem HtUnit.lenTooShort_iff {h : HtUnit} : h.lenTooShort = true ↔ h.len.toNat < 4 := decide_eq_true_iff

theorem HtUnit.candOutOfRange_iff {h : HtUnit} : h.candOutOfRange = true ↔ h.srcLen.toNat < h.candOff.toNat + h.len.toNat :=
  decide_eq_true_iff

theorem HtUnit.zeroHashRefused_iff {h : HtUnit} : h.zeroHashRefused = true ↔ h.hash = 0 ∧ h.zhPolicy = false := by
  simp [HtUnit.zeroHashRefused]

/-- Settles O14: the first check that fails raises its fault in an idle unit. -/
theorem getContractViolationsFault : Obligations.GetContractViolationsFault := by
  unfold Obligations.GetContractViolationsFault
  intro s hr
  rw [exec, execHtGet_of_admits (hr.admits rfl)]
  simp only [HtUnit.lenTooShort_iff, HtUnit.candOutOfRange_iff, HtUnit.zeroHashRefused_iff]
  refine ⟨fun short => ?_, fun long out => ?_, fun long inRange zero refused => ?_⟩
  · rw [if_pos short, State.raise_ht_idle hr.not_busy]; rfl
  · rw [if_neg (Nat.not_lt.2 long), if_pos out, State.raise_ht_idle hr.not_busy]; rfl
  · rw [if_neg (Nat.not_lt.2 long), if_neg (Nat.not_lt.2 inRange), if_pos ⟨zero, refused⟩, State.raise_ht_idle hr.not_busy]; rfl

/-! ### The faults of every command -/

/-- R148: the keycount step raises CAPACITY, if any fault. -/
theorem State.countInsertion_faulted {s t : State} (h : s.countInsertion = .next t) (before : s.ht.faulted = false)
    (after : t.ht.faulted = true) : t.ht.faultCode = 0x5#4 := by
  unfold State.countInsertion at h
  dsimp only at h
  split at h
  · split at h
    · injection h with h; subst h; rfl
    · split at h
      · cases h
      · injection h with h; subst h; exact absurd (before.symm.trans after) Bool.false_ne_true
  · injection h with h; subst h; exact absurd (before.symm.trans after) Bool.false_ne_true

/-- R145, R148: after its probe HT.GET raises CAPACITY, if any fault. -/
theorem State.finishGet_faulted {s t : State} {r : Probed} (h : s.finishGet r = .next t) (before : s.ht.faulted = false)
    (after : t.ht.faulted = true) : t.ht.faultCode = 0x5#4 := by
  unfold State.finishGet at h
  dsimp only at h
  split at h
  · injection h with h; subst h; exact absurd (before.symm.trans after) Bool.false_ne_true
  · exact State.countInsertion_faulted h before after

/-- R232: a fault that an HT command raises is precise but for HT.GET's CAPACITY. -/
theorem exec_ht_fault {i : Instr} {s t : State} (hu : i.unit = .ht) (ha : s.admits i = true) (h : exec i s = .next t)
    (before : s.ht.faulted = false) (after : t.ht.faulted = true) :
    (i = .htGet ∧ t.ht.faultCode = 0x5#4) ∨ ∃ c, t = s.raise .ht c := by
  have unchanged : s.ht.faulted ≠ true := by rw [before]; exact Bool.false_ne_true
  cases i with
  | htInit =>
    rw [exec, execHtInit_of_admits ha] at h
    split at h
    · injection h with h; exact .inr ⟨_, h.symm⟩
    · injection h with h; subst h; cases after
  | htGet =>
    rcases exec_htGet_next_cases ha h with raised | ⟨-, r, -, hf⟩
    · exact .inr raised
    · exact .inl ⟨rfl, State.finishGet_faulted hf before after⟩
  | htCount => rw [exec_htCount_frame h] at after; exact absurd after unchanged
  | htRdslot =>
    rw [exec, execHtRdslot_of_admits ha] at h
    split at h
    · injection h with h; exact .inr ⟨_, h.symm⟩
    · injection h with h; subst h; exact absurd after unchanged
  | pcSort | pcGencodes | pcLimit | pcClrflt => cases hu

/-- R181, R232: the one fault that a PC command raises is NUMSYMS_RANGE, and it is precise. -/
theorem exec_pc_fault {i : Instr} {s t : State} (hu : i.unit = .pc) (ha : s.admits i = true) (h : exec i s = .next t)
    (before : s.pc.faulted = false) (after : t.pc.faulted = true) : t = s.raise .pc .numsymsRange := by
  have unchanged : s.pc.faulted ≠ true := by rw [before]; exact Bool.false_ne_true
  rcases Nat.lt_or_ge Config.maxSyms s.pc.symbolCount with hN | hN
  · have hi : i ≠ .pcClrflt := by
      rintro rfl
      rw [exec, execPcClrflt_of_admits ha] at h
      injection h with h; subst h; cases after
    rw [exec_tooManySymbols hu hi ha hN] at h
    injection h with h; exact h.symm
  · refine absurd after ?_
    cases i with
    | pcSort => rw [exec, execPcSort_of_admits ha hN] at h; injection h with h; subst h; exact unchanged
    | pcGencodes =>
      rw [exec, execPcGencodes_of_admits ha hN] at h
      split at h
      · injection h with h; subst h; exact unchanged
      · split at h <;> (injection h with h; subst h; exact unchanged)
    | pcLimit =>
      rw [exec, execPcLimit_of_admits ha hN] at h
      split at h <;> (injection h with h; subst h; exact unchanged)
    | pcClrflt => rw [exec, execPcClrflt_of_admits ha] at h; injection h with h; subst h; exact Bool.false_ne_true
    | htInit | htGet | htCount | htRdslot => cases hu

/-- Settles O10, unit by unit: a command that is not admitted raises nothing. -/
theorem faultsArePrecise : Obligations.FaultsArePrecise := by
  unfold Obligations.FaultsArePrecise
  intro i s t h before after
  cases ha : s.admits i with
  | false =>
    rw [exec_of_not_admits ha] at h
    injection h with h; subst h
    exact absurd (before.symm.trans after) Bool.false_ne_true
  | true =>
    cases hu : i.unit with
    | ht =>
      rw [hu] at before after
      rcases exec_ht_fault hu ha h before after with ⟨get, code⟩ | ⟨c, raised⟩
      · exact ⟨.capacity, .inl ⟨rfl, get, code⟩⟩
      · exact ⟨c, .inr raised⟩
    | pc =>
      rw [hu] at before after
      exact ⟨.numsymsRange, .inr (exec_pc_fault hu ha h before after)⟩

end Sys2Proof.Machine


/-! PROOFS. HT.GET with its contract met (40_hash_table.md R138-R160; O15-O20): what it answers, which entries the table holds after it,
and which stored copies it finds. -/

namespace Sys2Proof.Machine

/-! ### The home slot -/

/-- R138: the home slot is the high `L` bits of the hash. -/
theorem homeSlot_eq_div (L : Nat) (x : Word) : homeSlot L x = x.toNat / 2 ^ (32 - L) := by
  rw [homeSlot, BitVec.toNat_ushiftRight, Nat.shiftRight_eq_div_pow]

/-- R139: a probe whose home slot is empty puts its entry there, at its first visit. -/
theorem probe_of_home_empty {L : Nat} (hit : Nat → Slot → Bool) {slots : List (Nat × Slot)} {e : Slot} (cand : Bool)
    (empty : (slotAt slots (homeSlot L e.hash)).hash = 0) :
    probe L hit slots e cand = some { slots := putSlot slots (homeSlot L e.hash) e, existed := false, offset := e.offset } := by
  obtain ⟨fuel, hfuel⟩ := Nat.exists_eq_succ_of_ne_zero (two_pow_pos L).ne'
  rw [probe, hfuel, probeLoop, if_pos empty]

/-- R142: the slot that a match names has the candidate's hash, which is then not 0. -/
theorem State.probeCandidate_found {s : State} (hL : s.ht.loglen ≤ 32) {r : Probed} (hp : s.probeCandidate = some r)
    (found : r.existed = true) :
    ∃ q < 2 ^ s.ht.loglen, ∃ v, (slotAt s.ht.slots q).hash ≠ 0 ∧ (slotAt s.ht.slots q).hash = s.ht.hash ∧
      s.bytesMatch s.freeCount v (slotAt s.ht.slots q).offset s.ht.candOff s.ht.len = true ∧
      r.offset = (slotAt s.ht.slots q).offset := by
  rcases probe_cases hL hp with ⟨-, -, -, slot⟩ | ⟨inserted, -⟩
  · exact slot
  · rw [inserted] at found; cases found

/-- R138, R139: an empty home slot decides HT.GET's probe, which puts the candidate there and changes no other slot. -/
theorem State.probeCandidate_of_home_empty {s : State} {r : Probed} (hp : s.probeCandidate = some r)
    (empty : (slotAt s.ht.slots (homeSlot s.ht.loglen s.ht.hash)).hash = 0) :
    r.existed = false ∧ ∀ i, slotAt r.slots i =
      if i = homeSlot s.ht.loglen s.ht.hash then s.ht.candidate else slotAt s.ht.slots i := by
  have first := hp.symm.trans (probe_of_home_empty _ true empty)
  injection first with first
  subst first
  exact ⟨rfl, slotAt_putSlot _ _ _⟩

/-- Settles O15, by the four outcomes of HT.GET; only those without a resize have anything to say of an empty home slot. -/
theorem getCompletes : Obligations.GetCompletes := by
  unfold Obligations.GetCompletes
  intro s hi hr hg
  obtain ⟨r, hp, outcome⟩ := exec_htGet_cases hi hr hg
  have home := State.probeCandidate_of_home_empty hp
  rw [← homeSlot_eq_div]
  rcases outcome with ⟨found, he⟩ | ⟨-, room, he⟩ | ⟨-, full, largest, he⟩ | ⟨-, full, smaller, slots', -, he⟩
  · obtain ⟨q, hq, _, occ, hash, -, off⟩ := State.probeCandidate_found (hi.ht_inv.loglen_le_32 hi.params_wf) hp found
    refine ⟨_, he, .inl ⟨rfl, ⟨q, hq, occ, hash, off⟩, rfl⟩, fun empty _ => ?_⟩
    exact absurd ((home empty).1.symm.trans found) Bool.false_ne_true
  · exact ⟨_, he, .inr ⟨rfl, rfl, rfl, fun _ => ⟨rfl, hr.not_faulted⟩, fun _ => by omega, fun _ => by omega⟩,
      fun empty _ => ⟨rfl, (home empty).2⟩⟩
  · exact ⟨_, he, .inr ⟨rfl, rfl, rfl, fun _ => by omega, fun _ _ => by omega, fun _ _ => ⟨rfl, rfl, rfl⟩⟩,
      fun empty _ => ⟨rfl, (home empty).2⟩⟩
  · exact ⟨_, he, .inr ⟨rfl, rfl, rfl, fun _ => by omega, fun _ _ => ⟨rfl, hr.not_faulted⟩, fun _ _ => by omega⟩,
      fun _ _ => by omega⟩

/-! ### The entries the table holds -/

/-- R145, R147, R148: an HT.GET that inserts adds its candidate to any kind of occupied slot, through a resize too; a match adds
nothing. -/
theorem exec_htGet_slotCount {s t : State} (hi : s.Inv) (hr : s.Ready .ht) (hg : s.ht.GetAllowed) (h : exec .htGet s = .next t)
    {P : Slot → Bool} (hP : ∀ x : Slot, x.hash = 0 → P x = false) :
    slotCount t.ht.loglen P t.ht.slots =
      slotCount s.ht.loglen P s.ht.slots + if t.ht.existed = false then (P s.ht.candidate).toNat else 0 := by
  have hL := hi.ht_inv.loglen_le_32 hi.params_wf
  obtain ⟨r, hp, outcome⟩ := exec_htGet_cases hi hr hg
  rcases outcome with ⟨-, he⟩ | ⟨inserted, -, he⟩ | ⟨inserted, -, -, he⟩ | ⟨inserted, -, smaller, slots', doubled, he⟩ <;>
    (rw [he] at h; injection h with h; subst h)
  · rfl
  · exact probe_slotCount hL hP hp inserted
  · exact probe_slotCount hL hP hp inserted
  · obtain ⟨-, same⟩ := resize_spec (hi.loglen_lt smaller) (probe_wf hL hi.ht_inv.slots_wf hp) doubled
    exact (same P hP).trans (probe_slotCount hL hP hp inserted)

/-- Settles O16: the slots that hold exactly one entry are counted like any kind of occupied slot. -/
theorem getKeepsEveryStoredEntry : Obligations.GetKeepsEveryStoredEntry := by
  unfold Obligations.GetKeepsEveryStoredEntry
  intro s t e hi hr hg h he
  have isEntry : ∀ x : Slot, x.hash = 0 → decide (x = e) = false := fun x hx =>
    decide_eq_false fun hxe => he (hxe ▸ hx)
  have count : t.ht.copies e = s.ht.copies e + if t.ht.existed = false then (decide (s.ht.candidate = e)).toNat else 0 :=
    exec_htGet_slotCount hi hr hg h isEntry
  rw [count]
  by_cases hc : s.ht.candidate = e
  · simp [hc, show e = ⟨s.ht.hash, s.ht.candOff, s.ht.len⟩ from hc.symm]
  · simp [hc, show e ≠ ⟨s.ht.hash, s.ht.candOff, s.ht.len⟩ from Ne.symm hc]

/-- Settles O20: no stored entry matches a hash of 0, and the candidate is no occupied slot. -/
theorem getOfZeroHashIsDropped : Obligations.GetOfZeroHashIsDropped := by
  unfold Obligations.GetOfZeroHashIsDropped
  intro s hi hr hg zero
  obtain ⟨t, ht, outcome, -⟩ := getCompletes s hi hr hg
  obtain ⟨-, ⟨i, -, occ, hash, -⟩, -⟩ | ⟨inserted, off, counted, -⟩ := outcome
  · exact absurd (hash.trans zero) occ
  refine ⟨t, ht, inserted, off, counted, ?_⟩
  have count := exec_htGet_slotCount (P := isOccupied) hi hr hg ht fun x hx => by rw [isOccupied, hx]; rfl
  have empty : isOccupied s.ht.candidate = false := by rw [isOccupied, HtUnit.candidate, zero]; rfl
  rw [occupied_eq_slotCount (hi.of_exec ht).ht_inv.slots_wf, occupied_eq_slotCount hi.ht_inv.slots_wf, count, empty]
  simp

/-! ### The comparison -/

/-- R142: a stored copy with the candidate's bytes matches, whatever is drawn for bytes that are not settled. -/
theorem State.bytesMatch_of_storedCopy {s : State} {o : Word} (stored : s.storedCopy o) (draw visit : Nat) :
    s.bytesMatch draw visit o s.ht.candOff s.ht.len = true := by
  obtain ⟨below, same⟩ := stored
  unfold State.bytesMatch
  rw [if_neg (Nat.not_lt.2 below), List.all_eq_true]
  intro k hk
  obtain ⟨b, copy, cand⟩ := same k (List.mem_range.1 hk)
  rw [Source.byte, Source.byte, copy, cand]
  exact beq_self_eq_true b

/-- R142, R143: over settled bytes only a stored copy with the candidate's bytes, within HT_SRC_LEN, matches. -/
theorem State.storedCopy_of_bytesMatch {s : State} (hs : s.sourceSettled) (hg : s.ht.GetAllowed) {draw visit : Nat} {o : Word}
    (hit : s.bytesMatch draw visit o s.ht.candOff s.ht.len = true) : s.storedCopy o := by
  unfold State.bytesMatch at hit
  split at hit
  next => cases hit
  next below =>
  refine ⟨Nat.not_lt.1 below, fun k hk => ?_⟩
  have inRange := hg.in_range
  obtain ⟨b, copy⟩ := Option.isSome_iff_exists.1 (hs (o.toNat + k) (by omega))
  obtain ⟨c, cand⟩ := Option.isSome_iff_exists.1 (hs (s.ht.candOff.toNat + k) (by omega))
  have equal := List.all_eq_true.1 hit k (List.mem_range.2 hk)
  rw [Source.byte, Source.byte, copy, cand] at equal
  obtain rfl : b = c := eq_of_beq equal
  exact ⟨b, copy, cand⟩

/-- R142: over settled bytes a comparison does not depend on what is drawn. -/
theorem State.bytesMatch_iff {s : State} (hs : s.sourceSettled) (hg : s.ht.GetAllowed) {draw visit : Nat} {o : Word} :
    s.bytesMatch draw visit o s.ht.candOff s.ht.len = true ↔ s.storedCopy o :=
  ⟨State.storedCopy_of_bytesMatch hs hg, fun stored => State.bytesMatch_of_storedCopy stored _ _⟩

/-- R154 (a): the candidate's own bytes are those of a copy stored at its offset. -/
theorem State.storedCopy_candidate {s : State} (hs : s.sourceSettled) (hg : s.ht.GetAllowed) : s.storedCopy s.ht.candOff := by
  refine ⟨hg.in_range, fun k hk => ?_⟩
  have inRange := hg.in_range
  obtain ⟨b, hb⟩ := Option.isSome_iff_exists.1 (hs (s.ht.candOff.toNat + k) (by omega))
  exact ⟨b, hb, hb⟩

/-! ### What HT.GET finds -/

/-- R145: an HT.GET whose probe finds a match. -/
theorem exec_htGet_found {s : State} (hi : s.Inv) (hr : s.Ready .ht) (hg : s.ht.GetAllowed) {r : Probed}
    (hp : s.probeCandidate = some r) (found : r.existed = true) :
    exec .htGet s = .next { s with
      ht := { s.ht with existed := true, resOff := r.offset }
      freeCount := s.freeCount + 1 } := by
  obtain ⟨r', hp', outcome⟩ := exec_htGet_cases hi hr hg
  obtain rfl : r = r' := Option.some.inj (hp.symm.trans hp')
  rcases outcome with ⟨-, he⟩ | ⟨inserted, -⟩ | ⟨inserted, -⟩ | ⟨inserted, -⟩
  · exact he
  all_goals rw [inserted] at found; cases found

/-- R145, R151: an HT.GET that answers EXISTED 1 is one whose probe found a match. -/
theorem exec_htGet_existed {s t : State} (hi : s.Inv) (hr : s.Ready .ht) (hg : s.ht.GetAllowed) (h : exec .htGet s = .next t)
    (existed : t.ht.existed = true) :
    ∃ r, s.probeCandidate = some r ∧ r.existed = true ∧ t = { s with
      ht := { s.ht with existed := true, resOff := r.offset }
      freeCount := s.freeCount + 1 } := by
  obtain ⟨r, hp, outcome⟩ := exec_htGet_cases hi hr hg
  rcases outcome with ⟨found, he⟩ | ⟨-, -, he⟩ | ⟨-, -, -, he⟩ | ⟨-, -, -, _, -, he⟩ <;>
    (rw [he] at h; injection h with h; subst h)
  · exact ⟨r, hp, found, rfl⟩
  all_goals cases existed

/-- Settles O17: the stored copy matches at every visit, so the probe of an ordered table ends at a match. -/
theorem getFindsAStoredCopy : Obligations.GetFindsAStoredCopy := by
  unfold Obligations.GetFindsAStoredCopy
  intro s i hi hO hr hg bound nonzero hash stored
  have hL := hi.ht_inv.loglen_le_32 hi.params_wf
  have occ : occupiedAt s.ht.slots i := fun empty => nonzero (hash.symm.trans empty)
  obtain ⟨r, hp, found⟩ : ∃ r, s.probeCandidate = some r ∧ r.existed = true :=
    probe_finds hL hO.robin_hood bound occ hash (State.bytesMatch_of_storedCopy stored s.freeCount)
  obtain ⟨j, hj, _, -, hash', -, off⟩ := State.probeCandidate_found hL hp found
  exact ⟨_, j, exec_htGet_found hi hr hg hp found, hj, hash', by rw [off]⟩

/-- Settles O18: the slot that the probe ended at matched, over settled bytes. -/
theorem getMatchesOnlyEqualBytes : Obligations.GetMatchesOnlyEqualBytes := by
  unfold Obligations.GetMatchesOnlyEqualBytes
  intro s t hi hr hg hs h existed
  obtain ⟨r, hp, found, rfl⟩ := exec_htGet_existed hi hr hg h existed
  obtain ⟨q, -, _, -, -, hit, off⟩ := State.probeCandidate_found (hi.ht_inv.loglen_le_32 hi.params_wf) hp found
  show s.storedCopy r.offset
  rw [off]
  exact State.storedCopy_of_bytesMatch hs hg hit

/-! ### The same HT.GET again -/

/-- R234: an HT.GET keeps its operands and the source buffer, so the contract of the next one is met. -/
theorem exec_htGet_getAllowed {s t : State} (hg : s.ht.GetAllowed) (h : exec .htGet s = .next t) : t.ht.GetAllowed := by
  rw [exec_htGet_frame h]
  exact { hg with }

theorem exec_htGet_ready {s t : State} (hr : s.Ready .ht) (h : exec .htGet s = .next t) (unfaulted : t.ht.faulted = false) :
    t.Ready .ht := by
  rw [exec_htGet_frame h]
  exact ⟨hr.not_busy, unfaulted⟩

theorem exec_htGet_sourceSettled {s t : State} (hs : s.sourceSettled) (h : exec .htGet s = .next t) : t.sourceSettled := by
  rw [exec_htGet_frame h]
  exact hs

/-- R234: after an HT.GET the same offsets hold the candidate's bytes as before. -/
theorem exec_htGet_storedCopy {s t : State} (h : exec .htGet s = .next t) {o : Word} : t.storedCopy o ↔ s.storedCopy o := by
  rw [exec_htGet_frame h]
  exact Iff.rfl

theorem exec_htGet_candidate {s t : State} (h : exec .htGet s = .next t) : t.ht.candidate = s.ht.candidate := by
  rw [exec_htGet_frame h]
  rfl

/-- An entry is stored when some slot holds it. -/
theorem HtUnit.stores_iff_copies {h : HtUnit} {e : Slot} : h.stores e ↔ 0 < h.copies e := by
  unfold HtUnit.stores HtUnit.copies
  rw [List.countP_pos_iff]
  simp only [List.mem_range, decide_eq_true_eq]

/-- R160 (b): an HT.GET that inserts stores its candidate and keeps what was stored, nothing more. -/
theorem exec_htGet_stores {s t : State} (hi : s.Inv) (hr : s.Ready .ht) (hg : s.ht.GetAllowed) (h : exec .htGet s = .next t)
    (inserted : t.ht.existed = false) {e : Slot} (he : e.hash ≠ 0) :
    t.ht.stores e ↔ s.ht.stores e ∨ e = s.ht.candidate := by
  rw [HtUnit.stores_iff_copies, HtUnit.stores_iff_copies, getKeepsEveryStoredEntry s t e hi hr hg h he]
  by_cases hc : e = s.ht.candidate
  · rw [if_pos ⟨inserted, hc⟩]; exact iff_of_true (Nat.succ_pos _) (.inr hc)
  · rw [if_neg fun both => hc both.2, Nat.add_zero, or_iff_left hc]

/-- R154 (a): over settled bytes, the results of an earlier HT.GET and the free values it drew do not change a probe. -/
theorem State.probeCandidate_again {s : State} (hs : s.sourceSettled) (hg : s.ht.GetAllowed) (x : Bool) (off : Word) (n : Nat) :
    State.probeCandidate { s with ht := { s.ht with existed := x, resOff := off }, freeCount := n } = s.probeCandidate := by
  unfold State.probeCandidate
  have same : (fun (visit : Nat) (t : Slot) =>
        State.bytesMatch { s with ht := { s.ht with existed := x, resOff := off }, freeCount := n } n visit t.offset
          s.ht.candOff s.ht.len) =
      fun visit t => s.bytesMatch s.freeCount visit t.offset s.ht.candOff s.ht.len := by
    funext visit t
    rw [Bool.eq_iff_iff, State.bytesMatch_iff hs hg]
    exact State.bytesMatch_iff (s := s) hs hg
  exact congrArg (fun hit => probe s.ht.loglen hit s.ht.slots s.ht.candidate true) same

/-- R145: the HT.GET after one that found a copy finds it again. -/
theorem exec_htGet_again_of_found {s t : State} (hi : s.Inv) (hr : s.Ready .ht) (hg : s.ht.GetAllowed) (hs : s.sourceSettled)
    (h : exec .htGet s = .next t) (hrt : t.Ready .ht) (existed : t.ht.existed = true) :
    ∃ t', exec .htGet t = .next t' ∧ t'.ht.existed = true ∧ t'.ht.resOff = t.ht.resOff ∧ t'.ht.slots = t.ht.slots := by
  have inv := hi.of_exec h
  obtain ⟨r, hp, found, rfl⟩ := exec_htGet_existed hi hr hg h existed
  have again := (State.probeCandidate_again hs hg true r.offset (s.freeCount + 1)).trans hp
  exact ⟨_, exec_htGet_found inv hrt { hg with } again found, rfl, rfl, rfl⟩

/-- R160 (a): in an ordered table an HT.GET that inserts had no stored entry with its candidate's hash and bytes. -/
theorem not_storedCopy_of_inserted {s t : State} (hi : s.Inv) (hO : s.ht.Ordered) (hr : s.Ready .ht) (hg : s.ht.GetAllowed)
    (nonzero : s.ht.hash ≠ 0) (h : exec .htGet s = .next t) (inserted : t.ht.existed = false) {e : Slot} (stored : s.ht.stores e)
    (hash : e.hash = s.ht.hash) : ¬ s.storedCopy e.offset := by
  intro copy
  obtain ⟨i, bound, rfl⟩ := stored
  obtain ⟨t', _, h', -, -, result⟩ := getFindsAStoredCopy s i hi hO hr hg bound nonzero hash copy
  obtain rfl : t' = t := Host.Outcome.next.inj (h'.symm.trans h)
  rw [result] at inserted
  cases inserted

/-- R145, R160: the HT.GET after one that inserted finds what that one inserted: nothing that was stored before matches. -/
theorem exec_htGet_again_of_inserted {s t : State} (hi : s.Inv) (hO : s.ht.Ordered) (hr : s.Ready .ht) (hg : s.ht.GetAllowed)
    (nonzero : s.ht.hash ≠ 0) (hs : s.sourceSettled) (h : exec .htGet s = .next t) (hrt : t.Ready .ht)
    (inserted : t.ht.existed = false) (off : t.ht.resOff = s.ht.candOff) :
    ∃ t', exec .htGet t = .next t' ∧ t'.ht.existed = true ∧ t'.ht.resOff = t.ht.resOff ∧ t'.ht.slots = t.ht.slots := by
  have inv := hi.of_exec h
  have ordered := s.exec_htGet_ordered hi.units hO (hr.admits rfl) (fun _ => nonzero) h
  have allowed := exec_htGet_getAllowed hg h
  have sameHash : t.ht.hash = s.ht.hash := congrArg Slot.hash (exec_htGet_candidate h)
  have stores {e : Slot} (he : e.hash = s.ht.hash) : t.ht.stores e ↔ s.ht.stores e ∨ e = s.ht.candidate :=
    exec_htGet_stores hi hr hg h inserted (by rw [he]; exact nonzero)
  obtain ⟨i, bound, slot⟩ := (stores rfl).2 (.inr rfl)
  have copy : t.storedCopy (slotAt t.ht.slots i).offset := by
    rw [slot]; exact (exec_htGet_storedCopy h).2 (State.storedCopy_candidate hs hg)
  obtain ⟨t', j, h', bound', hash', result⟩ := getFindsAStoredCopy t i inv ordered hrt allowed bound
    (by rw [sameHash]; exact nonzero) (by rw [slot, sameHash]; rfl) copy
  have existed' : t'.ht.existed = true := by rw [result]
  have resOff' : t'.ht.resOff = (slotAt t.ht.slots j).offset := by rw [result]
  have copy' := getMatchesOnlyEqualBytes t t' inv hrt allowed (exec_htGet_sourceSettled hs h) h' existed'
  rw [exec_htGet_storedCopy h, resOff'] at copy'
  rw [sameHash] at hash'
  refine ⟨t', h', existed', ?_, by rw [result]⟩
  rcases (stores hash').1 ⟨j, bound', rfl⟩ with before | own
  · exact absurd copy' (not_storedCopy_of_inserted hi hO hr hg nonzero h inserted before hash')
  · rw [resOff', own, off]; rfl

/-- Settles O19: the first HT.GET found a copy, or inserted its candidate. -/
theorem repeatedGetReturnsTheSameOffset : Obligations.RepeatedGetReturnsTheSameOffset := by
  unfold Obligations.RepeatedGetReturnsTheSameOffset
  intro s t hi hO hr hg nonzero hs h unfaulted
  have hrt := exec_htGet_ready hr h unfaulted
  obtain ⟨t₁, h₁, outcome, -⟩ := getCompletes s hi hr hg
  obtain rfl : t₁ = t := Host.Outcome.next.inj (h₁.symm.trans h)
  rcases outcome with ⟨existed, -⟩ | ⟨inserted, off, -⟩
  · exact exec_htGet_again_of_found hi hr hg hs h hrt existed
  · exact exec_htGet_again_of_inserted hi hO hr hg nonzero hs h hrt inserted off

end Sys2Proof.Machine


/-! PROOFS. The PC unit's checks (41_prefix_code.md R181, R183, R210; O37, O38, O47) and PC.SORT (R185-R187; O34, O36). -/

namespace Sys2Proof.Machine

/-! ### Faults and failures -/

/-- Settles O37: the count check comes first, and the fault is raised in an idle unit. -/
theorem tooManySymbolsFault : Obligations.TooManySymbolsFault := by
  unfold Obligations.TooManySymbolsFault
  intro i s computing hr hN
  have hu : i.unit = .pc ∧ i ≠ .pcClrflt := by
    rcases computing with rfl | rfl | rfl <;> exact ⟨rfl, nofun⟩
  rw [exec_tooManySymbols hu.1 hu.2 (hr.admits hu.1) hN, State.raise_pc_idle hr.not_busy]
  rfl

/-- Settles O47: an idle unit admits its recovery command, faulted or not. -/
theorem clrfltClearsTheFault : Obligations.ClrfltClearsTheFault := by
  unfold Obligations.ClrfltClearsTheFault
  intro s idle
  have admitted : s.admits .pcClrflt = true := State.admits_iff.2 ⟨idle, .inr rfl⟩
  rw [exec, execPcClrflt_of_admits admitted]
  rfl

/-- R182: a command that has succeeded in an unfaulted unit has neither faulted nor failed. -/
theorem State.finish_one_succeeded {s : State} (unfaulted : s.pc.faulted = false) :
    ¬ ((s.finish 1).pc.faulted = true ∨ (s.finish 1).pc.result = 0) := by
  simp [unfaulted]

/-- Settles O38, command by command: PC.CLRFLT writes no memory at all, and a computing command that writes one succeeds. -/
theorem failingPcCommandWritesNoMemory : Obligations.FailingPcCommandWritesNoMemory := by
  unfold Obligations.FailingPcCommandWritesNoMemory
  intro i s t hu h failed
  by_cases hi : i = .pcClrflt
  · subst hi
    rw [exec_pcClrflt_frame h]
    exact ⟨rfl, rfl, rfl⟩
  rcases exec_computing_cases h hu hi with ⟨f, c, rfl⟩ | ⟨ha, hN⟩
  · exact ⟨rfl, rfl, rfl⟩
  cases i with
  | pcSort =>
    rw [exec, execPcSort_of_admits ha hN] at h
    injection h with h; subst h
    exact absurd failed (State.finish_one_succeeded (State.unfaulted_of_admits ha rfl))
  | pcGencodes =>
    have unfaulted := State.unfaulted_of_admits ha rfl
    rw [exec, execPcGencodes_of_admits ha hN] at h
    split at h
    · injection h with h; subst h; exact ⟨rfl, rfl, rfl⟩
    split at h
    · injection h with h; subst h; exact ⟨rfl, rfl, rfl⟩
    injection h with h; subst h
    exact absurd failed (State.finish_one_succeeded unfaulted)
  | pcLimit =>
    have unfaulted := State.unfaulted_of_admits ha rfl
    rw [exec, execPcLimit_of_admits ha hN] at h
    split at h
    · injection h with h; subst h; exact ⟨rfl, rfl, rfl⟩
    · injection h with h; subst h
      exact absurd failed (State.finish_one_succeeded unfaulted)
  | pcClrflt => exact absurd rfl hi
  | htInit | htGet | htCount | htRdslot => cases hu

/-! ### PC.SORT -/

/-- A run of writes to the entries from 0 on is read back as it was written. -/
theorem Sparse.map_find_insertAll_range {α : Type} (m : List (Nat × α)) (l : List α) (d : Nat → α) :
    ((List.range l.length).map fun i => (Sparse.find (Sparse.insertAll m ((List.range l.length).zip l)) i).getD (d i)) = l := by
  have nodup : (((List.range l.length).zip l).map (·.1)).Nodup := by
    rw [List.map_fst_zip (by simp)]
    exact List.nodup_range
  refine List.ext_getElem (by simp) fun i hi hl => ?_
  have written : (i, l[i]) ∈ (List.range l.length).zip l := List.mem_iff_getElem.2 ⟨i, by simpa using hl, by simp⟩
  rw [List.getElem_map, List.getElem_range, Sparse.find_insertAll_of_mem _ _ nodup written, Option.getD_some]

/-- A run of writes with no index twice, made again, changes nothing. -/
theorem Sparse.insertAll_again {α : Type} {m : List (Nat × α)} (sorted : Sparse.sorted m) {kvs : List (Nat × α)}
    (nodup : (kvs.map (·.1)).Nodup) : Sparse.insertAll (Sparse.insertAll m kvs) kvs = Sparse.insertAll m kvs := by
  have once := Sparse.sorted_insertAll sorted kvs
  refine Sparse.ext_find (Sparse.sorted_insertAll once kvs) once fun k => ?_
  by_cases hk : k ∈ kvs.map (·.1)
  · obtain ⟨e, he, rfl⟩ := List.mem_map.1 hk
    rw [Sparse.find_insertAll_of_mem _ _ nodup he, Sparse.find_insertAll_of_mem _ _ nodup he]
  · exact Sparse.find_insertAll_of_notMem _ _ hk

/-- R185: what PC.SORT writes to SYM. -/
def State.sortWrites (s : State) : List (Nat × Word) :=
  (List.range s.pc.symbolCount).zip (sortBy recordLe (s.symOperands s.pc.symbolCount))

/-- R185: the state with SYM[0..N-1] sorted and PC_RESULT 1. -/
def State.afterSort (s : State) : State :=
  State.finish { s with pc := { s.pc with sym := Sparse.insertAll s.pc.sym s.sortWrites } } 1

theorem exec_pcSort_of_ready {s : State} (hr : s.Ready .pc) (hN : s.pc.numsyms.toNat ≤ 1024) :
    exec .pcSort s = .next s.afterSort := execPcSort_of_admits (hr.admits rfl) hN

theorem State.sortedRecords_length (s : State) (N : Nat) : (sortBy recordLe (s.symOperands N)).length = N := by
  rw [(sortBy_perm recordLe _).length_eq, State.symOperands, List.length_map, List.length_range]

theorem State.sortWrites_nodup (s : State) : (s.sortWrites.map (·.1)).Nodup := by
  rw [State.sortWrites, List.map_fst_zip (by rw [State.sortedRecords_length, List.length_range])]
  exact List.nodup_range

/-- R185: what SYM[0..N-1] holds after PC.SORT. -/
theorem State.symOperands_afterSort (s : State) :
    s.afterSort.symOperands s.pc.symbolCount = sortBy recordLe (s.symOperands s.pc.symbolCount) := by
  have read := Sparse.map_find_insertAll_range s.pc.sym (sortBy recordLe (s.symOperands s.pc.symbolCount)) (Config.resetSym s.era)
  rw [State.sortedRecords_length] at read
  exact read

/-- Settles O34: what PC.SORT leaves is the sorted list. -/
theorem sortOrdersTheRecords : Obligations.SortOrdersTheRecords := by
  unfold Obligations.SortOrdersTheRecords
  intro s hr hN
  refine ⟨s.afterSort, exec_pcSort_of_ready hr hN, rfl, ?_⟩
  change (s.afterSort.symOperands s.pc.symbolCount).Perm (s.symOperands s.pc.symbolCount) ∧
    (s.afterSort.symOperands s.pc.symbolCount).Pairwise _
  rw [State.symOperands_afterSort]
  exact ⟨sortBy_perm recordLe _, (sortBy_recordLe_pairwise _).imp recordLe_iff.1⟩

/-- R187 (b): sorted records are written again where they stand. -/
theorem State.sortWrites_afterSort (s : State) : s.afterSort.sortWrites = s.sortWrites := by
  change (List.range s.pc.symbolCount).zip (sortBy recordLe (s.afterSort.symOperands s.pc.symbolCount)) = s.sortWrites
  rw [State.symOperands_afterSort, sortBy_eq_self (sortBy_recordLe_pairwise _)]
  rfl

theorem State.afterSort_again {s : State} (sorted : Sparse.sorted s.pc.sym) : s.afterSort.afterSort = s.afterSort :=
  calc s.afterSort.afterSort
    _ = State.finish { s with pc := { s.pc with
          sym := Sparse.insertAll (Sparse.insertAll s.pc.sym s.sortWrites) s.afterSort.sortWrites } } 1 := rfl
    _ = s.afterSort := by
          rw [State.sortWrites_afterSort, Sparse.insertAll_again sorted s.sortWrites_nodup]
          rfl

/-- Settles O36: PC.SORT leaves the unit ready, with the same number of symbols. -/
theorem sortIsIdempotent : Obligations.SortIsIdempotent := by
  unfold Obligations.SortIsIdempotent
  intro s t hi hr hN h
  rw [exec_pcSort_of_ready hr hN] at h
  injection h with h
  subst h
  have again : exec .pcSort s.afterSort = .next s.afterSort.afterSort :=
    exec_pcSort_of_ready ⟨hr.not_busy, hr.not_faulted⟩ hN
  rw [again, State.afterSort_again hi.pc_inv.sym_wf.1]

end Sys2Proof.Machine


/-! PROOFS. PC.GENCODES (41_prefix_code.md R190-R197; O39, O40, O41): which lengths it codes, and the codes it leaves. -/

namespace Sys2Proof.Machine

/-! ### Which lengths it codes (R192) -/

/-- R190: a bound on the used lengths is one on all lengths, since an unused symbol has length 0. -/
theorem State.usedLengths_le_iff {s : State} {N B : Nat} :
    (∀ l ∈ s.usedLengths N, l ≤ B) ↔ ∀ i < N, s.lengthOf i ≤ B := by
  constructor
  · intro h i hi
    by_cases unused : s.lengthOf i = 0
    · rw [unused]; exact Nat.zero_le B
    · exact h _ (List.mem_map.2 ⟨(s.lengthOf i, i), State.mem_usedSymbols.2 ⟨hi, rfl, unused⟩, rfl⟩)
  · intro h l hl
    obtain ⟨x, hx, rfl⟩ := List.mem_map.1 hl
    obtain ⟨below, length, -⟩ := State.mem_usedSymbols.1 hx
    rw [length]
    exact h x.2 below

/-- R192 (a): the check that no used length is above 32. -/
theorem State.any_too_long_iff {s : State} {N : Nat} :
    ((s.usedLengths N).any fun l => decide (32 < l)) = true ↔ ¬ ∀ i < N, s.lengthOf i ≤ 32 := by
  rw [← State.usedLengths_le_iff]
  simp only [List.any_eq_true, decide_eq_true_eq, not_forall, not_le, exists_prop]

/-- R191: what PC.GENCODES writes to CODE. -/
def State.codeWrites (s : State) : List (Nat × Word) := (List.range s.pc.symbolCount).map fun i =>
  (i, BitVec.ofNat 32 ((Sparse.find (canonicalCodes (s.usedSymbols s.pc.symbolCount)) i).getD 0))

/-- R191: the state with CODE[0..N-1] written and PC_RESULT 1. -/
def State.afterGencodes (s : State) : State :=
  State.finish { s with pc := { s.pc with code := Sparse.insertAll s.pc.code s.codeWrites } } 1

theorem exec_pcGencodes_of_ready {s : State} (hr : s.Ready .pc) (hN : s.pc.numsyms.toNat ≤ 1024) : exec .pcGencodes s =
    if ((s.usedLengths s.pc.numsyms.toNat).any fun l => decide (32 < l)) = true then .next (s.finish 0)
    else if 2 ^ 32 < kraft 32 (s.usedLengths s.pc.numsyms.toNat) then .next (s.finish 0)
    else .next s.afterGencodes := execPcGencodes_of_admits (hr.admits rfl) hN

theorem exec_pcGencodes_of_codable {s : State} (hr : s.Ready .pc) (hN : s.pc.numsyms.toNat ≤ 1024)
    (hc : s.Codable s.pc.numsyms.toNat) : exec .pcGencodes s = .next s.afterGencodes := by
  have short := fun long => State.any_too_long_iff.1 long hc.short_enough
  rw [exec_pcGencodes_of_ready hr hN, if_neg short, if_neg (Nat.not_lt.2 hc.kraft_le)]

theorem exec_pcGencodes_of_not_codable {s : State} (hr : s.Ready .pc) (hN : s.pc.numsyms.toNat ≤ 1024)
    (hc : ¬ s.Codable s.pc.numsyms.toNat) : exec .pcGencodes s = .next (s.finish 0) := by
  rw [exec_pcGencodes_of_ready hr hN]
  split
  · rfl
  next short =>
    have overfull : 2 ^ 32 < kraft 32 (s.usedLengths s.pc.numsyms.toNat) :=
      Nat.lt_of_not_le fun le => hc ⟨not_not.1 (mt State.any_too_long_iff.2 short), le⟩
    exact if_pos overfull

/-- Settles O39: codable lengths pass both checks, and other lengths fail one of them. -/
theorem gencodesSucceedsExactlyOnCodableLengths : Obligations.GencodesSucceedsExactlyOnCodableLengths := by
  unfold Obligations.GencodesSucceedsExactlyOnCodableLengths
  intro s hr hN
  by_cases hc : s.Codable s.pc.numsyms.toNat
  · exact ⟨_, exec_pcGencodes_of_codable hr hN hc, fun _ => rfl, fun refused => absurd hc refused⟩
  · exact ⟨_, exec_pcGencodes_of_not_codable hr hN hc, fun codable => absurd codable hc, fun _ => rfl⟩

/-! ### Canonical order (R193) -/

/-- R193: the used symbols in canonical order, as (length, index). -/
def State.canonicalOrder (s : State) (N : Nat) : List (Nat × Nat) := sortBy symbolLe (s.usedSymbols N)

theorem State.canonicalOrder_perm (s : State) (N : Nat) : (s.canonicalOrder N).Perm (s.usedSymbols N) := sortBy_perm symbolLe _

theorem State.canonicalOrder_nodup (s : State) (N : Nat) : ((s.canonicalOrder N).map (·.2)).Nodup :=
  ((s.canonicalOrder_perm N).map _).nodup_iff.2 (s.usedSymbols_nodup N)

theorem State.mem_canonicalOrder {s : State} {N : Nat} {x : Nat × Nat} :
    x ∈ s.canonicalOrder N ↔ s.used N x.2 ∧ x.1 = s.lengthOf x.2 := by
  rw [(s.canonicalOrder_perm N).mem_iff, State.mem_usedSymbols]
  unfold State.used State.lengthOf
  constructor
  · rintro ⟨below, length, nonzero⟩
    exact ⟨⟨below, length ▸ nonzero⟩, length⟩
  · rintro ⟨⟨below, nonzero⟩, length⟩
    exact ⟨below, length, length ▸ nonzero⟩

theorem State.used_mem_canonicalOrder {s : State} {N i : Nat} (h : s.used N i) : (s.lengthOf i, i) ∈ s.canonicalOrder N :=
  State.mem_canonicalOrder.2 ⟨h, rfl⟩

theorem State.canonicalOrder_strict (s : State) (N : Nat) :
    (s.canonicalOrder N).Pairwise fun a b => s.comesBefore a.2 b.2 := s.sortBy_usedSymbols_strict N

theorem State.canonicalOrder_lengths (s : State) (N : Nat) : (s.canonicalOrder N).Pairwise fun a b => a.1 ≤ b.1 :=
  (sortBy_symbolLe_pairwise _).imp fun h => by rw [symbolLe_iff] at h; omega

theorem State.comesBefore_irrefl (s : State) (i : Nat) : ¬ s.comesBefore i i := by
  unfold State.comesBefore; omega

theorem State.comesBefore_asymm {s : State} {i j : Nat} (h : s.comesBefore i j) : ¬ s.comesBefore j i := by
  unfold State.comesBefore at *; omega

/-- R193: places in canonical order are ordered as the symbols are. -/
theorem State.comesBefore_iff_place_lt {s : State} {N a b : Nat} (ha : a < (s.canonicalOrder N).length)
    (hb : b < (s.canonicalOrder N).length) :
    s.comesBefore (s.canonicalOrder N)[a].2 (s.canonicalOrder N)[b].2 ↔ a < b := by
  have strict := List.pairwise_iff_getElem.1 (s.canonicalOrder_strict N)
  constructor
  · intro h
    rcases Nat.lt_trichotomy a b with lt | rfl | gt
    · exact lt
    · exact absurd h (s.comesBefore_irrefl _)
    · exact absurd h (State.comesBefore_asymm (strict b a hb ha gt))
  · exact strict a b ha hb

/-! ### The codes (R194) -/

/-- R194: the used symbols in canonical order, as ((length, index), (index, code)). -/
def State.codeTable (s : State) (N : Nat) : List ((Nat × Nat) × (Nat × Nat)) :=
  (s.canonicalOrder N).zip (canonicalCodes (s.usedSymbols N))

theorem State.canonicalCodes_map_fst (s : State) (N : Nat) :
    (canonicalCodes (s.usedSymbols N)).map (·.1) = (s.canonicalOrder N).map (·.2) := assignCodes_map_fst 0 0 _

/-- R194, R196 (a): the Kraft sum up to a code bounds it, so a code fits its length when the lengths are codable. -/
theorem State.Codable.code_lt {s : State} {N : Nat} (hc : s.Codable N) {y : (Nat × Nat) × (Nat × Nat)}
    (hy : y ∈ s.codeTable N) : y.2.2 < 2 ^ y.1.1 := by
  have bound : ∀ x ∈ s.canonicalOrder N, 0 ≤ x.1 ∧ x.1 ≤ 32 := fun x hx => by
    obtain ⟨used, length⟩ := State.mem_canonicalOrder.1 hx
    exact ⟨Nat.zero_le _, length ▸ hc.short_enough _ used.1⟩
  have short := (bound y.1 (List.of_mem_zip hy).1).2
  have fits : (y.2.2 + 1) * 2 ^ (32 - y.1.1) ≤ 0 * 2 ^ 32 + kraft 32 ((s.canonicalOrder N).map (·.1)) :=
    assignCodes_le bound (s.canonicalOrder_lengths N) hy
  have same : kraft 32 ((s.canonicalOrder N).map (·.1)) = kraft 32 (s.usedLengths N) :=
    (((s.canonicalOrder_perm N).map _).map _).sum_eq
  have split : 2 ^ 32 = 2 ^ y.1.1 * 2 ^ (32 - y.1.1) := by rw [← Nat.pow_add, Nat.add_sub_cancel' short]
  have le := hc.kraft_le
  rw [← same, split] at le
  rw [Nat.zero_mul, Nat.zero_add] at fits
  exact Nat.le_of_mul_le_mul_right (fits.trans le) (Nat.two_pow_pos _)

/-- R191: the CODE entry of a symbol after PC.GENCODES. -/
theorem State.codeAt_afterGencodes {s : State} {i : Nat} (hi : i < s.pc.symbolCount) : s.afterGencodes.codeAt i =
    BitVec.ofNat 32 ((Sparse.find (canonicalCodes (s.usedSymbols s.pc.symbolCount)) i).getD 0) := by
  have nodup : (s.codeWrites.map (·.1)).Nodup := by
    rw [State.codeWrites, List.map_map]
    exact List.nodup_range.map fun _ _ h => h
  have written := Sparse.find_insertAll_of_mem _ s.pc.code nodup (List.mem_map.2 ⟨i, List.mem_range.2 hi, rfl⟩)
  exact congrArg (Option.getD · _) written

/-- R191: the table gives each symbol its own code. -/
theorem State.codeTable_index {s : State} {N : Nat} {y : (Nat × Nat) × (Nat × Nat)} (hy : y ∈ s.codeTable N) :
    y.2.1 = y.1.2 := by
  obtain ⟨k, hk, rfl⟩ := List.mem_iff_getElem.1 hy
  have same := congrArg (·[k]?) (s.canonicalCodes_map_fst N)
  rw [State.codeTable, List.length_zip, lt_min_iff] at hk
  simpa [State.codeTable, hk.1, hk.2] using same

/-- R191, R194: the CODE entry of a used symbol is its code. -/
theorem State.Codable.codeAt_eq {s : State} (hc : s.Codable s.pc.symbolCount) {y : (Nat × Nat) × (Nat × Nat)}
    (hy : y ∈ s.codeTable s.pc.symbolCount) : (s.afterGencodes.codeAt y.1.2).toNat = y.2.2 := by
  obtain ⟨used, length⟩ := State.mem_canonicalOrder.1 (List.of_mem_zip hy).1
  have nodup : ((canonicalCodes (s.usedSymbols s.pc.symbolCount)).map (·.1)).Nodup := by
    rw [State.canonicalCodes_map_fst]
    exact s.canonicalOrder_nodup _
  have listed : (y.1.2, y.2.2) ∈ canonicalCodes (s.usedSymbols s.pc.symbolCount) := by
    rw [← State.codeTable_index hy]
    exact (List.of_mem_zip hy).2
  have short : y.1.1 ≤ 32 := length ▸ hc.short_enough _ used.1
  have fits : y.2.2 < 2 ^ 32 := (hc.code_lt hy).trans_le (Nat.pow_le_pow_right (by decide) short)
  rw [State.codeAt_afterGencodes used.1, Sparse.find_of_mem_nodup nodup listed, Option.getD_some, BitVec.toNat_ofNat,
    Nat.mod_eq_of_lt fits]

/-- R190: the CODE entry of an unused symbol is 0. -/
theorem State.codeAt_of_unused {s : State} {i : Nat} (hi : i < s.pc.symbolCount) (unused : s.lengthOf i = 0) :
    s.afterGencodes.codeAt i = 0 := by
  have unlisted : i ∉ (canonicalCodes (s.usedSymbols s.pc.symbolCount)).map (·.1) := by
    rw [State.canonicalCodes_map_fst]
    intro h
    obtain ⟨x, hx, rfl⟩ := List.mem_map.1 h
    exact (State.mem_canonicalOrder.1 hx).1.2 unused
  rw [State.codeAt_afterGencodes hi, Sparse.find_of_notMem unlisted]
  rfl

theorem State.codeTable_length (s : State) (N : Nat) : (s.codeTable N).length = (s.canonicalOrder N).length := by
  rw [State.codeTable, List.length_zip, canonicalCodes, assignCodes_length, ← State.canonicalOrder, Nat.min_self]

theorem State.codeTable_getElem_fst {s : State} {N a : Nat} (ha : a < (s.codeTable N).length) :
    (s.codeTable N)[a].1 = (s.canonicalOrder N)[a]'(s.codeTable_length N ▸ ha) := by
  simp [State.codeTable]

/-- A used symbol has a place in the table, and its CODE entry is the code there. -/
theorem State.Codable.exists_place {s : State} (hc : s.Codable s.pc.symbolCount) {i : Nat} (hi : s.used s.pc.symbolCount i) :
    ∃ a, ∃ ha : a < (s.codeTable s.pc.symbolCount).length, (s.codeTable s.pc.symbolCount)[a].1 = (s.lengthOf i, i) ∧
      (s.codeTable s.pc.symbolCount)[a].2.2 = (s.afterGencodes.codeAt i).toNat := by
  obtain ⟨a, ha, e⟩ := State.used_getElem hi
  have ha' : a < (s.codeTable s.pc.symbolCount).length := s.codeTable_length _ ▸ ha
  have place : (s.codeTable s.pc.symbolCount)[a].1 = (s.lengthOf i, i) := (State.codeTable_getElem_fst ha').trans e
  have code := hc.codeAt_eq (List.getElem_mem ha')
  rw [place] at code
  exact ⟨a, ha', place, code.symm⟩

/-- R193: two symbols stand in the table as they do in canonical order. -/
theorem State.place_lt_iff {s : State} {N a b i j : Nat} (ha : a < (s.codeTable N).length) (hb : b < (s.codeTable N).length)
    (hi : (s.codeTable N)[a].1 = (s.lengthOf i, i)) (hj : (s.codeTable N)[b].1 = (s.lengthOf j, j)) :
    s.comesBefore i j ↔ a < b := by
  have lt := State.comesBefore_iff_place_lt (s.codeTable_length N ▸ ha) (s.codeTable_length N ▸ hb)
  rw [← State.codeTable_getElem_fst ha, ← State.codeTable_getElem_fst hb, hi, hj] at lt
  exact lt

/-- R194, R196 (b): the code of a later symbol, cut to the length of an earlier one, lies beyond the earlier one's code. -/
theorem State.Codable.succ_code_le_code {s : State} (hc : s.Codable s.pc.symbolCount) {i j : Nat} (hi : s.used s.pc.symbolCount i)
    (hj : s.used s.pc.symbolCount j) (before : s.comesBefore i j) :
    ((s.afterGencodes.codeAt i).toNat + 1) * 2 ^ (s.lengthOf j - s.lengthOf i) ≤ (s.afterGencodes.codeAt j).toNat := by
  obtain ⟨a, ha, placeI, codeI⟩ := hc.exists_place hi
  obtain ⟨b, hb, placeJ, codeJ⟩ := hc.exists_place hj
  have beyond := List.pairwise_iff_getElem.1
    (assignCodes_pairwise (code := 0) (fun x _ => Nat.zero_le x.1) (s.canonicalOrder_lengths s.pc.symbolCount))
    a b ha hb ((State.place_lt_iff ha hb placeI placeJ).1 before)
  change ((s.codeTable _)[a].2.2 + 1) * 2 ^ ((s.codeTable _)[b].1.1 - (s.codeTable _)[a].1.1) ≤ (s.codeTable _)[b].2.2 at beyond
  rwa [placeI, placeJ, codeI, codeJ] at beyond

/-- R196 (a): the code of a used symbol fits its length. -/
theorem State.Codable.code_lt_two_pow {s : State} (hc : s.Codable s.pc.symbolCount) {i : Nat} (hi : s.used s.pc.symbolCount i) :
    (s.afterGencodes.codeAt i).toNat < 2 ^ s.lengthOf i := by
  obtain ⟨a, ha, place, code⟩ := hc.exists_place hi
  have fits := hc.code_lt (List.getElem_mem ha)
  rwa [place, code] at fits

/-- Settles O40: of two used symbols one comes first in canonical order. -/
theorem gencodesCodesArePrefixFree : Obligations.GencodesCodesArePrefixFree := by
  unfold Obligations.GencodesCodesArePrefixFree
  intro s hr hN hc
  refine ⟨_, exec_pcGencodes_of_codable hr hN hc, rfl, fun i hi => State.Codable.code_lt_two_pow hc hi,
    fun i j hi hj ne le => ?_⟩
  by_cases before : s.comesBefore i j
  · have beyond := State.Codable.succ_code_le_code hc hi hj before
    rw [Nat.shiftRight_eq_div_pow]
    exact Nat.ne_of_gt ((Nat.le_div_iff_mul_le (Nat.two_pow_pos _)).2 beyond)
  · have sameLength : s.lengthOf i = s.lengthOf j := by unfold State.comesBefore at before; omega
    have after : s.comesBefore j i := by unfold State.comesBefore at before ⊢; omega
    have beyond := State.Codable.succ_code_le_code hc hj hi after
    rw [sameLength, Nat.sub_self, Nat.pow_zero, Nat.mul_one] at beyond
    rw [sameLength, Nat.sub_self, Nat.shiftRight_zero]
    exact Nat.ne_of_lt beyond

/-- Every place of the table holds a used symbol. -/
theorem State.codeTable_place {s : State} {N a : Nat} (ha : a < (s.codeTable N).length) :
    s.used N (s.codeTable N)[a].1.2 ∧ (s.codeTable N)[a].1 = (s.lengthOf (s.codeTable N)[a].1.2, (s.codeTable N)[a].1.2) := by
  obtain ⟨used, length⟩ := State.mem_canonicalOrder.1 (List.of_mem_zip (List.getElem_mem ha)).1
  exact ⟨used, Prod.ext length rfl⟩

/-- R194: the running code starts at 0. -/
theorem assignCodes_first {prev : Nat} {l : List (Nat × Nat)} (h : 0 < (l.zip (assignCodes 0 prev l)).length) :
    (l.zip (assignCodes 0 prev l))[0].2.2 = 0 := by
  cases l with
  | nil => cases h
  | cons x l => exact Nat.zero_shiftLeft _

/-- R194: the first symbol in canonical order gets code 0. -/
theorem State.Codable.code_first {s : State} (hc : s.Codable s.pc.symbolCount) {j : Nat} (hj : s.used s.pc.symbolCount j)
    (first : ∀ i, s.used s.pc.symbolCount i → ¬ s.comesBefore i j) : s.afterGencodes.codeAt j = 0 := by
  obtain ⟨b, hb, placeJ, codeJ⟩ := hc.exists_place hj
  have start := Nat.zero_lt_of_lt hb
  obtain ⟨used, place⟩ := State.codeTable_place start
  obtain rfl : b = 0 := Nat.eq_zero_of_not_pos fun pos => first _ used ((State.place_lt_iff start hb place placeJ).2 pos)
  exact BitVec.eq_of_toNat_eq (codeJ.symm.trans (assignCodes_first start))

/-- R194: a symbol that comes right after another gets the successor of its code, shifted by the growth in length. -/
theorem State.Codable.code_next {s : State} (hc : s.Codable s.pc.symbolCount) {i j : Nat} (hi : s.used s.pc.symbolCount i)
    (hj : s.used s.pc.symbolCount j) (before : s.comesBefore i j)
    (next : ∀ k, s.used s.pc.symbolCount k → ¬ (s.comesBefore i k ∧ s.comesBefore k j)) :
    (s.afterGencodes.codeAt j).toNat = ((s.afterGencodes.codeAt i).toNat + 1) * 2 ^ (s.lengthOf j - s.lengthOf i) := by
  obtain ⟨a, ha, placeI, codeI⟩ := hc.exists_place hi
  obtain ⟨b, hb, placeJ, codeJ⟩ := hc.exists_place hj
  have lt := (State.place_lt_iff ha hb placeI placeJ).1 before
  have hk : a + 1 < (s.codeTable s.pc.symbolCount).length := Nat.lt_of_le_of_lt lt hb
  obtain ⟨used, place⟩ := State.codeTable_place hk
  obtain rfl : b = a + 1 := by
    have afterI := (State.place_lt_iff ha hk placeI place).2 (Nat.lt_succ_self a)
    have notBeforeJ := mt (State.place_lt_iff hk hb place placeJ).2 fun beforeJ => next _ used ⟨afterI, beforeJ⟩
    omega
  have successor : (s.codeTable s.pc.symbolCount)[a + 1].2.2 = ((s.codeTable s.pc.symbolCount)[a].2.2 + 1) *
      2 ^ ((s.codeTable s.pc.symbolCount)[a + 1].1.1 - (s.codeTable s.pc.symbolCount)[a].1.1) :=
    List.isChain_iff_getElem.1 assignCodes_chain a hk
  rwa [placeI, placeJ, codeI, codeJ] at successor

/-- Settles O41: the codes follow the recurrence along the canonical order, and an unused symbol is in no place of it. -/
theorem gencodesFollowsTheRecurrence : Obligations.GencodesFollowsTheRecurrence := by
  unfold Obligations.GencodesFollowsTheRecurrence
  intro s hr hN hc
  refine ⟨_, exec_pcGencodes_of_codable hr hN hc, rfl, fun j hj first => State.Codable.code_first hc hj first,
    fun i j hi hj before next => ?_, fun i hi unused => State.codeAt_of_unused hi unused⟩
  rw [Nat.shiftLeft_eq]
  exact State.Codable.code_next hc hi hj before next

end Sys2Proof.Machine


/-! PROOFS. PC.LIMIT (41_prefix_code.md R200-R209; O42-O46): one step of its loop, which lengths it limits, and the lengths it
leaves. -/

namespace Sys2Proof.Machine

/-! ### One step of the loop (R205) -/

theorem getD_set {h : List Nat} {i : Nat} (hi : i < h.length) (v k : Nat) :
    (h.set i v).getD k 0 = if k = i then v else h.getD k 0 := by
  split
  · next eq => rw [eq, getD_set_self v hi]
  · next ne => exact getD_set_ne v (Ne.symm ne)

/-- R205: the counts that a step leaves. -/
theorem rebalanceStep_counts {M : Nat} {h h' : List Nat} (hl : h.length = M + 1) (hs : rebalanceStep M h = some h') :
    ∃ j, 1 ≤ j ∧ j < M ∧ 0 < h.getD j 0 ∧ (∀ k, j < k → k < M → h.getD k 0 = 0) ∧
      ∀ k, h'.getD k 0 + (if k = M then 1 else 0) + (if k = j then 1 else 0) = h.getD k 0 + (if k = j + 1 then 2 else 0) := by
  unfold rebalanceStep at hs
  split at hs
  · cases hs
  next used =>
  obtain ⟨j, hj, rfl⟩ := Option.map_eq_some_iff.1 hs
  obtain ⟨pos, le, inUse, longest⟩ := longestUsed_eq_some hj
  have lt : j < M := by omega
  have others {k : Nat} (hk : k ≠ M) : (h.set M (h.getD M 0 - 1)).getD k 0 = h.getD k 0 := getD_set_ne _ (Ne.symm hk)
  rw [others (Nat.ne_of_lt lt)] at inUse ⊢
  refine ⟨j, pos, lt, inUse, fun k hjk hkM => ?_, fun k => ?_⟩
  · exact (others (Nat.ne_of_lt hkM)).symm.trans (longest k hjk (by omega))
  · simp only [getD_set, List.length_set, hl, show M < M + 1 by omega, show j < M + 1 by omega, show j + 1 < M + 1 by omega]
    split_ifs <;> subst_vars <;> omega

/-- The number of symbols of a histogram, with what it counts at 0. -/
theorem sum_eq_weighted {M : Nat} {h : List Nat} (hl : h.length = M + 1) : h.sum = h.getD 0 0 + weighted (fun _ => 1) M h := by
  have listed : h = (List.range (M + 1)).map fun k => h.getD k 0 :=
    List.ext_getElem (by simp [hl]) fun k hk _ => by simp [List.getElem?_eq_getElem hk]
  conv_lhs => rw [listed, List.range_succ_eq_map, List.map_cons, List.map_map, List.sum_cons]
  simp [weighted, Function.comp_def]

/-- Settles O46: the sum and the total follow from the weights that a step moves. -/
theorem rebalanceStepLowersTheTotalByOne : Obligations.RebalanceStepLowersTheTotalByOne := by
  unfold Obligations.RebalanceStepLowersTheTotalByOne
  intro M h h' hM hl hs
  obtain ⟨hl', first, -, j, -, -, weights⟩ := rebalanceStep_spec hM hl hs
  have count := weights fun _ => 1
  refine ⟨rebalanceStep_counts hl hs, hl', ?_, rebalanceStep_total hM hl hs⟩
  rw [sum_eq_weighted hl, sum_eq_weighted hl', first]
  omega

/-! ### Which lengths it limits (R201-R203) -/

/-- R200-R207: the checks and the loop, on the used lengths. -/
theorem limitLengths_usedSymbols (s : State) (N M : Nat) : limitLengths M (s.usedSymbols N) =
    if M < 1 ∨ 32 < M then none
    else if kraft 255 (s.usedLengths N) ≠ 2 ^ 255 then none
    else if 2 ^ M < (s.usedLengths N).length then none
    else
      let h := clampedHistogram M (s.usedLengths N)
      (rebalance M (histogramTotal M h - 2 ^ M) (histogramTotal M h) h).map fun h' =>
        ((s.canonicalOrder N).map (·.2)).zip (histogramLengths M h') := by
  rw [State.usedLengths, List.length_map]
  rfl

theorem limitLengths_of_not_limitable {s : State} {N M : Nat} (h : ¬ s.Limitable N M) :
    limitLengths M (s.usedSymbols N) = none := by
  rw [limitLengths_usedSymbols]
  split
  · rfl
  next limit =>
  split
  · rfl
  next complete =>
  split
  · rfl
  next few => exact absurd ⟨by omega, by omega, not_not.1 complete, Nat.le_of_not_lt few⟩ h

/-! ### Lengths that are within the limit already (R208 (e)) -/

/-- R13: a Kraft sum in another unit. -/
theorem kraft_scale {M B : Nat} (hB : M ≤ B) {lens : List Nat} (short : ∀ l ∈ lens, l ≤ M) :
    kraft B lens = kraft M lens * 2 ^ (B - M) := by
  unfold kraft
  rw [← List.sum_map_mul_right]
  refine congrArg List.sum (List.map_congr_left fun l hl => ?_)
  have le := short l hl
  rw [← Nat.pow_add, show M - l + (B - M) = B - l by omega]

/-- R204: the total of complete lengths within the limit is 2^M, so the loop does not run. -/
theorem clampedHistogram_total_of_short {M : Nat} (hM : 1 ≤ M) (hM' : M ≤ 32) {lens : List Nat} (pos : ∀ l ∈ lens, 1 ≤ l)
    (complete : kraft 255 lens = 2 ^ 255) (short : ∀ l ∈ lens, l ≤ M) :
    histogramTotal M (clampedHistogram M lens) = 2 ^ M := by
  have same : histogramTotal M (clampedHistogram M lens) = kraft M lens := by
    rw [clampedHistogram_total hM pos]
    exact congrArg List.sum (List.map_congr_left fun l hl => by rw [Nat.min_eq_left (short l hl)])
  rw [kraft_scale (by omega : M ≤ 255) short, show 255 = M + (255 - M) by omega, Nat.pow_add,
    Nat.add_sub_cancel_left] at complete
  rw [same]
  exact Nat.eq_of_mul_eq_mul_right (Nat.two_pow_pos _) complete

theorem sum_map_indicator (a : Nat) (l : List Nat) : (l.map fun b => if b = a then 1 else 0).sum = l.count a := by
  induction l with
  | nil => rfl
  | cons x l ih => rw [List.map_cons, List.sum_cons, ih, List.count_cons, Nat.add_comm]; simp

/-- R208 (e): the histogram of lengths within the limit gives them back, in some order. -/
theorem histogramLengths_clampedHistogram_perm {M : Nat} (hM : 1 ≤ M) {lens : List Nat} (pos : ∀ l ∈ lens, 1 ≤ l)
    (short : ∀ l ∈ lens, l ≤ M) : (histogramLengths M (clampedHistogram M lens)).Perm lens := by
  refine List.perm_iff_count.2 fun a => ?_
  rw [← sum_map_indicator, ← sum_map_indicator, histogramLengths_sum, weighted_clampedHistogram _ hM pos]
  refine congrArg List.sum (List.map_congr_left fun l hl => ?_)
  rw [Nat.min_eq_left (short l hl), Nat.sub_add_cancel (pos l hl)]

theorem rebalance_of_total {M : Nat} {h : List Nat} (done : histogramTotal M h = 2 ^ M) (fuel : Nat) :
    rebalance M fuel (histogramTotal M h) h = some h := by
  cases fuel <;> rw [rebalance, if_pos done]

/-- R208 (e): so, sorted as PC.LIMIT sorts them, they are the used lengths in canonical order. -/
theorem State.histogramLengths_of_short {s : State} {N M : Nat} (hM : 1 ≤ M) (short : ∀ l ∈ s.usedLengths N, l ≤ M) :
    histogramLengths M (clampedHistogram M (s.usedLengths N)) = (s.canonicalOrder N).map (·.1) := by
  have pos : ∀ l ∈ s.usedLengths N, 1 ≤ l := fun l hl => (s.usedLengths_bounds N l hl).1
  have perm := (histogramLengths_clampedHistogram_perm hM pos short).trans ((s.canonicalOrder_perm N).map Prod.fst).symm
  refine perm.eq_of_pairwise (fun a b _ _ => Nat.le_antisymm) (histogramLengths_sorted M _) ?_
  exact List.pairwise_map.2 (s.canonicalOrder_lengths N)

/-! ### The new lengths (R207) -/

/-- R207, R208: new lengths for the used symbols in canonical order. -/
structure State.NewLengths (s : State) (N M : Nat) (lens : List Nat) : Prop where
  count : lens.length = (s.canonicalOrder N).length
  rising : lens.Pairwise fun a b => a ≤ b
  bounds : ∀ l ∈ lens, 1 ≤ l ∧ l ≤ M
  complete : kraft M lens = 2 ^ M
  /-- R208 (e) -/
  unchanged : (∀ l ∈ s.usedLengths N, l ≤ M) → lens = (s.canonicalOrder N).map (·.1)

/-- R203, R206: limitable lengths are limited. -/
theorem State.Limitable.exists_newLengths {s : State} {N M : Nat} (hl : s.Limitable N M) :
    ∃ lens, limitLengths M (s.usedSymbols N) = some (((s.canonicalOrder N).map (·.2)).zip lens) ∧ s.NewLengths N M lens := by
  obtain ⟨hM, hM', complete, few⟩ := hl
  have pos : ∀ l ∈ s.usedLengths N, 1 ≤ l := fun l hl => (s.usedLengths_bounds N l hl).1
  have count := clampedHistogram_count hM pos
  obtain ⟨ge, excess⟩ := clampedHistogram_excess hM hM' (s.usedLengths_bounds N) complete
  obtain ⟨h, balanced, -, -, kept, total⟩ :=
    rebalance_spec hM (histogramTotal M (clampedHistogram M (s.usedLengths N)) - 2 ^ M) (clampedHistogram_length M _)
      (by omega) ge excess (by omega)
  refine ⟨histogramLengths M h, ?_, ?_, histogramLengths_sorted M h, fun l => mem_histogramLengths, ?_, fun short => ?_⟩
  · rw [limitLengths_usedSymbols, if_neg (by omega), if_neg (not_not.2 complete), if_neg (Nat.not_lt.2 few)]
    exact Option.map_eq_some_iff.2 ⟨h, balanced, rfl⟩
  · rw [histogramLengths_length, kept, count, State.usedLengths, List.length_map]
    exact (s.canonicalOrder_perm N).length_eq.symm
  · rw [histogramLengths_kraft, total]
  · rw [rebalance_of_total (clampedHistogram_total_of_short hM hM' pos complete short)] at balanced
    injection balanced with same
    rw [← same, State.histogramLengths_of_short hM short]

/-! ### The SIZE entries it leaves (R207) -/

/-- R200: what PC.LIMIT writes to SIZE when it gives the used symbols the lengths `lens`. -/
def State.limitWrites (s : State) (lens : List Nat) : List (Nat × Byte) :=
  (((s.canonicalOrder s.pc.symbolCount).map (·.2)).zip lens).map fun x => (x.1, BitVec.ofNat 8 x.2)

/-- R200: the state with the new lengths written to SIZE and PC_RESULT 1. -/
def State.afterLimit (s : State) (lens : List Nat) : State :=
  State.finish { s with pc := { s.pc with size := Sparse.insertAll s.pc.size (s.limitWrites lens) } } 1

theorem exec_pcLimit_of_limitable {s : State} (hr : s.Ready .pc) (hN : s.pc.numsyms.toNat ≤ 1024)
    (hl : s.Limitable s.pc.numsyms.toNat s.pc.maxlen.toNat) :
    ∃ lens, exec .pcLimit s = .next (s.afterLimit lens) ∧ s.NewLengths s.pc.numsyms.toNat s.pc.maxlen.toNat lens := by
  obtain ⟨lens, limited, new⟩ := hl.exists_newLengths
  refine ⟨lens, ?_, new⟩
  have limited : limitLengths s.pc.maxCodeSize (s.usedSymbols s.pc.symbolCount) = _ := limited
  rw [exec, execPcLimit_of_admits (hr.admits rfl) hN, limited]
  rfl

theorem exec_pcLimit_of_not_limitable {s : State} (hr : s.Ready .pc) (hN : s.pc.numsyms.toNat ≤ 1024)
    (hl : ¬ s.Limitable s.pc.numsyms.toNat s.pc.maxlen.toNat) : exec .pcLimit s = .next (s.finish 0) := by
  have refused : limitLengths s.pc.maxCodeSize (s.usedSymbols s.pc.symbolCount) = none := limitLengths_of_not_limitable hl
  rw [exec, execPcLimit_of_admits (hr.admits rfl) hN, refused]

/-- Settles O42: limitable lengths pass the checks and the loop ends, and other lengths fail a check. -/
theorem limitSucceedsExactlyOnLimitableLengths : Obligations.LimitSucceedsExactlyOnLimitableLengths := by
  unfold Obligations.LimitSucceedsExactlyOnLimitableLengths
  intro s hr hN
  by_cases hl : s.Limitable s.pc.numsyms.toNat s.pc.maxlen.toNat
  · obtain ⟨lens, limited, -⟩ := exec_pcLimit_of_limitable hr hN hl
    exact ⟨_, limited, fun _ => rfl, fun refused => absurd hl refused⟩
  · exact ⟨_, exec_pcLimit_of_not_limitable hr hN hl, fun limitable => absurd limitable hl, fun _ => rfl⟩

theorem State.NewLengths.limitWrites_nodup {s : State} {M : Nat} {lens : List Nat}
    (new : s.NewLengths s.pc.symbolCount M lens) : ((s.limitWrites lens).map (·.1)).Nodup := by
  have indexes : (s.limitWrites lens).map (·.1) = (s.canonicalOrder s.pc.symbolCount).map (·.2) := by
    rw [State.limitWrites, List.map_map]
    exact List.map_fst_zip (by rw [List.length_map, new.count])
  rw [indexes]
  exact s.canonicalOrder_nodup _

/-- R207: the used symbols have the new lengths, in canonical order. -/
theorem State.NewLengths.lengths_afterLimit {s : State} {M : Nat} {lens : List Nat}
    (new : s.NewLengths s.pc.symbolCount M lens) (hM : M ≤ 32) :
    ((s.canonicalOrder s.pc.symbolCount).map fun x => (s.afterLimit lens).lengthOf x.2) = lens := by
  refine List.ext_getElem (by rw [List.length_map, new.count]) fun k hk hk' => ?_
  rw [List.length_map] at hk
  have listed : ((s.canonicalOrder s.pc.symbolCount)[k].2, lens[k]) ∈ ((s.canonicalOrder s.pc.symbolCount).map (·.2)).zip lens :=
    List.mem_iff_getElem.2 ⟨k, by simp [hk, hk'], by simp⟩
  have written := Sparse.find_insertAll_of_mem _ s.pc.size new.limitWrites_nodup (List.mem_map.2 ⟨_, listed, rfl⟩)
  have size : (s.afterLimit lens).sizeAt (s.canonicalOrder s.pc.symbolCount)[k].2 = BitVec.ofNat 8 lens[k] :=
    congrArg (Option.getD · _) written
  have short := (new.bounds _ (List.getElem_mem hk')).2
  rw [List.getElem_map, State.lengthOf, size, BitVec.toNat_ofNat, Nat.mod_eq_of_lt (by omega)]

/-- R184, R190: PC.LIMIT keeps the SIZE entries of the other symbols. -/
theorem exec_pcLimit_unused {s t : State} (h : exec .pcLimit s = .next t) {i : Nat} (unused : ¬ s.used s.pc.numsyms.toNat i) :
    t.sizeAt i = s.sizeAt i := by
  refine (exec_pcLimit_frame h).2 i ?_
  by_cases below : i < s.pc.numsyms.toNat
  · exact .inr (not_not.1 fun nonzero => unused ⟨below, fun zero => nonzero (BitVec.eq_of_toNat_eq zero)⟩)
  · exact .inl (Nat.le_of_not_lt below)

/-- R207, R208, once: what PC.LIMIT leaves of limitable lengths. -/
theorem exec_pcLimit_newLengths {s : State} (hr : s.Ready .pc) (hN : s.pc.numsyms.toNat ≤ 1024)
    (hl : s.Limitable s.pc.numsyms.toNat s.pc.maxlen.toNat) :
    ∃ t, exec .pcLimit s = .next t ∧ t.pc.result = 1 ∧
      s.NewLengths s.pc.numsyms.toNat s.pc.maxlen.toNat
        ((s.canonicalOrder s.pc.numsyms.toNat).map fun x => t.lengthOf x.2) := by
  obtain ⟨lens, limited, new⟩ := exec_pcLimit_of_limitable hr hN hl
  refine ⟨_, limited, rfl, ?_⟩
  have lengths := State.NewLengths.lengths_afterLimit new hl.limit_le
  exact lengths.symm ▸ new

/-- R208 (a), (c): the same symbols are used, with lengths in 1..M. -/
theorem State.NewLengths.used_bounds {s t : State} {N M : Nat}
    (new : s.NewLengths N M ((s.canonicalOrder N).map fun x => t.lengthOf x.2)) {i : Nat} (hi : s.used N i) :
    1 ≤ t.lengthOf i ∧ t.lengthOf i ≤ M :=
  new.bounds _ (List.mem_map.2 ⟨_, State.used_mem_canonicalOrder hi, rfl⟩)

theorem State.usedSymbols_eq (s : State) (N : Nat) :
    s.usedSymbols N = ((List.range N).filter fun i => s.lengthOf i != 0).map fun i => (s.lengthOf i, i) := List.filter_map

/-- R190: the used lengths of a state in which the same symbols are used as in another, in the other's canonical order. -/
theorem State.usedLengths_perm {s t : State} {N : Nat} (same : ∀ i < N, t.lengthOf i = 0 ↔ s.lengthOf i = 0) :
    (t.usedLengths N).Perm ((s.canonicalOrder N).map fun x => t.lengthOf x.2) := by
  have filters : ((List.range N).filter fun i => t.lengthOf i != 0) = (List.range N).filter fun i => s.lengthOf i != 0 :=
    List.filter_congr fun i hi => by simp [bne, same i (List.mem_range.1 hi)]
  have listed : t.usedLengths N = (s.usedSymbols N).map fun x => t.lengthOf x.2 := by
    rw [State.usedLengths, State.usedSymbols_eq, State.usedSymbols_eq, filters, List.map_map, List.map_map]
    rfl
  rw [listed]
  exact ((s.canonicalOrder_perm N).map _).symm

/-- Settles O43: a used symbol has one of the new lengths, an unused one keeps length 0, and the new lengths are complete. -/
theorem limitGivesACompleteCode : Obligations.LimitGivesACompleteCode := by
  unfold Obligations.LimitGivesACompleteCode
  intro s hr hN hl
  obtain ⟨t, limited, result, new⟩ := exec_pcLimit_newLengths hr hN hl
  have unused {i : Nat} (zero : s.lengthOf i = 0) : t.lengthOf i = 0 :=
    (congrArg BitVec.toNat (exec_pcLimit_unused limited fun used => used.2 zero)).trans zero
  have same : ∀ i < s.pc.numsyms.toNat, t.lengthOf i = 0 ↔ s.lengthOf i = 0 := fun i hi =>
    ⟨fun zero => not_not.1 fun nonzero => by have := (new.used_bounds ⟨hi, nonzero⟩).1; omega, unused⟩
  refine ⟨t, limited, result, same, fun i hi => ?_, ?_⟩
  · by_cases zero : s.lengthOf i = 0
    · rw [unused zero]; exact Nat.zero_le _
    · exact (new.used_bounds ⟨hi, zero⟩).2
  · have sum := ((State.usedLengths_perm same).map fun l => 2 ^ (s.pc.maxlen.toNat - l)).sum_eq
    exact sum.trans new.complete

/-- Settles O44: the new lengths rise along the canonical order. -/
theorem limitKeepsTheOrderOfLengths : Obligations.LimitKeepsTheOrderOfLengths := by
  unfold Obligations.LimitKeepsTheOrderOfLengths
  intro s hr hN hl
  obtain ⟨t, limited, result, new⟩ := exec_pcLimit_newLengths hr hN hl
  refine ⟨t, limited, result, fun i j hi hj before => ?_⟩
  obtain ⟨a, ha, placeI⟩ := List.mem_iff_getElem.1 (State.used_mem_canonicalOrder hi)
  obtain ⟨b, hb, placeJ⟩ := List.mem_iff_getElem.1 (State.used_mem_canonicalOrder hj)
  have lt := State.comesBefore_iff_place_lt ha hb
  rw [placeI, placeJ] at lt
  have rising := List.pairwise_iff_getElem.1 (List.pairwise_map.1 new.rising) a b ha hb (lt.1 before)
  rwa [placeI, placeJ] at rising

/-- Settles O45: lengths within the limit are given back, each to its own symbol. -/
theorem limitLeavesShortLengths : Obligations.LimitLeavesShortLengths := by
  unfold Obligations.LimitLeavesShortLengths
  intro s hr hN hl short
  obtain ⟨t, limited, result, new⟩ := exec_pcLimit_newLengths hr hN hl
  refine ⟨t, limited, result, fun i => ?_⟩
  by_cases used : s.used s.pc.numsyms.toNat i
  · have own := List.map_inj_left.1 (new.unchanged (State.usedLengths_le_iff.2 short)) _ (State.used_mem_canonicalOrder used)
    exact BitVec.eq_of_toNat_eq own
  · exact exec_pcLimit_unused limited used

end Sys2Proof.Machine


/-! PROOFS. When nothing happens (60_exceptions.md R235, R240, R249; O8, O60): a faulted unit that is not being recovered, and a block
with nothing scheduled and no unit busy. -/

namespace Sys2Proof.Machine

/-- R240: HT.INIT and PC.CLRFLT are the only recovery commands. -/
theorem isRecovery_eq_false {i : Instr} (notInit : i ≠ .htInit) (notClrflt : i ≠ .pcClrflt) : isRecovery i = false := by
  cases i with
  | htInit => exact absurd rfl notInit
  | pcClrflt => exact absurd rfl notClrflt
  | htGet | htCount | htRdslot | pcSort | pcGencodes | pcLimit => rfl

/-- Settles O8: a faulted unit admits only its recovery command. -/
theorem faultedUnitDiscardsCommands : Obligations.FaultedUnitDiscardsCommands := by
  unfold Obligations.FaultedUnitDiscardsCommands
  intro i s faulted notInit notClrflt
  exact exec_of_not_admits (State.admits_of_faulted faulted (isRecovery_eq_false notInit notClrflt))

/-- With no move scheduled, the step is a move of one engine, the HT unit's if that unit is busy. -/
theorem step_nil {s : State} (h : s.schedule = []) : step s = s.move (.engine (if s.ht.busy then .ht else .pc)) := by
  unfold step State.drain
  rw [h]
  cases s.ht.busy <;> rfl

/-- Settles O60: the PC unit's engine moves, and that of an idle unit does nothing. -/
theorem idleBlockKeepsItsState : Obligations.IdleBlockKeepsItsState := by
  unfold Obligations.IdleBlockKeepsItsState
  intro s nothing htIdle pcIdle
  rw [step_nil nothing, htIdle]
  exact State.move_engine_idle pcIdle

end Sys2Proof.Machine


/-! PROOFS. Reset (70_reset_and_hazards.md R272, R273; O57, O59): HT.INIT on the argument registers' reset values gives the unit that
reset gives, and the reset clear runs in the HT unit alone until its engine moves. -/

namespace Sys2Proof.Machine

/-- R8: the reset capacity fits the six bits of INIT_LOGLEN, so HT.INIT reads it back. -/
theorem Params.toNat_ofNat_resetLoglen (P : Params) : (BitVec.ofNat 6 P.resetLoglen).toNat = P.resetLoglen := by
  have le_four : P.resetLoglen ≤ 4 := min_le_left _ _
  rw [BitVec.toNat_ofNat, Nat.mod_eq_of_lt (by omega)]

/-- R272: the engine's move on a running clear leaves the unit idle and everything else as it was. -/
theorem State.move_engine_clearing {s : State} (clearing : s.ht.task = .clearing) :
    s.move (.engine .ht) = .next { s with ht := { s.ht with task := .idle } } := by
  rw [State.move, State.htEngine, clearing]

/-- Settles O57: HT.INIT empties the table and clears the results and the fault, which leaves the argument registers, and those hold
their reset values; the capacity is the reset INIT_LOGLEN, which is in range. -/
theorem resetEqualsACompletedInit : Obligations.ResetEqualsACompletedInit := by
  unfold Obligations.ResetEqualsACompletedInit
  intro s legal idle initLoglen zhPolicy srcLen hash candOff len slotIdx
  refine ⟨?_, fun rest => ⟨_, step_scheduled s (.reset .now) rest, rfl⟩⟩
  have operand : s.ht.initLoglen.toNat = s.params.resetLoglen := by
    rw [initLoglen]; exact Params.toNat_ofNat_resetLoglen s.params
  obtain ⟨pos, le⟩ := Params.resetLoglen_bounds legal
  rw [← operand] at pos le
  obtain ⟨t, run, -, rfl⟩ := initMakesAnEmptyTable s idle pos le
  rw [run, operand]
  simp only [initLoglen, zhPolicy, srcLen, hash, candOff, len, slotIdx, HtUnit.busy_eq_false.1 idle]
  rfl

/-- Settles O59: the clear is the HT unit's task, and ending it is all that the engine's move does. -/
theorem resetClearIsBusyAndEnds : Obligations.ResetClearIsBusyAndEnds := by
  unfold Obligations.ResetClearIsBusyAndEnds
  intro s rest
  refine ⟨State.doReset { s with schedule := .engine .ht :: rest } .later, step_scheduled s (.reset .later) _, rfl, rfl, ?_⟩
  calc step (State.doReset { s with schedule := .engine .ht :: rest } .later)
      = (State.doReset { s with schedule := rest } .later).move (.engine .ht) := step_engine rfl
    _ = .next (State.doReset { s with schedule := rest } .now) := State.move_engine_clearing rfl
    _ = step { s with schedule := .reset .now :: rest } := (step_scheduled s (.reset .now) rest).symm

end Sys2Proof.Machine
